-- ==== Sys2Proof/Word.lean ====
section
/-! DEFINITION. The word types of PRLINK (spec/00_scope.md R11): bit 0 is the least significant bit. -/

namespace Sys2Proof

/-- A byte: a chip register, a buffer element, a status byte. -/
abbrev U8 := BitVec 8

/-- A 16-bit register (`reset_count`, `phy.chan`, `phy.freq_step_q`). -/
abbrev U16 := BitVec 16

/-- A 32-bit register or port word. -/
abbrev U32 := BitVec 32

/-- The 24-bit status word `S` (spec/30_encoding.md R100). -/
abbrev StatusWord := BitVec 24

/-- A stream cursor: 9 bits (spec/10_state.md R24, R27). -/
abbrev Cursor := BitVec 9

end Sys2Proof
end

