-- ==== Sys2Proof/Config.lean ====
section
/-! DEFINITION. The constants the source fixes (spec/00_scope.md R7, R8), the shapes of the parameters it leaves
open (R9), and the free values: constants without a body, of which nothing can be proved. The conversion formulas
of the reference configuration are in Machine/Convert.lean. -/

namespace Sys2Proof

/-! ## Constants the source fixes (R7, R8) -/

namespace Config

/-- FIFO_CAP, bytes of each chip FIFO. -/
abbrev fifoCap : Nat := 64
/-- MAX_LEN, largest payload. -/
abbrev maxLen : Nat := 255
/-- HDR_LEN. -/
abbrev hdrLen : Nat := 4
/-- META_LEN: RSSI byte and AFC byte. -/
abbrev metaLen : Nat := 2
/-- BUF_CAP = MAX_LEN + META_LEN (R8). -/
abbrev bufCap : Nat := maxLen + metaLen
/-- PREAMBLE_TX_NIBBLES. -/
abbrev preambleTxNibbles : U8 := 12#8
/-- PREAMBLE_DET_NIBBLES. -/
abbrev preambleDetNibbles : U8 := 6#8
/-- HIGH_BAND_HZ. -/
abbrev highBandHz : U32 := 480000000#32
/-- TXPOWER_LEVELS. -/
abbrev txpowerLevels : Nat := 8
/-- BROADCAST_ID, a header value only the chip's filter looks at (R7, spec/20_memory.md R76). -/
abbrev broadcastId : U32 := 0xFFFFFFFF#32

end Config

/-! ## Chip registers and parameter records -/

/-- The chip registers any rule touches, by the symbolic names of spec/10_state.md R39. -/
inductive ChipReg where
  | devtype | devver | devstat | is1 | is2 | ien1 | ien2 | opmode | fifoctl | xtalcap
  | ifbw | afcGear | crGear
  /-- R_CR_OSR[k], 0 <= k < N_CR -/
  | crOsr (k : Nat)
  | afcLimit | txdr1 | txdr0 | modctl1 | fdev | modctl2
  | datactl | hdrctl | preamlen | preath
  | sync3 | sync2 | sync1 | sync0
  | txhdr3 | txhdr2 | txhdr1 | txhdr0 | txlen
  | chkhdr3 | chkhdr2 | chkhdr1 | chkhdr0
  | hdren3 | hdren2 | hdren1 | hdren0
  | rxlen | rssi | afc | rxffAfull | txffAem | txpower
  | bandsel | carrier1 | carrier0 | fifo
  deriving DecidableEq, Repr

/-- A row of PHY_TABLE (spec/10_state.md R41). -/
structure PhyRow where
  bitrate : U32
  ifFilter : U8
  afcGear : U8
  crGear : U8
  crOsr : List U8
  afcLimiter : U8
  txRate : U16
  modCtl : U8
  fdev : U8
  deriving DecidableEq, Repr

/-- CHIPVAL: the named constants written to chip mode and control registers (R9). -/
structure ChipVal where
  opIdle : U8
  opRxOn : U8
  opTxOn : U8
  opSwReset : U8
  ffclrBoth : U8
  modctl2Fifo : U8
  datactlPkt : U8
  hdrctl4bBcast : U8
  deriving DecidableEq, Repr

/-- Which function a function-valued parameter of R9 is: the formula of the reference configuration, or the
`n`-th function of which nothing is known (log 2). -/
inductive Impl where
  | refcfg
  | other (n : Nat)
  deriving DecidableEq, Repr

/-- The parameters the source leaves open (R9), as plain data. PHY_TABLE is not empty (R9): it is
`phyFirst :: phyRest`. -/
structure Params where
  rxWm : Nat
  txLoWm : Nat
  nDev : Nat
  nBuf : Nat
  syncWord : U32
  phyFirst : PhyRow
  phyRest : List PhyRow
  nCr : Nat
  whitenMask : U8
  txpowEnum : List U8
  expectDevType : U8
  expectDevVer : U8
  freqLoLimit : U32
  freqHiLimit : U32
  /-- HIGH_BAND_MULT, an integer without a bound (R9) -/
  highBandMult : Int
  /-- FREQ_TO_REGS and REGS_TO_FREQ -/
  freqConv : Impl
  rssiConv : Impl
  afcW : Nat
  afcConv : Impl
  byteTimeout : Impl
  /-- REGADDR -/
  regAddr : Impl
  chipVal : ChipVal
  deriving DecidableEq, Repr

/-! ## Free values: opaque constants without a body -/

namespace Config

/-- The `i`-th byte that the chip of instance `h` answers after its tape of answers ran out
(spec/20_memory.md R66, R74; 93 U4, U6; log 4). -/
opaque chipByte (h i : Nat) : U8

/-- What the BUF byte at an address holds while nothing has written it (spec/10_state.md R42, R45; 93 U5; log 5). -/
opaque unwrittenByte (a : Nat) : U8

/-- The pool's `i`-th unscripted answer: `none`, or which of its free buffers it hands out
(spec/20_memory.md R86; 93 U16; log 6). -/
opaque poolChoice (i : Nat) : Option Nat

/-- Which of several enabled agents takes the `i`-th unscripted turn (spec/60_exceptions.md R283; log 7). -/
opaque agentChoice (i : Nat) : Nat

/-- HASH32, from the serial number to 32 bits (spec/43_bridge_api.md R209; D51; log 10). That the serial number is a natural
number without a width is the model's choice (log 29). -/
opaque hash32 (serial : Nat) : U32

/-- The `n`-th unknown RSSI_CONV. -/
opaque otherRssiConv (n : Nat) (r : U8) : U8

/-- The `n`-th unknown AFC_CONV. -/
opaque otherAfcConv (n : Nat) (raw : Int) (stepQ : U16) : U8

/-- The `n`-th unknown BYTE_TIMEOUT. -/
opaque otherByteTimeout (n : Nat) (bitrate : U32) : U32

/-- The `n`-th unknown FREQ_TO_REGS: band, channel and step. -/
opaque otherFreqToRegs (n : Nat) (f : U32) (m : Int) : U8 × U16 × U16

/-- The `n`-th unknown REGS_TO_FREQ. -/
opaque otherRegsToFreq (n : Nat) (band : U8) (chan : U16) : U32

/-- The `n`-th unknown REGADDR; an address is a number without a width (the model's choice, log 30). -/
opaque otherRegAddr (n : Nat) (r : ChipReg) : Nat

/-- What the REFCFG conversion gives outside its domain: another multiplier than 1 and 2, a band number that does not fit
(R253 states nothing there; log 13). -/
opaque outsideFreqToRegs (f : U32) (m : Int) : U8 × U16 × U16

/-- The REFCFG per-byte timeout of a row with bitrate 0 (R245 divides by the bitrate; log 13). -/
opaque timeoutOfRateZero : U32

end Config

end Sys2Proof
end

