-- ==== Sys2Proof/Syntax.lean ====
section
/-! DEFINITION. The instructions of PRLINK: one constructor per row of spec/opcode_table.json.
The eleven Format H rows are host commands (spec/30_encoding.md R93), the nine Format S rows are
status-word events (R101). -/

namespace Sys2Proof

/-- One constructor per row of the opcode table. `hnd` is the device instance: for a command the frame's
HND field (R97), for an event the instance whose chip raised the interrupt (spec/60_exceptions.md R293).
Operand words a command ignores (R92) are no part of it. -/
inductive Instr where
  /-- OPC 0x01 (spec/43_bridge_api.md R204). -/
  | init (hnd : U8)
  /-- OPC 0x02: A = packet, B = timeoutMs (R210). -/
  | send (hnd : U8) (packet : U32) (timeoutMs : U32)
  /-- OPC 0x03: A = timeoutMs (R213). -/
  | receive (hnd : U8) (timeoutMs : U32)
  /-- OPC 0x04 (R217). -/
  | getDeviceId (hnd : U8)
  /-- OPC 0x05 (R216). -/
  | getRssi (hnd : U8)
  /-- OPC 0x06 (R218). -/
  | getResetCount (hnd : U8)
  /-- OPC 0x10: A = bps (spec/44_phy_config.md R243). -/
  | setDatarate (hnd : U8) (bps : U32)
  /-- OPC 0x11: A = hz (R250). -/
  | setCarrier (hnd : U8) (hz : U32)
  /-- OPC 0x12 (R254). -/
  | getCarrier (hnd : U8)
  /-- OPC 0x13: level = A[7:0] (R255, R92). -/
  | setTxpower (hnd : U8) (level : U8)
  /-- OPC 0x20, supervisor port (R219). -/
  | forceReset (hnd : U8)
  /-- S[23], FIFO overflow (spec/40_link_state_machine.md R127, R131). -/
  | evFfovfl (hnd : U8)
  /-- S[22], FIFO underflow (R127, R131). -/
  | evFfunfl (hnd : U8)
  /-- S[13], TX FIFO almost empty (spec/42_tx_pipeline.md R183). -/
  | evTxffaem (hnd : U8)
  /-- S[12], RX FIFO almost full (spec/41_rx_pipeline.md R161, R162). -/
  | evRxffafull (hnd : U8)
  /-- S[10], packet sent (R184). -/
  | evPksent (hnd : U8)
  /-- S[9], packet valid (R167, R171). -/
  | evPkvalid (hnd : U8)
  /-- S[7], sync word detected (R129). -/
  | evSwdet (hnd : U8)
  /-- S[6], preamble valid (R128). -/
  | evPreaval (hnd : U8)
  /-- S[0], power-on reset observed (R124). -/
  | evPor (hnd : U8)
  deriving DecidableEq, Repr

/-- The port a command frame arrives on (spec/20_memory.md R65 a and e). -/
inductive Port where
  | command
  | supervisor
  deriving DecidableEq, Repr

/-- A command frame: three 32-bit words presented together (spec/30_encoding.md R91). -/
structure Frame where
  w0 : U32
  w1 : U32
  w2 : U32
  deriving DecidableEq, Repr

/-- An encoded object: a command frame (Format H) or a status word (Format S), R90. -/
inductive Code where
  | frame (f : Frame)
  | status (s : StatusWord)
  deriving DecidableEq, Repr

/-- Why the decoder rejects a command frame (spec/30_encoding.md R96). -/
inductive DecodeError where
  /-- RSV is not 0. -/
  | reservedBits
  /-- OPC is not in the table of R93. -/
  | unknownOpcode
  /-- the operation is not offered on this port (R93 "port", R96). -/
  | wrongPort
  deriving DecidableEq, Repr

end Sys2Proof
end

