-- ==== Sys2Proof/WellFormed.lean ====
section
/-! DEFINITION. Well-formed instructions and well-formed parameters. -/

namespace Sys2Proof

/-- The instance an instruction names. -/
def Instr.hnd : Instr → U8
  | .init h | .send h _ _ | .receive h _ | .getDeviceId h | .getRssi h | .getResetCount h
  | .setDatarate h _ | .setCarrier h _ | .getCarrier h | .setTxpower h _ | .forceReset h
  | .evFfovfl h | .evFfunfl h | .evTxffaem h | .evRxffafull h | .evPksent h | .evPkvalid h
  | .evSwdet h | .evPreaval h | .evPor h => h

/-- A word that names a buffer: `ref(k)` with `k < N_BUF`, and not the encoding of `none`
(spec/30_encoding.md R92, spec/00_scope.md R13). -/
def packetOk (p : Params) (w : U32) : Bool :=
  decide (w.toNat < p.nBuf) && decide (w ≠ 0xFFFFFFFF#32)

/-- Well-formed: the handle names an instance (R96) and a packet operand names a buffer (R92). -/
def Instr.wf (p : Params) (i : Instr) : Bool :=
  decide (i.hnd.toNat < p.nDev) &&
    match i with
    | .send _ packet _ => packetOk p packet
    | _ => true

/-- PHY_TABLE as a list (spec/10_state.md R41). -/
def Params.phyTable (p : Params) : List PhyRow := p.phyFirst :: p.phyRest

/-- Exactly one bit set (WHITEN_MASK, spec/00_scope.md R9). -/
def oneBit (b : U8) : Bool := (List.range 8).any fun k => b == 1#8 <<< k

/-- The constraints R9 puts on the parameters that are numbers and tables. `nBuf` stays below the encoding of
`none` (R13) and `nDev` within the eight HND bits (R91). -/
def Params.wf (p : Params) : Bool :=
  decide (1 ≤ p.rxWm) && decide (p.rxWm ≤ Config.fifoCap) &&
  decide (p.txLoWm ≤ Config.fifoCap - 2) &&
  decide (1 ≤ p.nDev) && decide (p.nDev ≤ 256) &&
  decide (2 ≤ p.nBuf) && decide (p.nBuf ≤ 0xFFFFFFFF) &&
  decide (p.phyTable.Pairwise fun a b => a.bitrate < b.bitrate) &&
  p.phyTable.any (fun r => r.bitrate == 9600#32 && r.ifFilter == 0x3B#8) &&
  p.phyTable.all (fun r => r.crOsr.length == p.nCr) &&
  oneBit p.whitenMask &&
  decide (p.txpowEnum.length = Config.txpowerLevels) && decide p.txpowEnum.Nodup &&
  decide (p.freqLoLimit ≤ p.freqHiLimit) &&
  decide (1 ≤ p.afcW) && decide (p.afcW ≤ 16) &&
  decide ([p.chipVal.opIdle, p.chipVal.opRxOn, p.chipVal.opTxOn, p.chipVal.opSwReset].Nodup)

end Sys2Proof
end

