-- ==== Sys2Proof/Machine/Convert.lean ====
section
/-! DEFINITION. The conversion functions of PRLINK: the function-valued parameters of spec/00_scope.md R9 with their
REFCFG formulas, the row search and the clamp (spec/44_phy_config.md), the AFC reading (spec/41_rx_pipeline.md). -/

namespace Sys2Proof.Machine

/-! ## Chip addresses -/

/-- A numbering of the chip registers with the three status registers adjacent (DESIGN CHOICE, log 3: R9 leaves REGADDR
uninterpreted). R_CR_OSR[k] lies after all others. -/
def regNumber : ChipReg → Nat
  | .devtype => 0 | .devver => 1 | .devstat => 2 | .is1 => 3 | .is2 => 4 | .ien1 => 5 | .ien2 => 6
  | .opmode => 7 | .fifoctl => 8 | .xtalcap => 9 | .ifbw => 10 | .afcGear => 11 | .crGear => 12
  | .afcLimit => 13 | .txdr1 => 14 | .txdr0 => 15 | .modctl1 => 16 | .fdev => 17 | .modctl2 => 18
  | .datactl => 19 | .hdrctl => 20 | .preamlen => 21 | .preath => 22
  | .sync3 => 23 | .sync2 => 24 | .sync1 => 25 | .sync0 => 26
  | .txhdr3 => 27 | .txhdr2 => 28 | .txhdr1 => 29 | .txhdr0 => 30 | .txlen => 31
  | .chkhdr3 => 32 | .chkhdr2 => 33 | .chkhdr1 => 34 | .chkhdr0 => 35
  | .hdren3 => 36 | .hdren2 => 37 | .hdren1 => 38 | .hdren0 => 39
  | .rxlen => 40 | .rssi => 41 | .afc => 42 | .rxffAfull => 43 | .txffAem => 44 | .txpower => 45
  | .bandsel => 46 | .carrier1 => 47 | .carrier0 => 48 | .fifo => 49
  | .crOsr k => 50 + k

/-- REGADDR (R9, spec/10_state.md R40). That an address is a natural number without a width is the model's choice: the spec
gives none (spec/20_memory.md R61; log 30). -/
def regAddr (p : Params) (r : ChipReg) : Nat :=
  match p.regAddr with
  | .refcfg => regNumber r
  | .other n => Config.otherRegAddr n r

/-- What R40 asks of REGADDR: injective, and the three status registers adjacent. -/
def RegAddrLaw (p : Params) : Prop :=
  (∀ r r', regAddr p r = regAddr p r' → r = r') ∧
    regAddr p .is1 = regAddr p .devstat + 1 ∧ regAddr p .is2 = regAddr p .devstat + 2

/-! ## RSSI and AFC -/

/-- RSSI_CONV (spec/41_rx_pipeline.md R165): REFCFG `(r >> 1) - 122`, signed 8 bits. -/
def rssiConv (p : Params) (r : U8) : U8 :=
  match p.rssiConv with
  | .refcfg => BitVec.ofInt 8 ((r.toNat / 2 : Nat) - 122 : Int)
  | .other n => Config.otherRssiConv n r

/-- The signed ticks of an AFC reading: the two bytes, most significant first, hold AFC_W bits left-aligned (R164). -/
def afcTicks (p : Params) (a0 a1 : U8) : Int :=
  (BitVec.ofNat p.afcW ((a0 ++ a1).toNat >>> (16 - p.afcW))).toInt

/-- AFC_CONV (R166): REFCFG the low byte of `raw * step / 4` rounded toward zero. -/
def afcConv (p : Params) (raw : Int) (stepQ : U16) : U8 :=
  match p.afcConv with
  | .refcfg => BitVec.ofInt 8 (Int.tdiv (raw * stepQ.toNat) 4)
  | .other n => Config.otherAfcConv n raw stepQ

/-! ## Data rate -/

/-- ROWSEL (spec/44_phy_config.md R242): the first row whose bitrate is at least `bps`, else the last. -/
def rowsel (p : Params) (bps : U32) : Nat :=
  (p.phyTable.findIdx? fun r => decide (bps ≤ r.bitrate)).getD (p.phyTable.length - 1)

/-- PHY_TABLE[i]. -/
def phyRow (p : Params) (i : Nat) : PhyRow := p.phyTable.getD i p.phyFirst

/-- BYTE_TIMEOUT (R245): REFCFG `ceil(8000000 / bitrate)` microseconds. -/
def byteTimeout (p : Params) (bitrate : U32) : U32 :=
  match p.byteTimeout with
  | .refcfg =>
    if bitrate = 0#32 then Config.timeoutOfRateZero
    else BitVec.ofNat 32 ((8000000 + bitrate.toNat - 1) / bitrate.toNat)
  | .other n => Config.otherByteTimeout n bitrate

/-! ## Carrier frequency -/

/-- The clamp (R251). -/
def clampHz (c : U32) (lo hi : U32) : U32 :=
  let low := if c < lo then lo else c
  if hi < low then hi else low

/-- The band multiplier (R250 step 2). -/
def bandMult (p : Params) (f : U32) : Int := if Config.highBandHz ≤ f then p.highBandMult else 1

/-- The domain of the REFCFG formulas: a multiplier 1 or 2 and a band number of five bits (R253). -/
def inBandDomain (f : U32) (m : Int) : Bool :=
  (m == 1 || m == 2) && decide (24 ≤ f.toNat / (10000000 * m)) && decide (f.toNat / (10000000 * m) < 56)

/-- FREQ_TO_REGS (R252, R253): band byte, channel, step in quarter hertz. -/
def freqToRegs (p : Params) (f : U32) (m : Int) : U8 × U16 × U16 :=
  match p.freqConv with
  | .refcfg =>
    if inBandDomain f m then
      let fb := f.toNat / (10000000 * m) - 24
      let rem := f.toNat % (10000000 * m)
      (0x40#8 ||| (if m = 2 then 0x20#8 else 0x00#8) ||| BitVec.ofInt 8 fb,
       BitVec.ofInt 16 (rem * 4 / (625 * m)),
       BitVec.ofInt 16 (625 * m))
    else Config.outsideFreqToRegs f m
  | .other n => Config.otherFreqToRegs n f m

/-- REGS_TO_FREQ (R252, R253). -/
def regsToFreq (p : Params) (band : U8) (chan : U16) : U32 :=
  match p.freqConv with
  | .refcfg =>
    let m := if band &&& 0x20#8 ≠ 0#8 then 2 else 1
    let fb := (band &&& 0x1F#8).toNat
    BitVec.ofNat 32 ((fb + 24) * 10000000 * m + chan.toNat * 625 * m / 4)
  | .other n => Config.otherRegsToFreq n band chan

/-- The law of the conversion pair (R252): `4 * |f - f'| <= step_q`. -/
def FreqLaw (p : Params) : Prop :=
  ∀ f : U32, p.freqLoLimit ≤ f → f ≤ p.freqHiLimit →
    let r := freqToRegs p f (bandMult p f)
    4 * ((f.toNat : Int) - (regsToFreq p r.1 r.2.1).toNat).natAbs ≤ r.2.2.toNat

/-! ## Transmit power -/

/-- TXPOW_ENUM (R255, R9). -/
def txpowCode (p : Params) (l : BitVec 3) : U8 := p.txpowEnum.getD l.toNat 0#8

end Sys2Proof.Machine
end

