-- ==== Sys2Proof/Decode.lean ====
section
/-! DEFINITION. Decoder and encoder (spec/30_encoding.md). Format H: `decodeFrame`. Format S: `decodeStatus`, which
is not a one-of-N decode (R102): it gives every event present in the status word, in the order the dispatcher
tests them. The handle and operand checks of R96 and R92 need N_DEV and N_BUF and are in Machine/Operands.lean. -/

namespace Sys2Proof

/-! ## Format H -/

/-- W0[31:24] (R91). -/
def Frame.opc (f : Frame) : U8 := f.w0.extractLsb' 24 8

/-- W0[23:16] (R91). -/
def Frame.hnd (f : Frame) : U8 := f.w0.extractLsb' 16 8

/-- W0[15:0] (R91). -/
def Frame.rsv (f : Frame) : U16 := f.w0.extractLsb' 0 16

/-- The operation codes of R93; an event has none. -/
def opcOf : Instr → Option U8
  | .init _ => some 0x01#8
  | .send _ _ _ => some 0x02#8
  | .receive _ _ => some 0x03#8
  | .getDeviceId _ => some 0x04#8
  | .getRssi _ => some 0x05#8
  | .getResetCount _ => some 0x06#8
  | .setDatarate _ _ => some 0x10#8
  | .setCarrier _ _ => some 0x11#8
  | .getCarrier _ => some 0x12#8
  | .setTxpower _ _ => some 0x13#8
  | .forceReset _ => some 0x20#8
  | .evFfovfl _ | .evFfunfl _ | .evTxffaem _ | .evRxffafull _ | .evPksent _ | .evPkvalid _
  | .evSwdet _ | .evPreaval _ | .evPor _ => none

/-- The operation a frame's OPC selects, with its operands taken whole from W1 and W2 (R92, R93). -/
def selectOperation (f : Frame) : Option Instr :=
  if f.opc = 0x01#8 then some (.init f.hnd)
  else if f.opc = 0x02#8 then some (.send f.hnd f.w1 f.w2)
  else if f.opc = 0x03#8 then some (.receive f.hnd f.w1)
  else if f.opc = 0x04#8 then some (.getDeviceId f.hnd)
  else if f.opc = 0x05#8 then some (.getRssi f.hnd)
  else if f.opc = 0x06#8 then some (.getResetCount f.hnd)
  else if f.opc = 0x10#8 then some (.setDatarate f.hnd f.w1)
  else if f.opc = 0x11#8 then some (.setCarrier f.hnd f.w1)
  else if f.opc = 0x12#8 then some (.getCarrier f.hnd)
  else if f.opc = 0x13#8 then some (.setTxpower f.hnd (f.w1.extractLsb' 0 8))
  else if f.opc = 0x20#8 then some (.forceReset f.hnd)
  else none

/-- The port that offers an operation: FORCE_RESET on the supervisor port, every other on the command port (R93, R96;
that the supervisor port offers no other is log 9). -/
def portOf : Instr → Port
  | .forceReset _ => .supervisor
  | _ => .command

/-- Decoding of a command frame presented on a port, in the order of R96: RSV, then OPC and its port. -/
def decodeFrame (port : Port) (f : Frame) : Except DecodeError Instr :=
  if f.rsv ≠ 0#16 then .error .reservedBits
  else match selectOperation f with
    | none => .error .unknownOpcode
    | some i => if portOf i = port then .ok i else .error .wrongPort

/-! ## Format S: the flag positions of R101, as constants and not as parameters (the model's choice, log 27) -/

/-- S[0]: power-on reset observed (R101). -/
abbrev bitPor : Nat := 0
abbrev bitPreaval : Nat := 6
abbrev bitSwdet : Nat := 7
abbrev bitPkvalid : Nat := 9
abbrev bitPksent : Nat := 10
abbrev bitRxffafull : Nat := 12
abbrev bitTxffaem : Nat := 13
abbrev bitFfunfl : Nat := 22
abbrev bitFfovfl : Nat := 23

/-- The events that follow the power-on-reset test, in the order the dispatcher tests them: FIFO faults first; in
receive preamble, sync, almost-full, packet valid (spec/40_link_state_machine.md R126); in transmit almost-empty,
packet sent (R130). An event not honoured in the mode it meets has no effect, so one order serves both. -/
def orderedEvents (hnd : U8) : List (Nat × Instr) :=
  [(bitFfovfl, .evFfovfl hnd), (bitFfunfl, .evFfunfl hnd),
   (bitPreaval, .evPreaval hnd), (bitSwdet, .evSwdet hnd),
   (bitRxffafull, .evRxffafull hnd), (bitTxffaem, .evTxffaem hnd),
   (bitPkvalid, .evPkvalid hnd), (bitPksent, .evPksent hnd)]

/-- The events present in a status word read by instance `hnd`, in the order they fire (R102); power-on reset is
tested first and is alone (R124, spec/60_exceptions.md R283 b). -/
def decodeStatus (hnd : U8) (s : StatusWord) : List Instr :=
  if s.getLsbD bitPor then [.evPor hnd]
  else (orderedEvents hnd).filterMap fun e => if s.getLsbD e.1 then some e.2 else none

/-! ## Both formats -/

/-- The instruction a code stands for: a frame on its port, or the first event of a status word read by instance
`line`. -/
def decode (port : Port) (line : U8) : Code → Option Instr
  | .frame f => (decodeFrame port f).toOption
  | .status s => (decodeStatus line s).head?

/-! ## The encoder -/

/-- W0 of an operation: OPC, HND, RSV = 0 (R91). -/
def word0 (opc hnd : U8) : U32 := opc ++ hnd ++ 0#16

/-- The code of an instruction: its frame, with ignored operand words 0, or the status word with its one flag set. -/
def encode : Instr → Code
  | .init h => .frame ⟨word0 0x01#8 h, 0#32, 0#32⟩
  | .send h packet t => .frame ⟨word0 0x02#8 h, packet, t⟩
  | .receive h t => .frame ⟨word0 0x03#8 h, t, 0#32⟩
  | .getDeviceId h => .frame ⟨word0 0x04#8 h, 0#32, 0#32⟩
  | .getRssi h => .frame ⟨word0 0x05#8 h, 0#32, 0#32⟩
  | .getResetCount h => .frame ⟨word0 0x06#8 h, 0#32, 0#32⟩
  | .setDatarate h bps => .frame ⟨word0 0x10#8 h, bps, 0#32⟩
  | .setCarrier h hz => .frame ⟨word0 0x11#8 h, hz, 0#32⟩
  | .getCarrier h => .frame ⟨word0 0x12#8 h, 0#32, 0#32⟩
  | .setTxpower h level => .frame ⟨word0 0x13#8 h, 0#24 ++ level, 0#32⟩
  | .forceReset h => .frame ⟨word0 0x20#8 h, 0#32, 0#32⟩
  | .evFfovfl _ => .status 0x800000#24
  | .evFfunfl _ => .status 0x400000#24
  | .evTxffaem _ => .status 0x002000#24
  | .evRxffafull _ => .status 0x001000#24
  | .evPksent _ => .status 0x000400#24
  | .evPkvalid _ => .status 0x000200#24
  | .evSwdet _ => .status 0x000080#24
  | .evPreaval _ => .status 0x000040#24
  | .evPor _ => .status 0x000001#24

/-! ## The opcode table's words -/

/-- The code laid out from a table word: up to 24 bits are a status word (Format S), more are the words W0, W1, W2 of a
command frame, W0 in bits 31:0, W1 in bits 63:32, W2 in bits 95:64 (Format H). -/
def codeOfWord (nbits w : Nat) : Code :=
  if nbits ≤ 24 then .status (BitVec.ofNat 24 w)
  else .frame ⟨BitVec.ofNat 32 w, BitVec.ofNat 32 (w / 2 ^ 32), BitVec.ofNat 32 (w / 2 ^ 64)⟩

/-- The port a table word is presented on: the table gives OPC 0x20 the supervisor port (R93). -/
def portOfWord (w : Nat) : Port :=
  if BitVec.ofNat 8 (w / 2 ^ 24) = 0x20#8 then .supervisor else .command

/-- The instruction the decoder reads from a table word; a status word is read by instance 0. -/
def decodeTableWord (nbits w : Nat) : Option Instr :=
  decode (portOfWord w) 0#8 (codeOfWord nbits w)

end Sys2Proof
end

