-- ==== Sys2Proof/Machine/RefCfg.lean ====
section
/-! DEFINITION. REFCFG, the reference configuration (spec/00_scope.md R9, spec/44_phy_config.md R246). The
uninterpreted constants of R9 (SYNC_WORD, CHIPVAL) stand here with placeholder values (log 3). -/

namespace Sys2Proof.Machine

/-- Row 0 of the TEST table (R246). -/
def testRow0 : PhyRow :=
  { bitrate := 2000#32, ifFilter := 0x10#8, afcGear := 0x11#8, crGear := 0x12#8
    crOsr := [0x13#8, 0x14#8, 0x15#8, 0x16#8, 0x17#8, 0x18#8]
    afcLimiter := 0x19#8, txRate := 0x1A1B#16, modCtl := 0x2C#8, fdev := 0x1D#8 }

/-- Row 1 of the TEST table: the 9600 row with IF filter byte 0x3B. -/
def testRow1 : PhyRow :=
  { bitrate := 9600#32, ifFilter := 0x3B#8, afcGear := 0x21#8, crGear := 0x22#8
    crOsr := [0x23#8, 0x24#8, 0x25#8, 0x26#8, 0x27#8, 0x28#8]
    afcLimiter := 0x29#8, txRate := 0x2A2B#16, modCtl := 0x2C#8, fdev := 0x2D#8 }

/-- Row 2 of the TEST table. -/
def testRow2 : PhyRow :=
  { bitrate := 57600#32, ifFilter := 0x30#8, afcGear := 0x31#8, crGear := 0x32#8
    crOsr := [0x33#8, 0x34#8, 0x35#8, 0x36#8, 0x37#8, 0x38#8]
    afcLimiter := 0x39#8, txRate := 0x3A3B#16, modCtl := 0x0D#8, fdev := 0x3D#8 }

/-- DESIGN CHOICE, log 3: CHIPVAL is uninterpreted in R9; these placeholders are distinct per register. -/
def placeholderChipVal : ChipVal :=
  { opIdle := 0x01#8, opRxOn := 0x02#8, opTxOn := 0x03#8, opSwReset := 0x04#8, ffclrBoth := 0x05#8
    modctl2Fifo := 0x06#8, datactlPkt := 0x07#8, hdrctl4bBcast := 0x08#8 }

/-- The column REFCFG of R9. -/
def refcfg : Params :=
  { rxWm := 32, txLoWm := 2, nDev := 1, nBuf := 4, syncWord := 0#32
    phyFirst := testRow0, phyRest := [testRow1, testRow2], nCr := 6
    whitenMask := 0x01#8
    txpowEnum := [0#8, 1#8, 2#8, 3#8, 4#8, 5#8, 6#8, 7#8]
    expectDevType := 0x08#8, expectDevVer := 0x06#8
    freqLoLimit := 240000000#32, freqHiLimit := 930000000#32, highBandMult := 2
    freqConv := .refcfg, rssiConv := .refcfg, afcW := 10, afcConv := .refcfg
    byteTimeout := .refcfg, regAddr := .refcfg, chipVal := placeholderChipVal }

end Sys2Proof.Machine
end

