-- ==== Sys2Proof/Machine/State.lean ====
section
/-! DEFINITION. The state of PRLINK as plain data (spec/10_state.md): one Device Context per instance, the packet
buffers, the ports, and the environment's part (what the outside world does next, what the chip answers). -/

namespace Sys2Proof.Machine

/-- BUF memory: cells `(address, byte)` at strictly rising addresses (Machine/Ops.lean, `Memory.wf`). -/
abbrev Memory := List Host.Cell

/-- The configuration input of the settings port (spec/43_bridge_api.md R205). -/
structure Settings where
  minFreq : U32
  maxFreq : U32
  bitrate : U32
  centerFreq : U32
  maxPower : U8
  xtalCap : U8
  deriving DecidableEq, Repr

/-- `cfg` (spec/10_state.md R31). -/
structure Cfg where
  minFreq : U32
  maxFreq : U32
  bitrate : U32
  centerFreq : U32
  maxPower : U8
  xtalCap : U8
  deviceId : U32
  deriving DecidableEq, Repr

/-- `phy` (R32). -/
structure Phy where
  row : Nat
  band : U8
  chan : U16
  carrier : U32
  /-- the step in quarter hertz -/
  freqStepQ : U16
  txpow : BitVec 3
  byteTimeout : U32
  deriving DecidableEq, Repr

/-- One transfer on the bus of an instance, with the bytes moved (spec/20_memory.md R66 to R69). -/
inductive BusOp where
  | read (r : ChipReg) (v : U8)
  | write (r : ChipReg) (v : U8)
  | burstRead (r : ChipReg) (bytes : List U8)
  | burstWrite (r : ChipReg) (bytes : List U8)
  deriving DecidableEq, Repr

/-- One unit of a PHY procedure (spec/44_phy_config.md R243, R250, R255): a register write on the bus, or a write of
`phy` registers. -/
inductive PhyOp where
  | transfer (r : ChipReg) (v : U8)
  | setRow (i : Nat)
  | setByteTimeout (t : U32)
  | setCarrier (band : U8) (chan : U16) (carrier : U32) (stepQ : U16)
  | setTxpow (l : BitVec 3)
  deriving DecidableEq, Repr

/-- A SET_DATARATE, SET_CARRIER or SET_TXPOWER command in progress: what is left to do, and its answer
(spec/20_memory.md R80: these commands are not atomic). -/
structure PhyJob where
  opc : U8
  hnd : U8
  value : U32
  ops : List PhyOp
  deriving DecidableEq, Repr

/-- One Device Context (spec/10_state.md R20), and, after `phyJobs`, the environment's part of the instance. -/
structure Context where
  /-- R21; values 8 to 15 are unrecognised -/
  mode : BitVec 4
  initialized : Bool
  txq : Option Nat
  txPkt : Option Nat
  txRd : Cursor
  txWr : Cursor
  txSuccess : Bool
  sendWait : Bool
  recvWait : Bool
  sendTimer : U32
  recvTimer : U32
  rxActive : Option Nat
  rxNext : Option Nat
  rxCompleted : Option Nat
  rxWr : Cursor
  /-- signed dBm, two's complement (R29) -/
  latRssi : U8
  latAfc : U8
  rssiLast : U8
  resetCount : U16
  errorCount : U32
  supervisorCounter : U32
  cfg : Cfg
  phy : Phy
  stDev : U8
  stIs1 : U8
  stIs2 : U8
  ien1 : U8
  ien2 : U8
  sigLink : Bool
  sigTxdone : Bool
  txtimeoutReq : Bool
  /-- implied by spec/43_bridge_api.md R210, R211: the packet of the outstanding SEND (log 12) -/
  sendPkt : Option Nat
  /-- implied by R80: PHY commands preempted between two transfers (log 8) -/
  phyJobs : List PhyJob
  /-- environment: what the chip answers to the next bytes read (log 4) -/
  answers : List U8
  /-- environment: how many bytes were answered by the free value `Config.chipByte` -/
  reads : Nat
  /-- environment: after how many units the next PHY runs are preempted (log 8) -/
  preempts : List Nat
  /-- what this instance did on its bus, oldest first (log 14) -/
  bus : List BusOp
  deriving DecidableEq, Repr

/-- A field of a packet buffer and a byte of it (R42). -/
inductive BufField where
  | hdr (i : Fin 4)
  | len
  | data (i : Fin 257)
  deriving DecidableEq, Repr

/-- What the supervisor port may read (spec/60_exceptions.md R287 b and c). -/
inductive SupReg where
  | supervisorCounter | resetCount | errorCount | byteTimeout | mode | initialized
  deriving DecidableEq, Repr

/-- An agent of an instance that takes atomic units of its own (spec/00_scope.md R15): the SEND caller and the sequencer
at the end of their waits, the dispatcher started by `txtimeout_req` (spec/40_link_state_machine.md R136), and the
`j`-th preempted PHY command. -/
inductive Agent where
  | send
  | receive
  | dispatcher
  | phy (j : Nat)
  deriving DecidableEq, Repr

/-- What happens next from outside, in order (spec/20_memory.md R65, R79, R80; log 7). -/
inductive Input where
  /-- a frame on the command port -/
  | command (f : Frame)
  /-- a frame on the supervisor port -/
  | supervisor (f : Frame)
  /-- the chip of instance `hnd` raises `irq`; its status burst answers these bytes (R77) -/
  | irq (hnd : U8) (dev is1 is2 : U8)
  /-- a pulse of the millisecond tick -/
  | tick
  /-- it is the turn of PRLINK's own agent `a` of instance `hnd` -/
  | resume (hnd : U8) (a : Agent)
  /-- the supervisor reads a register -/
  | supRead (hnd : U8) (r : SupReg)
  /-- the supervisor writes `supervisor_counter` -/
  | supWrite (hnd : U8) (v : U32)
  /-- the settings store now presents this record -/
  | settings (r : Settings)
  /-- the host stores a byte in buffer `k` (spec/20_memory.md R84) -/
  | bufStore (k : Nat) (f : BufField) (v : U8)
  /-- the host takes buffer `k` from the pool -/
  | poolTake (k : Nat)
  /-- the host returns buffer `k` to the pool (spec/70_reset_and_hazards.md R314) -/
  | poolReturn (k : Nat)
  deriving DecidableEq, Repr

/-- What PRLINK puts out on its host side. -/
inductive Output where
  /-- a response frame RW0, RW1 (spec/30_encoding.md R94) -/
  | response (rw0 rw1 : U32)
  /-- the answer to a supervisor read -/
  | supervisor (v : U32)
  deriving DecidableEq, Repr

/-- The state of the machine. -/
structure State where
  /-- the parameters of R9; no step writes them (log 1) -/
  params : Params
  /-- the Device Contexts, instance 0 first (R20) -/
  devs : List Context
  /-- the BUF space (R62) -/
  buf : Memory
  /-- the buffers in the external pool (R86; log 6) -/
  poolFree : List Nat
  /-- environment: the pool's answers to the next PoolGet calls -/
  poolPicks : List (Option Nat)
  /-- environment: how many PoolGet calls were answered by the free value `Config.poolChoice` -/
  poolCalls : Nat
  /-- the settings port (R65 b; log 10) -/
  settings : Settings
  /-- the platform port's serial number (R65 c; log 10): a number without a width, and one for all instances, are the
  model's choice (log 29) -/
  serial : Nat
  /-- what the outside world does next (log 7) -/
  inputs : List Input
  /-- responses and supervisor data, oldest first (log 14) -/
  out : List Output
  /-- environment: how many turns were given by the free value `Config.agentChoice` -/
  turns : Nat
  deriving DecidableEq, Repr

/-- A step stops with a fault only where a rule would access BUF outside the buffers that exist. -/
inductive Fault where
  /-- raised by the drains, TAG, TXSTART, the top-up and a host store when the slot or reference they use is `none` or
  names no buffer (`k >= N_BUF`); safe: spec/10_state.md R28 rules the slots out, log 11 -/
  | noBuffer
  /-- raised by the top-up when a TX cursor reaches past BUF_CAP; safe: spec/10_state.md R24 rules it out, log 11 -/
  | bufferBounds
  deriving DecidableEq, Repr

/-- A step is refused only for an instruction without a meaning. -/
inductive Refusal where
  /-- raised by exec for an instruction that is not modelled yet; safe; no arm of exec raises it -/
  | notModelled (mnemonic : String)
  deriving DecidableEq, Repr

/-- What a step or a meaning answers. -/
abbrev Res := Host.Outcome State Fault Refusal

/-- A Device Context after hardware reset (spec/10_state.md R45). With `preempts` empty, no PHY command of a run from here is
preempted (the model's choice, log 8). -/
def Context.reset : Context :=
  { mode := 0#4, initialized := false
    txq := none, txPkt := none, txRd := 0#9, txWr := 0#9
    txSuccess := false, sendWait := false, recvWait := false, sendTimer := 0#32, recvTimer := 0#32
    rxActive := none, rxNext := none, rxCompleted := none, rxWr := 0#9
    latRssi := 0x81#8, latAfc := 0#8, rssiLast := 0x81#8
    resetCount := 0#16, errorCount := 0#32, supervisorCounter := 0#32
    cfg := { minFreq := 0#32, maxFreq := 0#32, bitrate := 0#32, centerFreq := 0#32
             maxPower := 0#8, xtalCap := 0#8, deviceId := 0#32 }
    phy := { row := 0, band := 0#8, chan := 0#16, carrier := 0#32, freqStepQ := 0#16
             txpow := 0#3, byteTimeout := 0#32 }
    stDev := 0#8, stIs1 := 0#8, stIs2 := 0#8, ien1 := 0#8, ien2 := 0#8
    sigLink := false, sigTxdone := false, txtimeoutReq := false
    sendPkt := none, phyJobs := [], answers := [], reads := 0, preempts := [], bus := [] }

/-- The settings record of the test programs (spec/95_test_vectors.md section 3); DESIGN CHOICE, log 10. -/
def Settings.reset : Settings :=
  { minFreq := 430000000#32, maxFreq := 440000000#32, bitrate := 9600#32, centerFreq := 433000000#32
    maxPower := 7#8, xtalCap := 0x7F#8 }

/-- The machine after hardware reset (spec/10_state.md R45, spec/70_reset_and_hazards.md R311), in the reference
configuration. The fields that are not registers of the spec are named in log 1, 6, 7, 10. -/
def State.reset : State :=
  { params := refcfg, devs := List.replicate refcfg.nDev Context.reset
    buf := [], poolFree := List.range refcfg.nBuf, poolPicks := [], poolCalls := 0
    settings := Settings.reset, serial := 0, inputs := [], out := [], turns := 0 }

end Sys2Proof.Machine
end

