-- ==== Sys2Proof/Machine/Flags.lean ====
section
/-! DEFINITION. Modes, status flags and interrupt-enable values (spec/30_encoding.md R101, R104, R105), and the two
signals (spec/43_bridge_api.md R201). -/

namespace Sys2Proof.Machine

/-! ## Mode values (R105) -/

abbrev rxWaitPreamble : BitVec 4 := 0#4
abbrev rxWaitSync : BitVec 4 := 1#4
abbrev rxData : BitVec 4 := 2#4
abbrev rxComplete : BitVec 4 := 3#4
abbrev rxError : BitVec 4 := 4#4
abbrev txData : BitVec 4 := 5#4
abbrev txComplete : BitVec 4 := 6#4
abbrev txError : BitVec 4 := 7#4

/-- An RX in-progress mode (spec/00_scope.md R17): 0, 1 or 2. -/
def isRxInProgress (m : BitVec 4) : Bool := m == rxWaitPreamble || m == rxWaitSync || m == rxData

/-- A mode value that no rule writes: 8 to 15 (spec/10_state.md R21). -/
def isUnrecognised (m : BitVec 4) : Bool := decide (8 ≤ m.toNat)

/-! ## The status word -/

/-- `S = {st_dev, st_is1, st_is2}` (R100). -/
def statusWord (dev is1 is2 : U8) : StatusWord := dev ++ is1 ++ is2

/-- The status word of the most recent dispatcher entry (spec/10_state.md R33). -/
def Context.status (d : Context) : StatusWord := statusWord d.stDev d.stIs1 d.stIs2

/-- PKVALID in the latched status word: `S[9]` (spec/41_rx_pipeline.md R163 b). -/
def Context.pkvalid (d : Context) : Bool := d.status.getLsbD bitPkvalid

/-! ## Interrupt-enable values (R104), as constants and not as parameters (the model's choice, log 27) -/

abbrev ienOff : U8 := 0x00#8
abbrev ien1Rx : U8 := 0x92#8
abbrev ien2Rx : U8 := 0xC1#8
abbrev ien1Tx : U8 := 0xA4#8
abbrev ien2Tx : U8 := 0x01#8

/-! ## Signals (R201): raising a raised signal leaves it raised -/

/-- `signal(sig_link)`. -/
def Context.signalLink (d : Context) : Context := { d with sigLink := true }

/-- `signal(sig_txdone)`. -/
def Context.signalTxdone (d : Context) : Context := { d with sigTxdone := true }

/-- `take(sig_link)`. -/
def Context.takeLink (d : Context) : Context := { d with sigLink := false }

/-- `take(sig_txdone)`. -/
def Context.takeTxdone (d : Context) : Context := { d with sigTxdone := false }

end Sys2Proof.Machine
end

