-- ==== Sys2Proof/Machine/Operands.lean ====
section
/-! DEFINITION. Operand and result forms (spec/30_encoding.md R92, R93, spec/00_scope.md R13). -/

namespace Sys2Proof.Machine

/-- The buffer a packet operand names: `A = k` with `k < N_BUF`; 0xFFFFFFFF and any `A >= N_BUF` name none (R92). -/
def packetOperand (p : Params) (a : U32) : Option Nat :=
  if a = 0xFFFFFFFF#32 then none else if a.toNat < p.nBuf then some a.toNat else none

/-- The word of an option value: `none` is 0xFFFFFFFF, `ref(k)` is `k` (R13). -/
def refWord : Option Nat → U32
  | none => 0xFFFFFFFF#32
  | some k => BitVec.ofNat 32 k

/-- The level a power operand gives: saturated to 7 (spec/44_phy_config.md R255). -/
def saturateLevel (level : U8) : BitVec 3 := if 7#8 < level then 7#3 else level.extractLsb' 0 3

/-- `sext_32` of a signed byte (spec/43_bridge_api.md R216). -/
def sext32 (b : U8) : U32 := b.signExtend 32

/-- `zext` of the 16-bit counter (R218). -/
def zext32 (c : U16) : U32 := c.zeroExtend 32

/-- The buffer a slot register refers to, where it is one of the N_BUF buffers (spec/10_state.md R28). -/
def slotRef (p : Params) (slot : Option Nat) : Option Nat :=
  match slot with
  | some k => if k < p.nBuf then some k else none
  | none => none

/-- The four bytes of a 32-bit value, most significant first (spec/20_memory.md R70). -/
def bytesOf32 (w : U32) : U8 × U8 × U8 × U8 :=
  (w.extractLsb' 24 8, w.extractLsb' 16 8, w.extractLsb' 8 8, w.extractLsb' 0 8)

/-- The two bytes of a 16-bit value, most significant first (R70). -/
def bytesOf16 (w : U16) : U8 × U8 := (w.extractLsb' 8 8, w.extractLsb' 0 8)

end Sys2Proof.Machine
end

