-- ==== Sys2Proof/Machine/Ops.lean ====
section
/-! DEFINITION. The named operations over the state: BUF memory, the bus, the pool, responses, the Device Contexts, and
the entry and exit of the dispatcher, which is the trap of this block (spec/60_exceptions.md R284, R285). -/

namespace Sys2Proof.Machine

/-! ## Results -/

/-- Go on with `f` from the next state; a fault or a refusal ends there. -/
def bindRes (r : Res) (f : State → Res) : Res :=
  match r with
  | .next s => f s
  | .fault e => .fault e
  | .refused e => .refused e

/-! ## BUF memory (spec/20_memory.md R62) -/

/-- What an unlisted address holds: no value. Reading it gives a free byte (spec/10_state.md R45; log 5). -/
def Memory.unlisted : Option U8 := none

/-- The byte listed at an address. -/
def Memory.get? : Memory → Nat → Option U8
  | [], _ => Memory.unlisted
  | (b, v) :: m, a => if a = b then some v else Memory.get? m a

/-- One byte read. -/
def Memory.read (m : Memory) (a : Nat) : U8 := (Memory.get? m a).getD (Config.unwrittenByte a)

/-- One byte written; the list keeps its canonical form. -/
def Memory.write : Memory → Nat → U8 → Memory
  | [], a, v => [(a, v)]
  | (b, w) :: m, a, v =>
    if a < b then (a, v) :: (b, w) :: m
    else if a = b then (a, v) :: m
    else (b, w) :: Memory.write m a v

/-- Bytes written at consecutive addresses, in order. -/
def Memory.writeList (m : Memory) (a : Nat) : List U8 → Memory
  | [] => m
  | v :: vs => Memory.writeList (Memory.write m a v) (a + 1) vs

/-- Bytes read at consecutive addresses. -/
def Memory.readList (m : Memory) (a n : Nat) : List U8 := (List.range n).map fun i => Memory.read m (a + i)

/-- The canonical form: addresses strictly rising (and no entry without a value). -/
def Memory.wf (m : Memory) : Bool :=
  decide (m.Pairwise fun x y => x.1 < y.1) && m.all fun c => some c.2 != Memory.unlisted

/-- Bytes of one packet buffer: hdr, len, data (spec/10_state.md R42). -/
abbrev bufSize : Nat := Config.hdrLen + 1 + Config.bufCap

/-- The BUF address of byte `i` of `BUF[k].hdr` (DESIGN CHOICE of numbering, log 5). -/
def hdrAddr (k i : Nat) : Nat := k * bufSize + i

/-- The BUF address of `BUF[k].len`. -/
def lenAddr (k : Nat) : Nat := k * bufSize + Config.hdrLen

/-- The BUF address of `BUF[k].data[i]`. -/
def dataAddr (k i : Nat) : Nat := k * bufSize + Config.hdrLen + 1 + i

/-- The BUF address of a field of buffer `k`. -/
def fieldAddr (k : Nat) : BufField → Nat
  | .hdr i => hdrAddr k i.val
  | .len => lenAddr k
  | .data i => dataAddr k i.val

/-! ## Device Contexts -/

/-- Replace the Device Context of instance `h`. -/
def State.setDev (s : State) (h : Nat) (d : Context) : State := { s with devs := s.devs.set h d }

/-! ## The bus (spec/20_memory.md R66 to R69) -/

/-- RegWrites, in order (R67). -/
def Context.regWrites (d : Context) (ws : List (ChipReg × U8)) : Context :=
  { d with bus := d.bus ++ ws.map fun w => BusOp.write w.1 w.2 }

/-- BurstWrite at R_FIFO (R69); a count of 0 skips the burst (R68). -/
def Context.fifoWrite (d : Context) (bytes : List U8) : Context :=
  { d with bus := d.bus ++ if bytes = [] then [] else [BusOp.burstWrite .fifo bytes] }

/-- The next `n` bytes the chip of instance `h` answers: its tape, then free bytes (R66, R74). -/
def Context.peek (d : Context) (h n : Nat) : List U8 :=
  d.answers.take n ++ (List.range (n - d.answers.length)).map fun i => Config.chipByte h (d.reads + i)

/-- The tape after `n` bytes were answered. -/
def Context.drop (d : Context) (n : Nat) : Context :=
  { d with answers := d.answers.drop n, reads := d.reads + (n - d.answers.length) }

/-- The byte a RegRead answers (R66). -/
def Context.peekByte (d : Context) (h : Nat) : U8 := (d.peek h 1).headD 0#8

/-- RegRead (R66). -/
def Context.regRead (d : Context) (h : Nat) (r : ChipReg) : Context :=
  { d with
    answers := d.answers.drop 1, reads := d.reads + (1 - d.answers.length)
    bus := d.bus ++ [BusOp.read r (d.peekByte h)] }

/-- BurstRead of `n` bytes (R68); a count of 0 skips the burst. -/
def Context.burstRead (d : Context) (h : Nat) (r : ChipReg) (n : Nat) : Context :=
  { d with
    answers := d.answers.drop n, reads := d.reads + (n - d.answers.length)
    bus := d.bus ++ if n = 0 then [] else [BusOp.burstRead r (d.peek h n)] }

/-- The addresses one transfer touches: R_FIFO is one address whatever the count, any other burst walks consecutive
addresses (R64, R68), which do not wrap, since an address has no width (log 30). -/
def BusOp.addresses (p : Params) : BusOp → List Nat
  | .read r _ => [regAddr p r]
  | .write r _ => [regAddr p r]
  | .burstRead r bytes =>
    if r = .fifo then [regAddr p r] else (List.range bytes.length).map fun i => regAddr p r + i
  | .burstWrite r bytes =>
    if r = .fifo then [regAddr p r] else (List.range bytes.length).map fun i => regAddr p r + i

/-! ## Responses (spec/30_encoding.md R94, R95) -/

/-- Status codes (R95). -/
inductive Status where
  | ok | errSilicon | errFreqRange | errNotInit | errBusy | errBadCmd | errTimeout | errTxFailed
  | errBadHandle | errNoBuffer
  deriving DecidableEq, Repr

def statusCode : Status → U8
  | .ok => 0x00#8
  | .errSilicon => 0x01#8
  | .errFreqRange => 0x02#8
  | .errNotInit => 0x03#8
  | .errBusy => 0x04#8
  | .errBadCmd => 0x05#8
  | .errTimeout => 0x06#8
  | .errTxFailed => 0x07#8
  | .errBadHandle => 0x08#8
  | .errNoBuffer => 0x09#8

/-- The response frame of R94: RW0 = OPC, HND, STATUS, 0; RW1 = VALUE. -/
def responseFrame (opc hnd : U8) (st : Status) (value : U32) : Output :=
  .response (opc ++ hnd ++ statusCode st ++ 0#8) value

/-- `respond(status, value)` to a command with this OPC and HND. -/
def State.respond (s : State) (opc hnd : U8) (st : Status) (value : U32) : State :=
  { s with out := s.out ++ [responseFrame opc hnd st value] }

/-! ## The pool (spec/20_memory.md R86; log 6) -/

/-- The pool's answer to the next PoolGet: scripted, or free. -/
def State.poolPick (s : State) : Option Nat :=
  match s.poolPicks with
  | pick :: _ => pick
  | [] => Config.poolChoice s.poolCalls

/-- `PoolGet()`'s answer: `none`, or one of the free buffers. -/
def State.poolAnswer (s : State) : Option Nat :=
  match s.poolPick with
  | none => none
  | some i => s.poolFree[i % s.poolFree.length]?

/-- The pool after PoolGet. -/
def State.poolTaken (s : State) : State :=
  { s with
    poolPicks := s.poolPicks.drop 1
    poolCalls := if s.poolPicks = [] then s.poolCalls + 1 else s.poolCalls
    poolFree := match s.poolAnswer with
      | some k => s.poolFree.erase k
      | none => s.poolFree }

/-- A buffer put among the free ones, in rising order. -/
def insertBuffer (k : Nat) : List Nat → List Nat
  | [] => [k]
  | j :: js => if k < j then k :: j :: js else j :: insertBuffer k js

/-- `PoolRelease(ref(k))`. -/
def State.poolRelease (s : State) (k : Nat) : State := { s with poolFree := insertBuffer k s.poolFree }

/-! ## Entering and leaving the dispatcher (spec/60_exceptions.md R284, R285) -/

/-- Entry: one status burst at R_DEVSTAT, whose bytes go to the three latches (spec/40_link_state_machine.md R123);
nothing is saved and no mode register is switched (R284). -/
def Context.enterDispatcher (d : Context) (dev is1 is2 : U8) : Context :=
  { d with
    stDev := dev, stIs1 := is1, stIs2 := is2
    bus := d.bus ++ [BusOp.burstRead .devstat [dev, is1, is2]] }

/-- Exit: nothing is restored and nothing re-enabled (R285). -/
def leaveDispatcher (s : State) : Res := .next s

end Sys2Proof.Machine
end

