-- ==== Sys2Proof/Machine/Link.lean ====
section
/-! DEFINITION. The Link State Machine (spec/40_link_state_machine.md): FIFO_CLEAR, RXARM, RXFAIL, TXFAIL, LATCH, and
the events that only change `mode`: EV_FFOVFL, EV_FFUNFL, EV_PREAVAL, EV_SWDET, EV_POR.

An event's meaning is its rule, given by mode in the opcode table. On an uninitialised device it is ignored (R142); in a
mode its row does not list it is ignored (R102). -/

namespace Sys2Proof.Machine

/-! ## Procedures -/

/-- FIFO_CLEAR (R141). -/
def fifoClearWrites (p : Params) : List (ChipReg × U8) :=
  [(.fifoctl, p.chipVal.ffclrBoth), (.fifoctl, 0x00#8)]

/-- The eight register writes of RXARM (R140). -/
def rxarmWrites (p : Params) : List (ChipReg × U8) :=
  [(.ien1, ienOff), (.ien2, ienOff), (.opmode, p.chipVal.opIdle)] ++ fifoClearWrites p ++
    [(.ien1, ien1Rx), (.ien2, ien2Rx), (.opmode, p.chipVal.opRxOn)]

/-- RXARM (R140): the chip in receive-wait, `rx_wr` 0, `mode` RX_WAIT_PREAMBLE. -/
def rxarm (p : Params) (d : Context) : Context :=
  { d.regWrites (rxarmWrites p) with
    ien1 := ien1Rx, ien2 := ien2Rx, rxWr := 0#9, mode := rxWaitPreamble }

/-- RXFAIL (spec/41_rx_pipeline.md R172). -/
def rxfail (d : Context) : Context :=
  { d with errorCount := d.errorCount + 1#32, mode := rxError }.signalLink

/-- TXFAIL (spec/42_tx_pipeline.md R185). -/
def txfail (d : Context) : Context := { d with mode := txError }.signalLink

/-- LATCH (spec/41_rx_pipeline.md R164): AFC burst, then RSSI read. -/
def latch (p : Params) (h : Nat) (d : Context) : Context :=
  let a := d.peek h 2
  let d1 := d.burstRead h .afc 2
  let r := d1.peekByte h
  let d2 := d1.regRead h .rssi
  { d2 with
    latAfc := afcConv p (afcTicks p (a.getD 0 0#8) (a.getD 1 0#8)) d.phy.freqStepQ
    latRssi := rssiConv p r }

/-! ## Events -/

/-- An event of instance `hnd`: ignored where there is no such instance (log 15) or it is
uninitialised (R142). -/
def onEvent (hnd : U8) (s : State) (rule : Nat → Context → Res) : Res :=
  match s.devs[hnd.toNat]? with
  | none => .next s
  | some d => if d.initialized then rule hnd.toNat d else .next s

/-- A FIFO fault (spec/30_encoding.md R101, FIFO_FAULT): RXFAIL in the RX in-progress modes (R127), TXFAIL in TX_DATA
(R131), nothing in any other mode (R132). -/
def fifoFault (d : Context) : Context :=
  if isRxInProgress d.mode then rxfail d else if d.mode = txData then txfail d else d

/-- EV_FFOVFL (R127, R131). -/
def execEvFfovfl (hnd : U8) (s : State) : Res :=
  onEvent hnd s fun h d => .next (s.setDev h (fifoFault d))

/-- EV_FFUNFL (R127, R131). -/
def execEvFfunfl (hnd : U8) (s : State) : Res :=
  onEvent hnd s fun h d => .next (s.setDev h (fifoFault d))

/-- EV_PREAVAL (R128): honoured in mode 0 only. -/
def execEvPreaval (hnd : U8) (s : State) : Res :=
  onEvent hnd s fun h d =>
    .next (if d.mode = rxWaitPreamble then s.setDev h { d with mode := rxWaitSync } else s)

/-- EV_SWDET (R129): honoured in mode 1 only; latches AFC and RSSI. -/
def execEvSwdet (hnd : U8) (s : State) : Res :=
  onEvent hnd s fun h d =>
    .next (if d.mode = rxWaitSync then s.setDev h { latch s.params h d with mode := rxData } else s)

/-- EV_POR (R124): honoured in every mode; the device is marked uninitialised and nothing else changes but
`txtimeout_req`. -/
def execEvPor (hnd : U8) (s : State) : Res :=
  onEvent hnd s fun h d => .next (s.setDev h { d with initialized := false, txtimeoutReq := false })

end Sys2Proof.Machine
end

