-- ==== Sys2Proof/Machine/Phy.lean ====
section
/-! DEFINITION. PHY configuration (spec/44_phy_config.md): DATARATE, CARRIER, TXPOWER as lists of units, and the four
commands. BRINGUP runs the units at once (spec/20_memory.md R80 d); a command runs them up to the point where the
environment preempts it, and its rest is then a job of the instance (R80, spec/70_reset_and_hazards.md R327). -/

namespace Sys2Proof.Machine

/-! ## Units -/

/-- One unit: a register write on the bus, or a write of `phy`. -/
def applyPhyOp (d : Context) : PhyOp → Context
  | .transfer r v => d.regWrites [(r, v)]
  | .setRow i => { d with phy := { d.phy with row := i } }
  | .setByteTimeout t => { d with phy := { d.phy with byteTimeout := t } }
  | .setCarrier band chan carrier stepQ =>
    { d with phy := { d.phy with band := band, chan := chan, carrier := carrier, freqStepQ := stepQ } }
  | .setTxpow l => { d with phy := { d.phy with txpow := l } }

/-- Units in order. -/
def applyPhyOps (d : Context) (ops : List PhyOp) : Context := ops.foldl applyPhyOp d

/-! ## The three procedures -/

/-- APPLY_ROW (R244): every field of the row, in the order of R244, the whitening bit ORed in. -/
def applyRowOps (p : Params) (r : PhyRow) : List PhyOp :=
  [.transfer .ifbw r.ifFilter, .transfer .afcGear r.afcGear, .transfer .crGear r.crGear] ++
  (r.crOsr.zipIdx.map fun c => .transfer (.crOsr c.2) c.1) ++
  [.transfer .afcLimit r.afcLimiter,
   .transfer .txdr1 (bytesOf16 r.txRate).1, .transfer .txdr0 (bytesOf16 r.txRate).2,
   .transfer .modctl1 (r.modCtl ||| p.whitenMask), .transfer .fdev r.fdev]

/-- The bitrate DATARATE returns (R243 step 5). -/
def datarateValue (p : Params) (bps : U32) : U32 := (phyRow p (rowsel p bps)).bitrate

/-- DATARATE (R243). -/
def datarateOps (p : Params) (bps : U32) : List PhyOp :=
  applyRowOps p (phyRow p (rowsel p bps)) ++
    [.setRow (rowsel p bps), .setByteTimeout (byteTimeout p (datarateValue p bps))]

/-- The clamped frequency CARRIER returns (R250, R251). -/
def carrierValue (cfg : Cfg) (hz : U32) : U32 := clampHz hz cfg.minFreq cfg.maxFreq

/-- CARRIER (R250). -/
def carrierOps (p : Params) (cfg : Cfg) (hz : U32) : List PhyOp :=
  let f := carrierValue cfg hz
  let r := freqToRegs p f (bandMult p f)
  [.transfer .bandsel r.1, .transfer .carrier1 (bytesOf16 r.2.1).1, .transfer .carrier0 (bytesOf16 r.2.1).2,
   .setCarrier r.1 r.2.1 f r.2.2]

/-- TXPOWER (R255). -/
def txpowerOps (p : Params) (level : U8) : List PhyOp :=
  [.transfer .txpower (txpowCode p (saturateLevel level)), .setTxpow (saturateLevel level)]

/-! ## Running a command's units -/

/-- Run a PHY command, or what is left of it: to the end and its answer, unless the environment preempts it before
(`preempts`: how many units until then). Where `preempts` is empty it is not preempted (log 8). -/
def runPhy (h : Nat) (job : PhyJob) (d : Context) (s : State) : State :=
  match d.preempts with
  | [] => (s.setDev h (applyPhyOps d job.ops)).respond job.opc job.hnd .ok job.value
  | n :: rest =>
    if job.ops.length ≤ n then
      (s.setDev h (applyPhyOps { d with preempts := rest } job.ops)).respond job.opc job.hnd .ok job.value
    else
      let d1 := applyPhyOps { d with preempts := rest } (job.ops.take n)
      s.setDev h { d1 with phyJobs := d1.phyJobs ++ [{ job with ops := job.ops.drop n }] }

/-- The `j`-th preempted PHY command goes on. -/
def resumePhy (h j : Nat) (d : Context) (s : State) : State :=
  match d.phyJobs[j]? with
  | none => s
  | some job => runPhy h job { d with phyJobs := d.phyJobs.eraseIdx j } s

/-! ## Commands -/

/-- A command to an instance: where there is none, ERR_BAD_HANDLE and no change (spec/30_encoding.md R96). -/
def onCommand (opc hnd : U8) (s : State) (rule : Nat → Context → Res) : Res :=
  match s.devs[hnd.toNat]? with
  | none => .next (s.respond opc hnd .errBadHandle 0#32)
  | some d => rule hnd.toNat d

/-- SET_DATARATE (R243). -/
def execSetDatarate (hnd : U8) (bps : U32) (s : State) : Res :=
  onCommand 0x10#8 hnd s fun h d =>
    .next (if d.initialized then
      runPhy h ⟨0x10#8, hnd, datarateValue s.params bps, datarateOps s.params bps⟩ d s
    else s.respond 0x10#8 hnd .errNotInit 0#32)

/-- SET_CARRIER (R250). -/
def execSetCarrier (hnd : U8) (hz : U32) (s : State) : Res :=
  onCommand 0x11#8 hnd s fun h d =>
    .next (if d.initialized then
      runPhy h ⟨0x11#8, hnd, carrierValue d.cfg hz, carrierOps s.params d.cfg hz⟩ d s
    else s.respond 0x11#8 hnd .errNotInit 0#32)

/-- GET_CARRIER (R254): recomputed from the register values; answers in any state. -/
def execGetCarrier (hnd : U8) (s : State) : Res :=
  onCommand 0x12#8 hnd s fun _ d =>
    .next (s.respond 0x12#8 hnd .ok (regsToFreq s.params d.phy.band d.phy.chan))

/-- SET_TXPOWER (R255). -/
def execSetTxpower (hnd : U8) (level : U8) (s : State) : Res :=
  onCommand 0x13#8 hnd s fun h d =>
    .next (if d.initialized then
      runPhy h ⟨0x13#8, hnd, (saturateLevel level).zeroExtend 32, txpowerOps s.params level⟩ d s
    else s.respond 0x13#8 hnd .errNotInit 0#32)

end Sys2Proof.Machine
end

