-- ==== Sys2Proof/Machine/Bringup.lean ====
section
/-! DEFINITION. Bring-up, INIT and FORCE_RESET (spec/43_bridge_api.md R204 to R209, R219). -/

namespace Sys2Proof.Machine

/-- FREQ_RANGE_OK (R208). -/
def freqRangeOk (p : Params) (c : Cfg) : Bool :=
  decide (p.freqLoLimit ≤ c.minFreq) && decide (c.minFreq ≤ c.maxFreq) && decide (c.maxFreq ≤ p.freqHiLimit)

/-- R206 steps 1 to 3: uninitialised, chip software reset, stale flags read and discarded (`st_*` not written). -/
def bringupReset (p : Params) (h : Nat) (d : Context) : Context :=
  ({ d with initialized := false }.regWrites [(.opmode, p.chipVal.opSwReset)]).burstRead h .devstat 3

/-- R206 step 4, the two identity reads: R_DEVTYPE, R_DEVVER. -/
def bringupIdentity (p : Params) (h : Nat) (d : Context) : U8 × U8 :=
  let d1 := bringupReset p h d
  (d1.peekByte h, (d1.regRead h .devtype).peekByte h)

/-- The Device Context after the identity reads. -/
def bringupProbed (p : Params) (h : Nat) (d : Context) : Context :=
  ((bringupReset p h d).regRead h .devtype).regRead h .devver

/-- The silicon check (R207). -/
def siliconOk (p : Params) (h : Nat) (d : Context) : Bool :=
  decide ((bringupIdentity p h d).1 = p.expectDevType) && decide ((bringupIdentity p h d).2 = p.expectDevVer)

/-- The nineteen register writes of R206 steps 8 to 14. -/
def bringupWrites (p : Params) (xtalCap : U8) (id : U32) : List (ChipReg × U8) :=
  let sync := bytesOf32 p.syncWord
  let idb := bytesOf32 id
  [(.xtalcap, xtalCap), (.datactl, p.chipVal.datactlPkt), (.hdrctl, p.chipVal.hdrctl4bBcast),
   (.preamlen, Config.preambleTxNibbles), (.preath, Config.preambleDetNibbles),
   (.sync3, sync.1), (.sync2, sync.2.1), (.sync1, sync.2.2.1), (.sync0, sync.2.2.2),
   (.chkhdr3, idb.1), (.chkhdr2, idb.2.1), (.chkhdr1, idb.2.2.1), (.chkhdr0, idb.2.2.2),
   (.hdren3, 0xFF#8), (.hdren2, 0xFF#8), (.hdren1, 0xFF#8), (.hdren0, 0xFF#8),
   (.rxffAfull, BitVec.ofNat 8 p.rxWm), (.txffAem, BitVec.ofNat 8 p.txLoWm)]

/-- R206 steps 7 to 18: the device ID, the chip's programming, the three PHY settings, the link state, RXARM. Step 16 clears
`tx_pkt`, `tx_rd`, `tx_wr` for INIT too (R204, spec/70_reset_and_hazards.md R312); the summary of write permissions in
spec/10_state.md R46 does not list this, and the defining section goes before it (spec/90_conflicts.md; log 28). -/
def bringupProgram (p : Params) (id : U32) (active : Option Nat) (d : Context) : Context :=
  let d1 := { d with rxActive := active, cfg := { d.cfg with deviceId := id } }.regWrites
    (bringupWrites p d.cfg.xtalCap id)
  let d2 := applyPhyOps d1
    (datarateOps p d.cfg.bitrate ++ carrierOps p d.cfg d.cfg.centerFreq ++ txpowerOps p d.cfg.maxPower)
  let d3 := { d2 with
    txq := none, txPkt := none, txRd := 0#9, txWr := 0#9, txSuccess := false
    txtimeoutReq := false, sigLink := false }
  { rxarm p d3 with initialized := true }

/-- R206 step 6: the buffer for `rx_active`, the one it holds or a fresh one. -/
def bringupBuffer (d : Context) (s : State) : Option Nat :=
  if d.rxActive = none then s.poolAnswer else d.rxActive

/-- The pool after R206 step 6. -/
def bringupPool (d : Context) (s : State) : State := if d.rxActive = none then s.poolTaken else s

/-- BRINGUP (R206) of instance `h` with Device Context `d`: its status and the state after it. Every instance reads the same
serial number (log 29). -/
def bringup (h : Nat) (d : Context) (s : State) : Status × State :=
  let probed := bringupProbed s.params h d
  if siliconOk s.params h d = false then (.errSilicon, s.setDev h probed)
  else if freqRangeOk s.params d.cfg = false then (.errFreqRange, s.setDev h probed)
  else if bringupBuffer d s = none then (.errNoBuffer, (bringupPool d s).setDev h probed)
  else
    (.ok, (bringupPool d s).setDev h
      (bringupProgram s.params (Config.hash32 s.serial) (bringupBuffer d s) probed))

/-- INIT steps 2 and 3 (R204): the configuration from the settings port (R205), the counters, the sentinel. -/
def initContext (r : Settings) (d : Context) : Context :=
  { d with
    cfg := { d.cfg with
      minFreq := r.minFreq, maxFreq := r.maxFreq, bitrate := r.bitrate, centerFreq := r.centerFreq
      maxPower := r.maxPower, xtalCap := r.xtalCap }
    resetCount := 0#16, errorCount := 0#32, supervisorCounter := 0#32, rssiLast := 0x81#8 }

/-- INIT (R204). -/
def execInit (hnd : U8) (s : State) : Res :=
  onCommand 0x01#8 hnd s fun h d =>
    .next (if d.sendWait || d.recvWait then s.respond 0x01#8 hnd .errBusy 0#32
    else
      let r := bringup h (initContext s.settings d) s
      r.2.respond 0x01#8 hnd r.1 (if r.1 = .ok then hnd.zeroExtend 32 else 0#32))

/-- FORCE_RESET step 2 on the slots (R219): an undelivered completed buffer becomes the spare, if there is none. -/
def recycleSlots (d : Context) : Context :=
  { d with
    rxNext := if d.rxCompleted ≠ none ∧ d.rxNext = none then d.rxCompleted else d.rxNext
    rxCompleted := none }

/-- FORCE_RESET step 2 on the pool (R219): with a spare there, the completed buffer is released. -/
def recyclePool (d : Context) (s : State) : State :=
  match d.rxCompleted with
  | some k => if d.rxNext = none then s else s.poolRelease k
  | none => s

/-- FORCE_RESET step 5 (R219): a SEND stranded by the reset is woken with failure. -/
def wakeStranded (h : Nat) (was : Bool) (s : State) : State :=
  match s.devs[h]? with
  | none => s
  | some d => if was then s.setDev h ({ d with txSuccess := false }.signalTxdone) else s

/-- FORCE_RESET (R219). -/
def execForceReset (hnd : U8) (s : State) : Res :=
  onCommand 0x20#8 hnd s fun h d =>
    let count := d.resetCount + 1#16
    let r := bringup h (recycleSlots { d with resetCount := count }) (recyclePool d s)
    .next ((wakeStranded h d.sendWait r.2).respond 0x20#8 hnd r.1 (zext32 count))

end Sys2Proof.Machine
end

