-- ==== Sys2Proof/Machine/Rx.lean ====
section
/-! DEFINITION. The RX pipeline (spec/41_rx_pipeline.md): draining the FIFO into `rx_active`, TAG, PROMOTE, DISCARD, and
the events EV_RXFFAFULL and EV_PKVALID. -/

namespace Sys2Proof.Machine

/-- The almost-full drain outside RX_DATA (R161): RX_WM bytes read and thrown away. -/
def rxDiscardDrain (h : Nat) (d : Context) (s : State) : State :=
  s.setDev h (d.burstRead h .fifo s.params.rxWm)

/-- The length check while draining (R163): fails when the projected total exceeds the declared length, or reaches it
without PKVALID. -/
def drainFails (proj len : Nat) (pkvalid : Bool) : Bool :=
  decide (len < proj) || (decide (proj = len) && !pkvalid)

/-- The almost-full drain in RX_DATA (R162). -/
def rxDrain (h : Nat) (d : Context) (s : State) : Res :=
  let len := (d.peekByte h).toNat
  let d1 := d.regRead h .rxlen
  let proj := d.rxWr.toNat + s.params.rxWm
  if drainFails proj len d.pkvalid then .next (s.setDev h (rxfail d1))
  else
    match slotRef s.params d.rxActive with
    | none => .fault .noBuffer
    | some k =>
      .next { s.setDev h { d1.burstRead h .fifo s.params.rxWm with rxWr := BitVec.ofNat 9 proj } with
        buf := Memory.writeList s.buf (dataAddr k d.rxWr.toNat) (d1.peek h s.params.rxWm) }

/-- EV_RXFFAFULL (R161, R162). -/
def execEvRxffafull (hnd : U8) (s : State) : Res :=
  onEvent hnd s fun h d =>
    if d.mode = rxWaitPreamble ∨ d.mode = rxWaitSync then .next (rxDiscardDrain h d s)
    else if d.mode = rxData then rxDrain h d s
    else .next s

/-- TAG's stores (R168): `len`, and after the payload the RSSI byte and the AFC byte. -/
def tagBuffer (m : Memory) (k len : Nat) (rssi afc : U8) : Memory :=
  Memory.writeList (Memory.write m (lenAddr k) (BitVec.ofNat 8 len)) (dataAddr k len) [rssi, afc]

/-- PROMOTE where a spare is there and no completed buffer is pending (R169), else DISCARD (R170). -/
def promoteOrDiscard (d : Context) : Context :=
  if d.rxNext ≠ none ∧ d.rxCompleted = none then
    { d with rxCompleted := d.rxActive, rxActive := d.rxNext, rxNext := none, rxWr := 0#9 }
  else { d with rxWr := 0#9 }

/-- Packet valid in RX_DATA (R167): the rest of the payload, TAG, the slot rotation, RX_COMPLETE. -/
def rxFinish (h : Nat) (d : Context) (s : State) : Res :=
  let len := (d.peekByte h).toNat
  let d1 := d.regRead h .rxlen
  let n := len - d.rxWr.toNat
  if len < d.rxWr.toNat then .next (s.setDev h (rxfail d1))
  else
    match slotRef s.params d.rxActive with
    | none => .fault .noBuffer
    | some k =>
      let tagged := { d1.burstRead h .fifo n with rssiLast := d.latRssi }
      .next { s.setDev h ({ promoteOrDiscard tagged with mode := rxComplete }.signalLink) with
        buf := tagBuffer (Memory.writeList s.buf (dataAddr k d.rxWr.toNat) (d1.peek h n))
          k len d.latRssi d.latAfc }

/-- EV_PKVALID (R167); outside RX_DATA nothing (R171). -/
def execEvPkvalid (hnd : U8) (s : State) : Res :=
  onEvent hnd s fun h d => if d.mode = rxData then rxFinish h d s else .next s

end Sys2Proof.Machine
end

