-- ==== Sys2Proof/Machine/Tx.lean ====
section
/-! DEFINITION. The TX pipeline (spec/42_tx_pipeline.md): TXSTART, the top-up, packet sent. -/

namespace Sys2Proof.Machine

/-- The register writes of TXSTART up to the declared length (R181 steps 2 to 7). -/
def txstartWrites (p : Params) (hdr : List U8) (len : U8) : List (ChipReg × U8) :=
  [(.ien1, ienOff), (.ien2, ienOff), (.opmode, p.chipVal.opIdle),
   (.txhdr3, hdr.getD 0 0#8), (.txhdr2, hdr.getD 1 0#8), (.txhdr1, hdr.getD 2 0#8), (.txhdr0, hdr.getD 3 0#8),
   (.modctl2, p.chipVal.modctl2Fifo)] ++ fifoClearWrites p ++ [(.txlen, len)]

/-- The register writes of TXSTART after the pre-load (R181 steps 9 and 10). -/
def txkeyWrites (p : Params) : List (ChipReg × U8) :=
  [(.ien1, ien1Tx), (.ien2, ien2Tx), (.opmode, p.chipVal.opTxOn)]

/-- TXSTART (R181) of the packet in `txq`. Pre-load: `min(len, FIFO_CAP)` bytes (R182). -/
def txstart (h : Nat) (d : Context) (s : State) : Res :=
  match slotRef s.params d.txq with
  | none => .fault .noBuffer
  | some k =>
    let len := Memory.read s.buf (lenAddr k)
    let n0 := min len.toNat Config.fifoCap
    let d1 := d.regWrites (txstartWrites s.params (Memory.readList s.buf (hdrAddr k 0) Config.hdrLen) len)
    let d2 := d1.fifoWrite (Memory.readList s.buf (dataAddr k 0) n0)
    let d3 := d2.regWrites (txkeyWrites s.params)
    .next (s.setDev h { d3 with
      txPkt := d.txq, txq := none, txRd := BitVec.ofNat 9 n0, txWr := BitVec.ofNat 9 len.toNat
      ien1 := ien1Tx, ien2 := ien2Tx, mode := txData })

/-- TX_TOPUP (spec/00_scope.md R8). -/
def txTopup (p : Params) : Nat := Config.fifoCap - p.txLoWm - 1

/-- The top-up (R183): the bytes are read from the caller's buffer now (spec/20_memory.md R84). -/
def txAlmostEmpty (h : Nat) (d : Context) (s : State) : Res :=
  let n := min (d.txWr.toNat - d.txRd.toNat) (txTopup s.params)
  if n = 0 then .next s
  else
    match slotRef s.params d.txPkt with
    | none => .fault .noBuffer
    | some k =>
      if Config.bufCap < d.txRd.toNat + n then .fault .bufferBounds
      else
        .next (s.setDev h
          { d.fifoWrite (Memory.readList s.buf (dataAddr k d.txRd.toNat) n) with
            txRd := BitVec.ofNat 9 (d.txRd.toNat + n) })

/-- EV_TXFFAEM (R183): honoured in mode 5. -/
def execEvTxffaem (hnd : U8) (s : State) : Res :=
  onEvent hnd s fun h d => if d.mode = txData then txAlmostEmpty h d s else .next s

/-- EV_PKSENT (R184): honoured in mode 5, unconditionally. -/
def execEvPksent (hnd : U8) (s : State) : Res :=
  onEvent hnd s fun h d =>
    .next (if d.mode = txData then s.setDev h ({ d with mode := txComplete }.signalLink) else s)

end Sys2Proof.Machine
end

