-- ==== Sys2Proof/Machine/Bridge.lean ====
section
/-! DEFINITION. The concurrency bridge (spec/43_bridge_api.md): the issue steps of SEND and RECEIVE, the sequencer's
wake (WAKE, NEXT), the immediate operations. The ends of the waits are in Machine/Engine.lean. -/

namespace Sys2Proof.Machine

/-! ## SEND and RECEIVE at issue -/

/-- SEND, issue (R210 steps 1 to 4): a packet operand that names no buffer is refused first (spec/30_encoding.md R92,
R96; log 17), then R220 and R221. The packet may be the one still in `tx_pkt` after a timeout (log 26). -/
def execSend (hnd : U8) (packet timeoutMs : U32) (s : State) : Res :=
  onCommand 0x02#8 hnd s fun h d =>
    .next (match packetOperand s.params packet with
    | none => s.respond 0x02#8 hnd .errBadCmd 0#32
    | some k =>
      if d.initialized = false then s.respond 0x02#8 hnd .errNotInit 0#32
      else if d.sendWait then s.respond 0x02#8 hnd .errBusy 0#32
      else s.setDev h ({ d with
        sendWait := true, sigTxdone := false, txSuccess := false, txq := some k
        sendTimer := timeoutMs, sendPkt := some k }.signalLink))

/-- RECEIVE, issue (R213 steps 1 to 4): fetches a spare buffer if there is none. -/
def execReceive (hnd : U8) (timeoutMs : U32) (s : State) : Res :=
  onCommand 0x03#8 hnd s fun h d =>
    .next (if d.initialized = false then s.respond 0x03#8 hnd .errNotInit (refWord none)
    else if d.recvWait then s.respond 0x03#8 hnd .errBusy (refWord none)
    else if d.rxNext = none then
      s.poolTaken.setDev h { d with recvWait := true, recvTimer := timeoutMs, rxNext := s.poolAnswer }
    else s.setDev h { d with recvWait := true, recvTimer := timeoutMs })

/-! ## The sequencer's wake -/

/-- WAKE's result (R214): the completed buffer in RX_COMPLETE, else none. -/
def wakeResult (d : Context) : Option Nat := if d.mode = rxComplete then d.rxCompleted else none

/-- WAKE's branch on `mode` (R214). -/
def wakeDeliver (d : Context) : Context :=
  if d.mode = txComplete then
    if d.txq = none then { d with txPkt := none, txSuccess := true }.signalTxdone else { d with txPkt := none }
  else if d.mode = txError then
    if d.txq = none then { d with txPkt := none, txSuccess := false }.signalTxdone else { d with txPkt := none }
  else if d.mode = rxComplete then { d with rxCompleted := none }
  else d

/-- NEXT (R215): a queued packet is started, else reception is re-armed. -/
def wakeNext (h : Nat) (d : Context) (s : State) : Res :=
  if d.txq = none then .next (s.setDev h (rxarm s.params d)) else txstart h d s

/-- The end of RECEIVE, woken (R213 steps 6 to 8), after `take(sig_link)`. -/
def receiveWoken (hnd : U8) (h : Nat) (d : Context) (s : State) : Res :=
  if d.initialized = false then
    .next ((s.setDev h { d.takeLink with recvWait := false }).respond 0x03#8 hnd .errNotInit (refWord none))
  else
    bindRes (wakeNext h { wakeDeliver d.takeLink with recvWait := false } s) fun s' =>
      .next (s'.respond 0x03#8 hnd .ok (refWord (wakeResult d)))

/-- The end of RECEIVE's wait (R203, R213): woken when the signal is set, else timed out when the timer is 0, else still
waiting. -/
def receiveComplete (hnd : U8) (d : Context) (s : State) : Res :=
  if d.recvWait = false then .next s
  else if d.sigLink then receiveWoken hnd hnd.toNat d s
  else if d.recvTimer = 0#32 then
    .next ((s.setDev hnd.toNat { d with recvWait := false }).respond 0x03#8 hnd .errTimeout (refWord none))
  else .next s

/-! ## Immediate operations -/

/-- GET_RSSI (R216). -/
def execGetRssi (hnd : U8) (s : State) : Res :=
  onCommand 0x05#8 hnd s fun _ d => .next (s.respond 0x05#8 hnd .ok (sext32 d.rssiLast))

/-- GET_DEVICE_ID (R217). -/
def execGetDeviceId (hnd : U8) (s : State) : Res :=
  onCommand 0x04#8 hnd s fun _ d => .next (s.respond 0x04#8 hnd .ok d.cfg.deviceId)

/-- GET_RESET_COUNT (R218). -/
def execGetResetCount (hnd : U8) (s : State) : Res :=
  onCommand 0x06#8 hnd s fun _ d => .next (s.respond 0x06#8 hnd .ok (zext32 d.resetCount))

end Sys2Proof.Machine
end

