-- ==== Sys2Proof/Machine/Dispatch.lean ====
section
/-! DEFINITION. The meaning of every instruction: one arm per constructor of Instr. -/

namespace Sys2Proof.Machine

def exec (i : Instr) (s : State) : Host.Outcome State Fault Refusal :=
  match i with
  | .init hnd => Sys2Proof.Machine.execInit hnd s
  | .send hnd packet timeoutMs => Sys2Proof.Machine.execSend hnd packet timeoutMs s
  | .receive hnd timeoutMs => Sys2Proof.Machine.execReceive hnd timeoutMs s
  | .getDeviceId hnd => Sys2Proof.Machine.execGetDeviceId hnd s
  | .getRssi hnd => Sys2Proof.Machine.execGetRssi hnd s
  | .getResetCount hnd => Sys2Proof.Machine.execGetResetCount hnd s
  | .setDatarate hnd bps => Sys2Proof.Machine.execSetDatarate hnd bps s
  | .setCarrier hnd hz => Sys2Proof.Machine.execSetCarrier hnd hz s
  | .getCarrier hnd => Sys2Proof.Machine.execGetCarrier hnd s
  | .setTxpower hnd level => Sys2Proof.Machine.execSetTxpower hnd level s
  | .forceReset hnd => Sys2Proof.Machine.execForceReset hnd s
  | .evFfovfl hnd => Sys2Proof.Machine.execEvFfovfl hnd s
  | .evFfunfl hnd => Sys2Proof.Machine.execEvFfunfl hnd s
  | .evTxffaem hnd => Sys2Proof.Machine.execEvTxffaem hnd s
  | .evRxffafull hnd => Sys2Proof.Machine.execEvRxffafull hnd s
  | .evPksent hnd => Sys2Proof.Machine.execEvPksent hnd s
  | .evPkvalid hnd => Sys2Proof.Machine.execEvPkvalid hnd s
  | .evSwdet hnd => Sys2Proof.Machine.execEvSwdet hnd s
  | .evPreaval hnd => Sys2Proof.Machine.execEvPreaval hnd s
  | .evPor hnd => Sys2Proof.Machine.execEvPor hnd s

end Sys2Proof.Machine
end

