-- ==== Sys2Proof/Machine/Dispatcher.lean ====
section
/-! DEFINITION. DISPATCH, the single entry point of every interrupt (spec/40_link_state_machine.md R122): the status
burst, then the events present in the status word, in their fixed order (spec/30_encoding.md R102). -/

namespace Sys2Proof.Machine

/-- The events of one status word, one after the other. -/
def runEvents : List Instr → State → Res
  | [], s => .next s
  | i :: is, s => bindRes (exec i s) (runEvents is)

/-- DISPATCH steps 3 to 5 (R122), after the burst: POR first and alone (R124); in an unrecognised mode RXARM and no event
(R133); a pending SEND timeout is TXFAIL in TX_DATA and dropped elsewhere (R136, R130 a); then the events. -/
def dispatchByMode (hnd : U8) (d : Context) (s : State) : Res :=
  let h := hnd.toNat
  let d1 := { d with txtimeoutReq := false }
  if d.status.getLsbD bitPor then runEvents (decodeStatus hnd d.status) (s.setDev h d)
  else if isUnrecognised d.mode then .next (s.setDev h (rxarm s.params d1))
  else if d.txtimeoutReq && d.mode == txData then .next (s.setDev h (txfail d1))
  else runEvents (decodeStatus hnd d.status) (s.setDev h d1)

/-- DISPATCH (R122) of instance `hnd`, its status burst answered by the three bytes; on an uninitialised device no burst
and no change but `txtimeout_req` (R142). -/
def dispatch (hnd : U8) (dev is1 is2 : U8) (s : State) : Res :=
  match s.devs[hnd.toNat]? with
  | none => .next s
  | some d =>
    if d.initialized = false then .next (s.setDev hnd.toNat { d with txtimeoutReq := false })
    else bindRes (dispatchByMode hnd (d.enterDispatcher dev is1 is2) s) leaveDispatcher

/-- DISPATCH started by `txtimeout_req` and not by the chip (R136): the burst's bytes are the chip's next answers. -/
def dispatchOwn (hnd : U8) (s : State) : Res :=
  match s.devs[hnd.toNat]? with
  | none => .next s
  | some d =>
    if d.initialized = false then .next (s.setDev hnd.toNat { d with txtimeoutReq := false })
    else
      let b := d.peek hnd.toNat 3
      dispatch hnd (b.getD 0 0#8) (b.getD 1 0#8) (b.getD 2 0#8) (s.setDev hnd.toNat (d.drop 3))

end Sys2Proof.Machine
end

