-- ==== Sys2Proof/Machine/Engine.lean ====
section
/-! DEFINITION. What happens in one step besides an instruction: the end of a SEND's wait, the tick, the frames on the two
ports with the checks of spec/30_encoding.md R96, the supervisor port, the host's and the pool's own actions, and which of
PRLINK's agents runs when nothing comes from outside (log 7). -/

namespace Sys2Proof.Machine

/-! ## The end of SEND's wait (spec/43_bridge_api.md R210, R211) -/

/-- SEND_ABORT (R211): withdraw a packet not yet started; force TX_ERROR through the dispatcher for one in flight. -/
def sendAbort (hnd : U8) (d : Context) (s : State) : Res :=
  if d.txq ≠ none ∧ d.txq = d.sendPkt then .next (s.setDev hnd.toNat { d with txq := none })
  else if d.txPkt ≠ none ∧ d.txPkt = d.sendPkt ∧ d.mode = txData then
    dispatchOwn hnd (s.setDev hnd.toNat { d with txtimeoutReq := true })
  else .next s

/-- `send_wait <- 0`, and the command is no longer outstanding. -/
def endSend (h : Nat) (s : State) : State :=
  match s.devs[h]? with
  | none => s
  | some d => s.setDev h { d with sendWait := false, sendPkt := none }

/-- The end of SEND's wait (R203, R210): woken, else timed out, else still waiting. -/
def sendComplete (hnd : U8) (d : Context) (s : State) : Res :=
  let h := hnd.toNat
  if d.sendWait = false then .next s
  else if d.sigTxdone then
    .next ((endSend h (s.setDev h d.takeTxdone)).respond 0x02#8 hnd
      (if d.txSuccess then .ok else .errTxFailed) (if d.txSuccess then d.txWr.zeroExtend 32 else 0#32))
  else if d.sendTimer = 0#32 then
    bindRes (sendAbort hnd d s) fun s' => .next ((endSend h s').respond 0x02#8 hnd .errTimeout 0#32)
  else .next s

/-! ## The tick (R203) -/

/-- One pulse on a timer: `if timer > 0 then timer - 1`. -/
def tickTimer (t : U32) : U32 := if t = 0#32 then t else t - 1#32

/-- One pulse on an instance: the timers of the waits in progress (log 16). -/
def tickContext (d : Context) : Context :=
  { d with
    sendTimer := if d.sendWait then tickTimer d.sendTimer else d.sendTimer
    recvTimer := if d.recvWait then tickTimer d.recvTimer else d.recvTimer }

/-! ## Agents -/

/-- An agent's atomic unit, if it is enabled; else nothing. -/
def runAgent (hnd : U8) (a : Agent) (s : State) : Res :=
  match s.devs[hnd.toNat]? with
  | none => .next s
  | some d =>
    match a with
    | .send => sendComplete hnd d s
    | .receive => receiveComplete hnd d s
    | .dispatcher => if d.txtimeoutReq then dispatchOwn hnd s else .next s
    | .phy j => .next (resumePhy hnd.toNat j d s)

/-- The agents of an instance whose next unit is enabled (R203, spec/40_link_state_machine.md R136). -/
def enabledAgents (d : Context) : List Agent :=
  (if d.txtimeoutReq then [Agent.dispatcher] else []) ++
  (if d.sendWait && (d.sigTxdone || d.sendTimer == 0#32) then [Agent.send] else []) ++
  (if d.recvWait && (d.sigLink || d.recvTimer == 0#32) then [Agent.receive] else []) ++
  (List.range d.phyJobs.length).map Agent.phy

/-- The enabled agents of all instances. -/
def enabledUnits (s : State) : List (U8 × Agent) :=
  s.devs.zipIdx.flatMap fun e => (enabledAgents e.1).map fun a => (BitVec.ofNat 8 e.2, a)

/-- When nothing comes from outside: the one enabled agent runs; of several, one that the free value names; with none
PRLINK executes nothing by itself (spec/70_reset_and_hazards.md R311). -/
def runOwnAgents (s : State) : Res :=
  match enabledUnits s with
  | [] => .next s
  | [u] => runAgent u.1 u.2 s
  | u :: us =>
    let pick := (u :: us).getD (Config.agentChoice s.turns % (us.length + 1)) u
    runAgent pick.1 pick.2 { s with turns := s.turns + 1 }

/-! ## Frames on the ports -/

/-- A frame on a port, in the check order of R96: HND, RSV, OPC (and its port); the operands are checked by the
instruction. An illegal frame is answered and changes nothing else. -/
def runFrame (port : Port) (f : Frame) (s : State) : Res :=
  if s.params.nDev ≤ f.hnd.toNat then .next (s.respond f.opc f.hnd .errBadHandle 0#32)
  else
    match decodeFrame port f with
    | .error _ => .next (s.respond f.opc f.hnd .errBadCmd 0#32)
    | .ok i => exec i s

/-! ## The supervisor port (spec/60_exceptions.md R287) -/

/-- What a supervisor read gives, as a 32-bit word. -/
def supValue (d : Context) : SupReg → U32
  | .supervisorCounter => d.supervisorCounter
  | .resetCount => zext32 d.resetCount
  | .errorCount => d.errorCount
  | .byteTimeout => d.phy.byteTimeout
  | .mode => d.mode.zeroExtend 32
  | .initialized => if d.initialized then 1#32 else 0#32

/-- A supervisor read: one atomic unit; the datum goes out. Of an instance that is not there nothing is read. -/
def supervisorRead (h : Nat) (r : SupReg) (s : State) : State :=
  match s.devs[h]? with
  | none => s
  | some d => { s with out := s.out ++ [.supervisor (supValue d r)] }

/-- A supervisor write of `supervisor_counter`. -/
def supervisorWrite (h : Nat) (v : U32) (s : State) : State :=
  match s.devs[h]? with
  | none => s
  | some d => s.setDev h { d with supervisorCounter := v }

/-! ## The host's buffers and the pool (spec/20_memory.md R84, R86; log 6) -/

/-- A byte stored by the host. -/
def hostStore (k : Nat) (f : BufField) (v : U8) (s : State) : Res :=
  if k < s.params.nBuf then .next { s with buf := Memory.write s.buf (fieldAddr k f) v } else .fault .noBuffer

/-- Buffer `k` is in one of the three RX slots of an instance. -/
def heldBy (k : Nat) (d : Context) : Bool :=
  d.rxActive == some k || d.rxNext == some k || d.rxCompleted == some k

/-- The host may return a buffer that exists and is neither in the pool nor in an RX slot (log 6). -/
def mayReturn (k : Nat) (s : State) : Bool :=
  decide (k < s.params.nBuf) && !s.poolFree.contains k && !s.devs.any (heldBy k)

/-! ## One input -/

/-- One input from outside: one atomic unit. -/
def runInput (x : Input) (s : State) : Res :=
  match x with
  | .command f => runFrame .command f s
  | .supervisor f => runFrame .supervisor f s
  | .irq hnd dev is1 is2 => dispatch hnd dev is1 is2 s
  | .tick => .next { s with devs := s.devs.map tickContext }
  | .resume hnd a => runAgent hnd a s
  | .supRead hnd r => .next (supervisorRead hnd.toNat r s)
  | .supWrite hnd v => .next (supervisorWrite hnd.toNat v s)
  | .settings r => .next { s with settings := r }
  | .bufStore k f v => hostStore k f v s
  | .poolTake k => .next { s with poolFree := s.poolFree.erase k }
  | .poolReturn k => .next (if mayReturn k s then s.poolRelease k else s)

/-! ## Presenting a table word (log 7) -/

/-- The input that presents a table word: a frame on its port, or an interrupt of instance 0 with this status word. -/
def inputOfWord (nbits w : Nat) : Input :=
  match codeOfWord nbits w with
  | .frame f => if portOfWord w = .supervisor then .supervisor f else .command f
  | .status st => .irq 0#8 (st.extractLsb' 16 8) (st.extractLsb' 8 8) (st.extractLsb' 0 8)

/-- The dispatcher reads a status word only on an initialised device (R142): for a status word, instance 0 is marked so. -/
def readyForWord (nbits : Nat) (s : State) : State :=
  if nbits ≤ 24 then
    match s.devs[0]? with
    | none => s
    | some d => s.setDev 0 { d with initialized := true }
  else s

end Sys2Proof.Machine
end

