-- ==== Sys2Proof/Machine/Step.lean ====
section
/-! DEFINITION. One step of PRLINK: the next input from outside, or, when there is none, one of PRLINK's own agents. One
step is one atomic unit (spec/20_memory.md R80). -/

namespace Sys2Proof.Machine

/-- One step. -/
def step (s : State) : Host.Outcome State Fault Refusal :=
  match s.inputs with
  | [] => runOwnAgents s
  | x :: rest => runInput x { s with inputs := rest }

/-- The state whose next step takes the given table word as its input (log 7). -/
def State.withFetchWord (s : State) (nbits w : Nat) : State :=
  { readyForWord nbits s with inputs := inputOfWord nbits w :: s.inputs }

end Sys2Proof.Machine
end

