-- ==== Sys2Proof/Safety.lean ====
section
/-! DEFINITION. What holds of every state a run from reset reaches (spec/10_state.md R24, R28), in the terms the
statements use. -/

namespace Sys2Proof.Machine

/-- The buffers in the RX slots of an instance. -/
def Context.slots (d : Context) : List Nat := [d.rxActive, d.rxNext, d.rxCompleted].filterMap id

/-- A Device Context a run can reach: `mode` is one of the eight values (R21); an initialised device has a buffer being
filled (R28 b); `rx_wr` holds 0..255 (R27); in TX_DATA a packet is in flight and `0 <= tx_rd <= tx_wr <= MAX_LEN` (R24);
every reference names a buffer (R13); no timeout request is left over (R136). -/
structure Context.Ok (p : Params) (d : Context) : Prop where
  mode_recognised : isUnrecognised d.mode = false
  active_of_initialized : d.initialized = true → d.rxActive ≠ none
  rxWr_le : d.rxWr.toNat ≤ Config.maxLen
  tx_in_flight : d.mode = txData → d.txPkt ≠ none ∧ d.txRd.toNat ≤ d.txWr.toNat
  txWr_le : d.txWr.toNat ≤ Config.maxLen
  slots_lt : ∀ k ∈ d.slots, k < p.nBuf
  txq_lt : ∀ k, d.txq = some k → k < p.nBuf
  txPkt_lt : ∀ k, d.txPkt = some k → k < p.nBuf
  no_timeout : d.txtimeoutReq = false

/-- A host store names a buffer that exists. -/
def Input.ok (p : Params) : Input → Bool
  | .bufStore k _ _ => decide (k < p.nBuf)
  | _ => true

/-- The invariant of the machine: the parameters are legal, there are N_DEV Device Contexts, each as above; no buffer is
in two RX slots, of whichever instances, or in a slot and in the pool (R28 a, spec/20_memory.md R86; `txq` and `tx_pkt` are
left out of the distinctness, log 22, log 26); the BUF memory is in its canonical form and inside the BUF space; the pending
host stores name buffers. -/
structure State.Inv (s : State) : Prop where
  params_wf : s.params.wf = true
  instances : s.devs.length = s.params.nDev
  contexts : ∀ d ∈ s.devs, d.Ok s.params
  buffers_once : (s.devs.flatMap Context.slots ++ s.poolFree).Nodup
  pool_lt : ∀ k ∈ s.poolFree, k < s.params.nBuf
  buf_wf : Memory.wf s.buf = true
  buf_inside : ∀ c ∈ s.buf, c.1 < s.params.nBuf * bufSize
  inputs_ok : ∀ x ∈ s.inputs, x.ok s.params = true

/-! ## Runs, and what the statements read off a state -/

/-- `n` steps, ending at the first fault or refusal. -/
def runSteps : Nat → State → Res
  | 0, s => .next s
  | n + 1, s => bindRes (step s) (runSteps n)

/-- The payload bytes PRLINK wrote to the TX FIFO, in order. -/
def fifoBytes (bus : List BusOp) : List U8 :=
  bus.flatMap fun op => match op with
    | .burstWrite _ bytes => bytes
    | _ => []

/-- The number of single register writes among transfers. -/
def writeCount (bus : List BusOp) : Nat :=
  bus.countP fun op => match op with
    | .write _ _ => true
    | _ => false

/-- A terminal mode (spec/00_scope.md R17). -/
def isTerminal (m : BitVec 4) : Bool := m == rxComplete || m == rxError || m == txComplete || m == txError

/-- A change of `mode` one dispatcher invocation can make: the rows T1 to T9 and T12 of spec/40_link_state_machine.md R121,
chained in the order of R126. -/
def dispatcherMove (m m' : BitVec 4) : Bool :=
  (m == rxWaitPreamble && (m' == rxWaitSync || m' == rxData || m' == rxComplete || m' == rxError)) ||
  (m == rxWaitSync && (m' == rxData || m' == rxComplete || m' == rxError)) ||
  (m == rxData && (m' == rxComplete || m' == rxError)) ||
  (m == txData && (m' == txComplete || m' == txError)) ||
  (isUnrecognised m && m' == rxWaitPreamble)

/-- The next step may be a unit of agent `a` of instance `h`: it is this agent's turn, or nothing comes from outside and the
agent is enabled (log 7). -/
def agentTurn (s : State) (h : Nat) (a : Agent) : Prop :=
  (∃ hnd rest, hnd.toNat = h ∧ s.inputs = .resume hnd a :: rest) ∨
  (s.inputs = [] ∧ ∃ d, s.devs[h]? = some d ∧ a ∈ enabledAgents d)

/-- The input that presents a frame on a port. -/
def frameInput (port : Port) (f : Frame) : Input :=
  match port with
  | .command => .command f
  | .supervisor => .supervisor f

end Sys2Proof.Machine
end

