-- ==== Sys2Proof/Certificates/Slice0/Obligations.lean ====
section
/-! DEFINITION. The statements about PRLINK. `d` is the Device Context of instance `hnd`. A next state written out as an
equation says the frame too: nothing but what it names changes. -/

open Sys2Proof Sys2Proof.Machine

/-! ## Encoding and decoding -/

/-- Words written out from spec/30_encoding.md R93, R101 and the vectors V2, V7, V10 decode to their instructions. -/
def Obligations.TableWordsDecode : Prop :=
  decodeTableWord 32 0x01000000 = some (.init 0#8) ∧
  decodeTableWord 96 0x000001F4_00000003_02000000 = some (.send 0#8 3#32 500#32) ∧
  decodeTableWord 64 0x000003E8_03010000 = some (.receive 1#8 1000#32) ∧
  decodeTableWord 64 0x00002580_10000000 = some (.setDatarate 0#8 9600#32) ∧
  decodeTableWord 64 0x19CF0E40_11000000 = some (.setCarrier 0#8 433000000#32) ∧
  decodeTableWord 64 0x00000107_13000000 = some (.setTxpower 0#8 7#8) ∧
  decodeTableWord 32 0x20000000 = some (.forceReset 0#8) ∧
  decodeTableWord 32 0x07000000 = none ∧
  decodeTableWord 32 0x04000001 = none ∧
  decodeTableWord 24 0x001200 = some (.evRxffafull 0#8) ∧
  decodeTableWord 24 0x001001 = some (.evPor 0#8)

/-- Decoding the encoding of an instruction gives it back, for every instruction and every operand value; an event's
status word holds that event and no other. -/
def Obligations.DecodeOfEncode : Prop :=
  ∀ i : Instr,
    decode (portOf i) i.hnd (encode i) = some i ∧
    (opcOf i = none → ∃ st, encode i = .status st ∧ decodeStatus i.hnd st = [i]) ∧
    (opcOf i ≠ none → ∃ f, encode i = .frame f ∧ decodeFrame (portOf i) f = .ok i)

/-- A frame that decodes to an instruction is the instruction's encoding in W0 and in every operand bit the instruction
takes: each frame has one meaning (R91 to R93). (That a frame of another OPC than FORCE_RESET never decodes on the
supervisor port, the clause on `port`, is the model's reading, log 9.) -/
def Obligations.DecodedFrameMatchesEncoding : Prop :=
  ∀ (port : Port) (f : Frame) (i : Instr), decodeFrame port f = .ok i →
    portOf i = port ∧ i.hnd = f.hnd ∧ opcOf i = some f.opc ∧
    ∃ g, encode i = .frame g ∧ g.w0 = f.w0 ∧
      ((∃ hnd p t, i = .send hnd p t) → g.w1 = f.w1 ∧ g.w2 = f.w2) ∧
      ((∃ hnd t, i = .receive hnd t ∨ i = .setDatarate hnd t ∨ i = .setCarrier hnd t) → g.w1 = f.w1) ∧
      ((∃ hnd l, i = .setTxpower hnd l) → g.w1 = f.w1 &&& 0xFF#32)

/-- Status bits without a flag do not matter: two status words that agree on the nine flags give the same events, in the
same order, and the same packet-valid test (R101 to R103). -/
def Obligations.IgnoredStatusBitsDoNotMatter : Prop :=
  ∀ (hnd : U8) (a b : StatusWord),
    (∀ n ∈ [0, 6, 7, 9, 10, 12, 13, 22, 23], a.getLsbD n = b.getLsbD n) →
    decodeStatus hnd a = decodeStatus hnd b ∧ a.getLsbD bitPkvalid = b.getLsbD bitPkvalid

/-! ## A step runs what is presented -/

/-- A legal frame presented on its port: the step is exec of the decoded instruction, the input being consumed. (That what
comes from outside is the list `inputs` of State is the model's choice, log 7.) -/
def Obligations.StepRunsDecodedCommand : Prop :=
  ∀ (s : State) (port : Port) (f : Frame) (i : Instr) (rest : List Input),
    s.inputs = frameInput port f :: rest → f.hnd.toNat < s.params.nDev → decodeFrame port f = .ok i →
    step s = exec i { s with inputs := rest }

/-- An interrupt of an initialised device in a recognised mode, no timeout request pending: the status burst is latched
and recorded, then every event of the status word is executed in order, in one step; a status word with one event is exec
of that event. (`inputs`: log 7; the record `bus`: log 14; both are the model's choice.) -/
def Obligations.StepRunsStatusWordEvents : Prop :=
  ∀ (s : State) (hnd dev is1 is2 : U8) (rest : List Input) (d : Context),
    s.inputs = .irq hnd dev is1 is2 :: rest → s.devs[hnd.toNat]? = some d →
    d.initialized = true → d.txtimeoutReq = false → isUnrecognised d.mode = false →
    let entered := { s with inputs := rest }.setDev hnd.toNat (d.enterDispatcher dev is1 is2)
    step s = runEvents (decodeStatus hnd (statusWord dev is1 is2)) entered ∧
    ∀ i, decodeStatus hnd (statusWord dev is1 is2) = [i] → step s = exec i entered

/-- PRLINK's own agents: the entry `resume` gives the turn to one of them; with nothing from outside the one enabled agent
runs, of several one of them, and with none nothing changes (spec/70_reset_and_hazards.md R311). Enabled are: the end of a
SEND's or RECEIVE's wait whose signal is set or whose timer is 0 (spec/43_bridge_api.md R203), a pending timeout request
(spec/40_link_state_machine.md R136), and every preempted PHY command, whatever the device holds, initialised or not
(spec/20_memory.md R80). (That turns are given so is the model's choice, log 7; that a preempted PHY command is data and goes
on whatever happened meanwhile is the model's choice, log 8.) -/
def Obligations.StepRunsAgents : Prop :=
  ∀ s : State,
    (∀ hnd a rest, s.inputs = .resume hnd a :: rest → step s = runAgent hnd a { s with inputs := rest }) ∧
    (s.inputs = [] → enabledUnits s = [] → step s = .next s) ∧
    (∀ hnd a, s.inputs = [] → enabledUnits s = [(hnd, a)] → step s = runAgent hnd a s) ∧
    (s.inputs = [] → 2 ≤ (enabledUnits s).length →
      ∃ u ∈ enabledUnits s, step s = runAgent u.1 u.2 { s with turns := s.turns + 1 }) ∧
    (s.devs.length ≤ 256 → ∀ (hnd : U8) (a : Agent), (hnd, a) ∈ enabledUnits s ↔
      ∃ d, s.devs[hnd.toNat]? = some d ∧
        ((a = .send ∧ d.sendWait = true ∧ (d.sigTxdone = true ∨ d.sendTimer = 0#32)) ∨
         (a = .receive ∧ d.recvWait = true ∧ (d.sigLink = true ∨ d.recvTimer = 0#32)) ∨
         (a = .dispatcher ∧ d.txtimeoutReq = true) ∨
         ∃ j, a = .phy j ∧ j < d.phyJobs.length))

/-- Illegal frames (R96): HND is checked first, then RSV, then OPC, then the operand; each is answered with its status
and value 0, and nothing else changes; FORCE_RESET on the command port is illegal. (That a SEND with an operand that
names no buffer is answered so whatever `initialized` and `send_wait` are, the last clause, is the model's reading,
DEDUCED, log 17.) -/
def Obligations.IllegalFramesAreOnlyAnswered : Prop :=
  ∀ (s : State) (port : Port) (f : Frame) (rest : List Input),
    s.inputs = frameInput port f :: rest → s.devs.length = s.params.nDev →
    let s0 : State := { s with inputs := rest }
    (s.params.nDev ≤ f.hnd.toNat → step s = .next (s0.respond f.opc f.hnd .errBadHandle 0#32)) ∧
    (f.hnd.toNat < s.params.nDev → f.rsv ≠ 0#16 → step s = .next (s0.respond f.opc f.hnd .errBadCmd 0#32)) ∧
    (f.hnd.toNat < s.params.nDev → f.rsv = 0#16 →
      f.opc ∉ [0x01#8, 0x02#8, 0x03#8, 0x04#8, 0x05#8, 0x06#8, 0x10#8, 0x11#8, 0x12#8, 0x13#8, 0x20#8] →
      step s = .next (s0.respond f.opc f.hnd .errBadCmd 0#32)) ∧
    (f.hnd.toNat < s.params.nDev → f.rsv = 0#16 → f.opc = 0x20#8 → port = .command →
      step s = .next (s0.respond 0x20#8 f.hnd .errBadCmd 0#32)) ∧
    (f.hnd.toNat < s.params.nDev → f.rsv = 0#16 → f.opc = 0x02#8 → port = .command →
      (s.params.nBuf ≤ f.w1.toNat ∨ f.w1 = 0xFFFFFFFF#32) →
      step s = .next (s0.respond 0x02#8 f.hnd .errBadCmd 0#32))

/-! ## Immediate operations -/

/-- GET_RSSI, GET_DEVICE_ID, GET_RESET_COUNT, GET_CARRIER answer from the registers in any state and write nothing
(R216, R217, R218, R254). -/
def Obligations.ReadoutsAnswerAndWriteNothing : Prop :=
  ∀ (s : State) (hnd : U8) (d : Context), s.devs[hnd.toNat]? = some d →
    exec (.getRssi hnd) s = .next (s.respond 0x05#8 hnd .ok (d.rssiLast.signExtend 32)) ∧
    exec (.getDeviceId hnd) s = .next (s.respond 0x04#8 hnd .ok d.cfg.deviceId) ∧
    exec (.getResetCount hnd) s = .next (s.respond 0x06#8 hnd .ok (d.resetCount.zeroExtend 32)) ∧
    exec (.getCarrier hnd) s = .next (s.respond 0x12#8 hnd .ok (regsToFreq s.params d.phy.band d.phy.chan))

/-! ## SEND -/

/-- SEND (after R210): the refusals at issue, the issue, the woken completion, the timeout completion. (That the operand
is checked before the other two refusals is the model's reading, DEDUCED from R96, log 17; `sendPkt` keeps `p` for
SEND_ABORT, log 12.) -/
def Obligations.SendOperation : Prop :=
  ∀ (s : State) (hnd : U8) (d : Context) (p t : U32), s.devs[hnd.toNat]? = some d →
    (p = 0xFFFFFFFF#32 ∨ s.params.nBuf ≤ p.toNat →
      exec (.send hnd p t) s = .next (s.respond 0x02#8 hnd .errBadCmd 0#32)) ∧
    (p ≠ 0xFFFFFFFF#32 → p.toNat < s.params.nBuf →
      (d.initialized = false → exec (.send hnd p t) s = .next (s.respond 0x02#8 hnd .errNotInit 0#32)) ∧
      (d.initialized = true → d.sendWait = true →
        exec (.send hnd p t) s = .next (s.respond 0x02#8 hnd .errBusy 0#32)) ∧
      (d.initialized = true → d.sendWait = false →
        exec (.send hnd p t) s = .next (s.setDev hnd.toNat { d with
          sendWait := true, sigTxdone := false, txSuccess := false, txq := some p.toNat, sigLink := true
          sendTimer := t, sendPkt := some p.toNat }))) ∧
    (d.sendWait = true → d.sigTxdone = true →
      runAgent hnd .send s = .next ((s.setDev hnd.toNat { d with
          sigTxdone := false, sendWait := false, sendPkt := none }).respond 0x02#8 hnd
        (if d.txSuccess then .ok else .errTxFailed) (if d.txSuccess then d.txWr.zeroExtend 32 else 0#32))) ∧
    (d.sendWait = true → d.sigTxdone = false → d.sendTimer = 0#32 → ∀ u e, sendAbort hnd d s = .next u →
      u.devs[hnd.toNat]? = some e →
      runAgent hnd .send s = .next ((u.setDev hnd.toNat { e with
          sendWait := false, sendPkt := none }).respond 0x02#8 hnd .errTimeout 0#32)) ∧
    (d.sendWait = true → d.sigTxdone = false → d.sendTimer ≠ 0#32 → runAgent hnd .send s = .next s)

/-- SEND_ABORT(p) (R211): a packet not started is withdrawn; one in flight is forced to TX_ERROR through the dispatcher,
whose status burst (the chip's next three bytes) is latched, with two exceptions that leave it in TX_DATA: the burst shows
the power-on-reset flag, or the device is uninitialised already (as after an earlier EV_POR), where the dispatcher makes no
transfer and only drops the request (spec/40_link_state_machine.md R122 step 1, R142); else nothing. (`sendPkt` is `p`,
log 12; the tape of answers is the model's, log 4.) -/
def Obligations.SendAbortLeavesTxData : Prop :=
  ∀ (s : State) (hnd : U8) (d : Context) (p : Nat) (b0 b1 b2 : U8) (tape : List U8),
    s.devs[hnd.toNat]? = some d → d.sendPkt = some p → d.answers = b0 :: b1 :: b2 :: tape →
    (d.txq = some p → sendAbort hnd d s = .next (s.setDev hnd.toNat { d with txq := none })) ∧
    (d.txq ≠ some p → d.txPkt = some p → d.mode = txData → d.initialized = true → b2.getLsbD 0 = false →
      sendAbort hnd d s = .next (s.setDev hnd.toNat { d with
        mode := txError, sigLink := true, txtimeoutReq := false, stDev := b0, stIs1 := b1, stIs2 := b2
        answers := tape, bus := d.bus ++ [.burstRead .devstat [b0, b1, b2]] })) ∧
    (d.txq ≠ some p → d.txPkt = some p → d.mode = txData → d.initialized = true → b2.getLsbD 0 = true →
      sendAbort hnd d s = .next (s.setDev hnd.toNat { d with
        initialized := false, txtimeoutReq := false, stDev := b0, stIs1 := b1, stIs2 := b2
        answers := tape, bus := d.bus ++ [.burstRead .devstat [b0, b1, b2]] })) ∧
    (d.txq ≠ some p → d.txPkt = some p → d.mode = txData → d.initialized = false →
      sendAbort hnd d s = .next (s.setDev hnd.toNat { d with txtimeoutReq := false })) ∧
    (d.txq ≠ some p → ¬(d.txPkt = some p ∧ d.mode = txData) → sendAbort hnd d s = .next s)

/-! ## RECEIVE and the sequencer -/

/-- RECEIVE (R213): the refusals at issue, the issue (a spare is fetched from the pool if there is none), the timeout, the
wake on an uninitialised device; a woken wait on an initialised device is WAKE's statement. -/
def Obligations.ReceiveOperation : Prop :=
  ∀ (s : State) (hnd : U8) (d : Context) (t : U32), s.devs[hnd.toNat]? = some d →
    (d.initialized = false → exec (.receive hnd t) s = .next (s.respond 0x03#8 hnd .errNotInit 0xFFFFFFFF#32)) ∧
    (d.initialized = true → d.recvWait = true →
      exec (.receive hnd t) s = .next (s.respond 0x03#8 hnd .errBusy 0xFFFFFFFF#32)) ∧
    (d.initialized = true → d.recvWait = false → d.rxNext ≠ none →
      exec (.receive hnd t) s = .next (s.setDev hnd.toNat { d with recvWait := true, recvTimer := t })) ∧
    (d.initialized = true → d.recvWait = false → d.rxNext = none →
      exec (.receive hnd t) s = .next (s.poolTaken.setDev hnd.toNat { d with
        recvWait := true, recvTimer := t, rxNext := s.poolAnswer })) ∧
    (d.recvWait = true → d.sigLink = false → d.recvTimer = 0#32 →
      runAgent hnd .receive s = .next ((s.setDev hnd.toNat { d with recvWait := false }).respond 0x03#8 hnd
        .errTimeout 0xFFFFFFFF#32)) ∧
    (d.recvWait = true → d.sigLink = false → d.recvTimer ≠ 0#32 → runAgent hnd .receive s = .next s) ∧
    (d.recvWait = true → d.sigLink = true → d.initialized = false →
      runAgent hnd .receive s = .next ((s.setDev hnd.toNat { d with
        recvWait := false, sigLink := false }).respond 0x03#8 hnd .errNotInit 0xFFFFFFFF#32)) ∧
    (d.recvWait = true → d.sigLink = true → d.initialized = true →
      ∀ u, wakeNext hnd.toNat { wakeDeliver d.takeLink with recvWait := false } s = .next u →
        runAgent hnd .receive s = .next (u.respond 0x03#8 hnd .ok (refWord (wakeResult d))))

/-- WAKE and NEXT (R214, R215): what each mode delivers, the TX results only where no packet is queued; then a queued
packet is started, and without one RXARM; the delivered buffer, or none, is answered. -/
def Obligations.WakeOperation : Prop :=
  ∀ (s : State) (hnd : U8) (d : Context), s.devs[hnd.toNat]? = some d →
    d.recvWait = true → d.sigLink = true → d.initialized = true →
    let woken : Context := { d with sigLink := false, recvWait := false }
    let delivered : Context :=
      if d.mode = txComplete then { woken with
        txPkt := none
        txSuccess := if d.txq = none then true else d.txSuccess
        sigTxdone := if d.txq = none then true else d.sigTxdone }
      else if d.mode = txError then { woken with
        txPkt := none
        txSuccess := if d.txq = none then false else d.txSuccess
        sigTxdone := if d.txq = none then true else d.sigTxdone }
      else if d.mode = rxComplete then { woken with rxCompleted := none }
      else woken
    let result := refWord (if d.mode = rxComplete then d.rxCompleted else none)
    (d.txq = none → runAgent hnd .receive s =
      .next ((s.setDev hnd.toNat (rxarm s.params delivered)).respond 0x03#8 hnd .ok result)) ∧
    (∀ k, d.txq = some k → k < s.params.nBuf → ∃ u, txstart hnd.toNat delivered s = .next u ∧
      runAgent hnd .receive s = .next (u.respond 0x03#8 hnd .ok result))

/-- A wake with a packet queued (R214, R215): a TX result of an older SEND is not delivered, and the queued packet
is started whatever the mode was. -/
def Obligations.WakeStartsQueuedPacket : Prop :=
  ∀ (s : State) (hnd : U8) (d : Context) (k : Nat), s.devs[hnd.toNat]? = some d →
    d.recvWait = true → d.sigLink = true → d.initialized = true → d.txq = some k → k < s.params.nBuf →
    ∃ t e, runAgent hnd .receive s = .next t ∧ t.devs[hnd.toNat]? = some e ∧
      e.mode = txData ∧ e.txPkt = some k ∧ e.txq = none ∧
      e.txSuccess = d.txSuccess ∧ e.sigTxdone = d.sigTxdone ∧
      e.recvWait = false ∧ e.sigLink = false ∧ e.rxWr = d.rxWr ∧
      e.rxActive = d.rxActive ∧ e.rxNext = d.rxNext ∧
      e.rxCompleted = (if d.mode = rxComplete then none else d.rxCompleted) ∧
      t.out = s.out ++ [responseFrame 0x03#8 hnd .ok
        (refWord (if d.mode = rxComplete then d.rxCompleted else none))] ∧
      (∀ a, Memory.read t.buf a = Memory.read s.buf a)

/-- RXARM with FIFO_CLEAR (R140, R141): the eight register writes in order and the four registers; nothing else. -/
def Obligations.RxarmRule : Prop :=
  ∀ (p : Params) (d : Context),
    rxarm p d = { d with
      ien1 := 0x92#8, ien2 := 0xC1#8, rxWr := 0#9, mode := 0#4
      bus := d.bus ++ [.write .ien1 0x00#8, .write .ien2 0x00#8, .write .opmode p.chipVal.opIdle,
        .write .fifoctl p.chipVal.ffclrBoth, .write .fifoctl 0x00#8,
        .write .ien1 0x92#8, .write .ien2 0xC1#8, .write .opmode p.chipVal.opRxOn] }

/-- TXSTART (R181, R182): the fourteen register writes and at most one FIFO burst of `min(len, 64)` payload bytes, in
order, and the registers; the header bytes go out most significant register first. -/
def Obligations.TxstartRule : Prop :=
  ∀ (s : State) (h : Nat) (d : Context) (k : Nat), d.txq = some k → k < s.params.nBuf →
    let p := s.params
    let hdr := fun i => Memory.read s.buf (hdrAddr k i)
    let len := Memory.read s.buf (lenAddr k)
    let n0 := min len.toNat 64
    txstart h d s = .next (s.setDev h { d with
      txPkt := some k, txq := none, txRd := BitVec.ofNat 9 n0, txWr := BitVec.ofNat 9 len.toNat
      ien1 := 0xA4#8, ien2 := 0x01#8, mode := 5#4
      bus := d.bus ++ [.write .ien1 0x00#8, .write .ien2 0x00#8, .write .opmode p.chipVal.opIdle,
          .write .txhdr3 (hdr 0), .write .txhdr2 (hdr 1), .write .txhdr1 (hdr 2), .write .txhdr0 (hdr 3),
          .write .modctl2 p.chipVal.modctl2Fifo,
          .write .fifoctl p.chipVal.ffclrBoth, .write .fifoctl 0x00#8, .write .txlen len] ++
        (if n0 = 0 then [] else [.burstWrite .fifo ((List.range n0).map fun i => Memory.read s.buf (dataAddr k i))]) ++
        [.write .ien1 0xA4#8, .write .ien2 0x01#8, .write .opmode p.chipVal.opTxOn] })

/-! ## Events -/

/-- EV_PREAVAL (R128): mode 0 goes to mode 1; in every other mode the flag is ignored. -/
def Obligations.PreambleRule : Prop :=
  ∀ (s : State) (hnd : U8) (d : Context), s.devs[hnd.toNat]? = some d → d.initialized = true →
    (d.mode = 0#4 → exec (.evPreaval hnd) s = .next (s.setDev hnd.toNat { d with mode := 1#4 })) ∧
    (d.mode ≠ 0#4 → exec (.evPreaval hnd) s = .next s)

/-- EV_SWDET with LATCH (R129, R164): mode 1 goes to mode 2, the AFC burst and the RSSI read in this order, both latches
loaded; in every other mode the flag is ignored. The raw AFC reading is the two bytes, most significant first, shifted
right by `16 - AFC_W` with their sign. -/
def Obligations.SyncDetectRule : Prop :=
  ∀ (s : State) (hnd : U8) (d : Context) (a0 a1 r : U8) (tape : List U8),
    s.devs[hnd.toNat]? = some d → d.initialized = true → d.answers = a0 :: a1 :: r :: tape →
    (d.mode = 1#4 → exec (.evSwdet hnd) s = .next (s.setDev hnd.toNat { d with
        mode := 2#4
        latAfc := afcConv s.params (afcTicks s.params a0 a1) d.phy.freqStepQ
        latRssi := rssiConv s.params r
        answers := tape
        bus := d.bus ++ [.burstRead .afc [a0, a1], .read .rssi r] })) ∧
    (d.mode ≠ 1#4 → exec (.evSwdet hnd) s = .next s) ∧
    (1 ≤ s.params.afcW → s.params.afcW ≤ 16 →
      afcTicks s.params a0 a1 = (a0 ++ a1).toInt / 2 ^ (16 - s.params.afcW))

/-- EV_FFOVFL and EV_FFUNFL (R127, R131, R132): in modes 0, 1, 2 RX_ERROR with `error_count` one up; in mode 5 TX_ERROR
with `error_count` as it was; both raise `sig_link`; in the other modes nothing. -/
def Obligations.FifoFaultRule : Prop :=
  ∀ (s : State) (hnd : U8) (d : Context), s.devs[hnd.toNat]? = some d → d.initialized = true →
    ∀ i, i = .evFfovfl hnd ∨ i = .evFfunfl hnd →
      (d.mode = 0#4 ∨ d.mode = 1#4 ∨ d.mode = 2#4 →
        exec i s = .next (s.setDev hnd.toNat { d with
          mode := 4#4, errorCount := d.errorCount + 1#32, sigLink := true })) ∧
      (d.mode = 5#4 → exec i s = .next (s.setDev hnd.toNat { d with mode := 7#4, sigLink := true })) ∧
      (d.mode ≠ 0#4 → d.mode ≠ 1#4 → d.mode ≠ 2#4 → d.mode ≠ 5#4 → exec i s = .next s)

/-- EV_RXFFAFULL outside RX_DATA (R161): in modes 0 and 1 RX_WM bytes are read and thrown away, no byte of any buffer
and no register changes; in the modes its row does not list the flag is ignored. (Which bytes are read is the
environment's part of State, `answers` and `reads`: log 4.) -/
def Obligations.AlmostFullDiscardsBeforeSync : Prop :=
  ∀ (s : State) (hnd : U8) (d : Context), s.devs[hnd.toNat]? = some d → d.initialized = true → 1 ≤ s.params.rxWm →
    (d.mode = 0#4 ∨ d.mode = 1#4 →
      exec (.evRxffafull hnd) s = .next (s.setDev hnd.toNat { d with
        answers := d.answers.drop s.params.rxWm
        reads := d.reads + (s.params.rxWm - d.answers.length)
        bus := d.bus ++ [.burstRead .fifo (d.peek hnd.toNat s.params.rxWm)] })) ∧
    (d.mode ≠ 0#4 → d.mode ≠ 1#4 → d.mode ≠ 2#4 → exec (.evRxffafull hnd) s = .next s)

/-- EV_RXFFAFULL in RX_DATA (R162, R163): with `proj = rx_wr + RX_WM` against the length just read, too long or reached
without PKVALID is RXFAIL with no FIFO byte read; otherwise exactly RX_WM bytes go to `data[rx_wr .. proj-1]`, `rx_wr`
becomes `proj`, and every other byte of memory is as before. -/
def Obligations.AlmostFullDrainsInData : Prop :=
  ∀ (s : State) (hnd : U8) (d : Context) (len : U8) (tape : List U8),
    s.devs[hnd.toNat]? = some d → d.initialized = true → d.mode = 2#4 → d.answers = len :: tape →
    1 ≤ s.params.rxWm →
    let proj := d.rxWr.toNat + s.params.rxWm
    let d1 : Context := { d with answers := tape, bus := d.bus ++ [.read .rxlen len] }
    (len.toNat < proj ∨ (proj = len.toNat ∧ d.status.getLsbD 9 = false) →
      exec (.evRxffafull hnd) s = .next (s.setDev hnd.toNat { d1 with
        mode := 4#4, errorCount := d.errorCount + 1#32, sigLink := true })) ∧
    (proj ≤ len.toNat → (proj = len.toNat → d.status.getLsbD 9 = true) →
      ∀ k, d.rxActive = some k → k < s.params.nBuf →
      let bytes := d1.peek hnd.toNat s.params.rxWm
      ∃ buf', exec (.evRxffafull hnd) s = .next { s.setDev hnd.toNat { d1 with
            rxWr := BitVec.ofNat 9 proj
            answers := tape.drop s.params.rxWm
            reads := d.reads + (s.params.rxWm - tape.length)
            bus := d1.bus ++ [.burstRead .fifo bytes] } with buf := buf' } ∧
        (∀ i, i < s.params.rxWm → Memory.read buf' (dataAddr k (d.rxWr.toNat + i)) = bytes.getD i 0#8) ∧
        (∀ a, a < dataAddr k d.rxWr.toNat ∨ dataAddr k proj ≤ a → Memory.read buf' a = Memory.read s.buf a))

/-- EV_PKVALID outside RX_DATA (R171): nothing. -/
def Obligations.PacketValidIgnoredOutsideData : Prop :=
  ∀ (s : State) (hnd : U8) (d : Context), s.devs[hnd.toNat]? = some d → d.mode ≠ 2#4 →
    exec (.evPkvalid hnd) s = .next s

/-- EV_PKVALID in RX_DATA with TAG, PROMOTE and DISCARD (R167 to R170): a cursor past the declared length is RXFAIL with
no FIFO byte read; otherwise the rest of the payload, the length and the two metadata bytes are stored in the active
buffer and every other byte of memory is as before; the slots rotate where a spare is there and no completed buffer is
pending, else only the cursor is reset; RX_COMPLETE and `sig_link` in both cases. -/
def Obligations.PacketValidCompletes : Prop :=
  ∀ (s : State) (hnd : U8) (d : Context) (len : U8) (tape : List U8),
    s.devs[hnd.toNat]? = some d → d.initialized = true → d.mode = 2#4 → d.answers = len :: tape →
    let n := len.toNat - d.rxWr.toNat
    let d1 : Context := { d with answers := tape, bus := d.bus ++ [.read .rxlen len] }
    (len.toNat < d.rxWr.toNat →
      exec (.evPkvalid hnd) s = .next (s.setDev hnd.toNat { d1 with
        mode := 4#4, errorCount := d.errorCount + 1#32, sigLink := true })) ∧
    (d.rxWr.toNat ≤ len.toNat → ∀ k, d.rxActive = some k → k < s.params.nBuf →
      let bytes := d1.peek hnd.toNat n
      let d2 : Context := { d1 with
        answers := tape.drop n, reads := d.reads + (n - tape.length)
        bus := d1.bus ++ (if n = 0 then [] else [.burstRead .fifo bytes])
        rssiLast := d.latRssi, rxWr := 0#9, mode := 3#4, sigLink := true }
      ∃ buf', (d.rxNext ≠ none → d.rxCompleted = none →
            exec (.evPkvalid hnd) s = .next { s.setDev hnd.toNat { d2 with
              rxCompleted := d.rxActive, rxActive := d.rxNext, rxNext := none } with buf := buf' }) ∧
        (d.rxNext = none ∨ d.rxCompleted ≠ none →
            exec (.evPkvalid hnd) s = .next { s.setDev hnd.toNat d2 with buf := buf' }) ∧
        Memory.read buf' (lenAddr k) = len ∧
        (∀ i, i < n → Memory.read buf' (dataAddr k (d.rxWr.toNat + i)) = bytes.getD i 0#8) ∧
        Memory.read buf' (dataAddr k len.toNat) = d.latRssi ∧
        Memory.read buf' (dataAddr k (len.toNat + 1)) = d.latAfc ∧
        (∀ a, a ≠ lenAddr k → a < dataAddr k d.rxWr.toNat ∨ dataAddr k (len.toNat + 2) ≤ a →
          Memory.read buf' a = Memory.read s.buf a))

/-- EV_TXFFAEM (R183): in mode 5 `min(tx_wr - tx_rd, TX_TOPUP)` payload bytes go to the FIFO and `tx_rd` advances by as
many; none when the packet is all written; in every other mode the flag is ignored. -/
def Obligations.AlmostEmptyTopsUp : Prop :=
  ∀ (s : State) (hnd : U8) (d : Context), s.devs[hnd.toNat]? = some d → d.initialized = true →
    let n := min (d.txWr.toNat - d.txRd.toNat) (64 - s.params.txLoWm - 1)
    (d.mode = 5#4 → n = 0 → exec (.evTxffaem hnd) s = .next s) ∧
    (d.mode = 5#4 → 0 < n → d.txWr.toNat ≤ 255 → ∀ k, d.txPkt = some k → k < s.params.nBuf →
      exec (.evTxffaem hnd) s = .next (s.setDev hnd.toNat { d with
        txRd := BitVec.ofNat 9 (d.txRd.toNat + n)
        bus := d.bus ++ [.burstWrite .fifo
          ((List.range n).map fun i => Memory.read s.buf (dataAddr k (d.txRd.toNat + i)))] })) ∧
    (d.mode ≠ 5#4 → exec (.evTxffaem hnd) s = .next s)

/-- EV_PKSENT (R184): mode 5 goes to TX_COMPLETE and raises `sig_link`, whatever the cursors; in every other mode the flag
is ignored. -/
def Obligations.PacketSentRule : Prop :=
  ∀ (s : State) (hnd : U8) (d : Context), s.devs[hnd.toNat]? = some d → d.initialized = true →
    (d.mode = 5#4 → exec (.evPksent hnd) s = .next (s.setDev hnd.toNat { d with mode := 6#4, sigLink := true })) ∧
    (d.mode ≠ 5#4 → exec (.evPksent hnd) s = .next s)

/-- EV_POR (R124): in every mode only `initialized` and `txtimeout_req` are cleared; a whole interrupt whose status word
has the flag does nothing else either, whatever other flags it has. -/
def Obligations.PowerOnResetObserved : Prop :=
  ∀ (s : State) (hnd : U8) (d : Context), s.devs[hnd.toNat]? = some d → d.initialized = true →
    exec (.evPor hnd) s = .next (s.setDev hnd.toNat { d with initialized := false, txtimeoutReq := false }) ∧
    ∀ dev is1 is2 : U8, is2.getLsbD 0 = true →
      dispatch hnd dev is1 is2 s = .next (s.setDev hnd.toNat { d with
        initialized := false, txtimeoutReq := false, stDev := dev, stIs1 := is1, stIs2 := is2
        bus := d.bus ++ [.burstRead .devstat [dev, is1, is2]] })

/-! ## The dispatcher as a whole -/

/-- An interrupt on an uninitialised device (R142): no bus transfer, nothing changes but `txtimeout_req`. -/
def Obligations.UninitializedIgnoresInterrupts : Prop :=
  ∀ (s : State) (hnd dev is1 is2 : U8) (rest : List Input) (d : Context),
    s.inputs = .irq hnd dev is1 is2 :: rest → s.devs[hnd.toNat]? = some d → d.initialized = false →
    step s = .next ({ s with inputs := rest }.setDev hnd.toNat { d with txtimeoutReq := false })

/-- An interrupt in a terminal mode (R132): after the status burst and the power-on-reset test nothing changes; a pending
timeout request is dropped. -/
def Obligations.TerminalModeIgnoresFlags : Prop :=
  ∀ (s : State) (hnd dev is1 is2 : U8) (d : Context), s.devs[hnd.toNat]? = some d → d.initialized = true →
    isTerminal d.mode = true → is2.getLsbD 0 = false →
    dispatch hnd dev is1 is2 s = .next (s.setDev hnd.toNat { d with
      txtimeoutReq := false, stDev := dev, stIs1 := is1, stIs2 := is2
      bus := d.bus ++ [.burstRead .devstat [dev, is1, is2]] })

/-- An interrupt in an unrecognised mode (R133): RXARM, no flag acted on, no signal, `error_count` as it was. -/
def Obligations.UnrecognisedModeRecovers : Prop :=
  ∀ (s : State) (hnd dev is1 is2 : U8) (d : Context), s.devs[hnd.toNat]? = some d → d.initialized = true →
    8 ≤ d.mode.toNat → is2.getLsbD 0 = false →
    dispatch hnd dev is1 is2 s = .next (s.setDev hnd.toNat (rxarm s.params { d with
      txtimeoutReq := false, stDev := dev, stIs1 := is1, stIs2 := is2
      bus := d.bus ++ [.burstRead .devstat [dev, is1, is2]] }))

/-- A SEND timeout request (R136, R130 a): in TX_DATA it forces TX_ERROR before any flag is looked at; in another
recognised mode it is cleared and the invocation goes on as without it. -/
def Obligations.TimeoutRequestForcesTxError : Prop :=
  ∀ (s : State) (hnd dev is1 is2 : U8) (d : Context), s.devs[hnd.toNat]? = some d → d.initialized = true →
    is2.getLsbD 0 = false →
    (d.mode = txData → dispatch hnd dev is1 is2 (s.setDev hnd.toNat { d with txtimeoutReq := true }) =
      .next (s.setDev hnd.toNat { d with
        mode := txError, sigLink := true, txtimeoutReq := false, stDev := dev, stIs1 := is1, stIs2 := is2
        bus := d.bus ++ [.burstRead .devstat [dev, is1, is2]] })) ∧
    (d.mode ≠ txData →
      dispatch hnd dev is1 is2 (s.setDev hnd.toNat { d with txtimeoutReq := true }) =
        dispatch hnd dev is1 is2 (s.setDev hnd.toNat { d with txtimeoutReq := false }))

/-- The order of R126 and R130: in the RX in-progress modes a fault acts alone, otherwise preamble, sync, almost-full and
packet-valid act in this order; in TX_DATA a fault acts alone, otherwise almost-empty, then packet-sent. -/
def Obligations.HandlersActInFixedOrder : Prop :=
  ∀ (s : State) (hnd dev is1 is2 : U8) (d : Context), s.devs[hnd.toNat]? = some d → d.initialized = true →
    d.txtimeoutReq = false → is2.getLsbD 0 = false →
    let S := statusWord dev is1 is2
    let entered := s.setDev hnd.toNat (d.enterDispatcher dev is1 is2)
    let fires := fun (n : Nat) (i : Instr) (u : State) =>
      if S.getLsbD n then exec i u else Host.Outcome.next (φ := Fault) (ρ := Refusal) u
    (isRxInProgress d.mode = true → (S.getLsbD 23 = true ∨ S.getLsbD 22 = true) →
      dispatch hnd dev is1 is2 s = exec (.evFfovfl hnd) entered) ∧
    (isRxInProgress d.mode = true → S.getLsbD 23 = false → S.getLsbD 22 = false →
      dispatch hnd dev is1 is2 s =
        bindRes (fires 6 (.evPreaval hnd) entered) fun u1 =>
        bindRes (fires 7 (.evSwdet hnd) u1) fun u2 =>
        bindRes (fires 12 (.evRxffafull hnd) u2) fun u3 => fires 9 (.evPkvalid hnd) u3) ∧
    (d.mode = txData → (S.getLsbD 23 = true ∨ S.getLsbD 22 = true) →
      dispatch hnd dev is1 is2 s = exec (.evFfovfl hnd) entered) ∧
    (d.mode = txData → S.getLsbD 23 = false → S.getLsbD 22 = false →
      dispatch hnd dev is1 is2 s =
        bindRes (fires 13 (.evTxffaem hnd) entered) fun u1 => fires 10 (.evPksent hnd) u1)

/-- Entering a terminal mode raises `sig_link` (R134, which marks it as the spec's own inference for the two error
entries). -/
def Obligations.TerminalEntrySignals : Prop :=
  ∀ (s t : State) (hnd dev is1 is2 : U8) (d e : Context), s.devs[hnd.toNat]? = some d →
    dispatch hnd dev is1 is2 s = .next t → t.devs[hnd.toNat]? = some e →
    isTerminal e.mode = true → e.mode ≠ d.mode → e.sigLink = true

/-- Bounded work (R135): one dispatcher invocation makes at most nine bus transfers, calls the pool not at all, answers
nothing, takes no signal, and counts at most one fault (spec/60_exceptions.md R283 c). -/
def Obligations.DispatcherWorkIsBounded : Prop :=
  ∀ (s t : State) (hnd dev is1 is2 : U8) (d e : Context), s.devs[hnd.toNat]? = some d →
    dispatch hnd dev is1 is2 s = .next t → t.devs[hnd.toNat]? = some e →
    e.bus.length ≤ d.bus.length + 9 ∧
    t.poolFree = s.poolFree ∧ t.poolPicks = s.poolPicks ∧ t.poolCalls = s.poolCalls ∧ t.out = s.out ∧
    e.sigTxdone = d.sigTxdone ∧ (d.sigLink = true → e.sigLink = true) ∧
    (e.errorCount = d.errorCount ∨ (e.errorCount = d.errorCount + 1#32 ∧ e.mode = rxError))

/-! ## Bring-up, INIT, FORCE_RESET -/

/-- BRINGUP that succeeds (R206, R312): the whole table, and the chip programmed by 46 + N_CR - 6 register writes, each
of them given, in the order of R206; the identity read is the expected one. (HASH32 is opaque, log 10; one serial number
for all instances, log 29; the record `bus` is the model's, log 14.) -/
def Obligations.BringupSuccessTable : Prop :=
  ∀ (s t : State) (h : Nat) (d d0 : Context), s.params.wf = true → s.devs[h]? = some d0 →
    bringup h d s = (.ok, t) →
    ∃ e : Context, t.devs[h]? = some e ∧ (∀ j, j ≠ h → t.devs[j]? = s.devs[j]?) ∧
      e.initialized = true ∧ e.mode = 0#4 ∧
      (d.rxActive ≠ none → e.rxActive = d.rxActive ∧ t.poolFree = s.poolFree) ∧
      (d.rxActive = none → e.rxActive = s.poolAnswer ∧ s.poolAnswer ≠ none ∧ t.poolFree = s.poolTaken.poolFree) ∧
      e.rxNext = d.rxNext ∧ e.rxCompleted = d.rxCompleted ∧
      e.rxWr = 0#9 ∧ e.txRd = 0#9 ∧ e.txWr = 0#9 ∧ e.txq = none ∧ e.txPkt = none ∧
      e.txSuccess = false ∧ e.txtimeoutReq = false ∧ e.sigLink = false ∧
      e.sigTxdone = d.sigTxdone ∧ e.sendWait = d.sendWait ∧ e.recvWait = d.recvWait ∧
      e.sendTimer = d.sendTimer ∧ e.recvTimer = d.recvTimer ∧
      e.cfg = { d.cfg with deviceId := Config.hash32 s.serial } ∧
      e.phy = { row := rowsel s.params d.cfg.bitrate
                byteTimeout := byteTimeout s.params (phyRow s.params (rowsel s.params d.cfg.bitrate)).bitrate
                carrier := carrierValue d.cfg d.cfg.centerFreq
                band := (freqToRegs s.params (carrierValue d.cfg d.cfg.centerFreq)
                  (bandMult s.params (carrierValue d.cfg d.cfg.centerFreq))).1
                chan := (freqToRegs s.params (carrierValue d.cfg d.cfg.centerFreq)
                  (bandMult s.params (carrierValue d.cfg d.cfg.centerFreq))).2.1
                freqStepQ := (freqToRegs s.params (carrierValue d.cfg d.cfg.centerFreq)
                  (bandMult s.params (carrierValue d.cfg d.cfg.centerFreq))).2.2
                txpow := BitVec.ofNat 3 (min d.cfg.maxPower.toNat 7) } ∧
      e.ien1 = 0x92#8 ∧ e.ien2 = 0xC1#8 ∧
      e.stDev = d.stDev ∧ e.stIs1 = d.stIs1 ∧ e.stIs2 = d.stIs2 ∧
      e.latRssi = d.latRssi ∧ e.latAfc = d.latAfc ∧ e.rssiLast = d.rssiLast ∧
      e.resetCount = d.resetCount ∧ e.errorCount = d.errorCount ∧ e.supervisorCounter = d.supervisorCounter ∧
      (∀ a, Memory.read t.buf a = Memory.read s.buf a) ∧
      let p := s.params
      let id := Config.hash32 s.serial
      let row := phyRow p (rowsel p d.cfg.bitrate)
      let f := carrierValue d.cfg d.cfg.centerFreq
      let r := freqToRegs p f (bandMult p f)
      ∃ junk : List U8, junk.length = 3 ∧ ∃ ops, e.bus = d.bus ++ ops ∧ writeCount ops = 46 + p.nCr - 6 ∧ ops =
        [.write .opmode p.chipVal.opSwReset, .burstRead .devstat junk,
          .read .devtype p.expectDevType, .read .devver p.expectDevVer,
          .write .xtalcap d.cfg.xtalCap, .write .datactl p.chipVal.datactlPkt, .write .hdrctl p.chipVal.hdrctl4bBcast,
          .write .preamlen 12#8, .write .preath 6#8,
          .write .sync3 (p.syncWord.extractLsb' 24 8), .write .sync2 (p.syncWord.extractLsb' 16 8),
          .write .sync1 (p.syncWord.extractLsb' 8 8), .write .sync0 (p.syncWord.extractLsb' 0 8),
          .write .chkhdr3 (id.extractLsb' 24 8), .write .chkhdr2 (id.extractLsb' 16 8),
          .write .chkhdr1 (id.extractLsb' 8 8), .write .chkhdr0 (id.extractLsb' 0 8),
          .write .hdren3 0xFF#8, .write .hdren2 0xFF#8, .write .hdren1 0xFF#8, .write .hdren0 0xFF#8,
          .write .rxffAfull (BitVec.ofNat 8 p.rxWm), .write .txffAem (BitVec.ofNat 8 p.txLoWm),
          .write .ifbw row.ifFilter, .write .afcGear row.afcGear, .write .crGear row.crGear] ++
        (row.crOsr.zipIdx.map fun c => .write (.crOsr c.2) c.1) ++
        [.write .afcLimit row.afcLimiter,
          .write .txdr1 (row.txRate.extractLsb' 8 8), .write .txdr0 (row.txRate.extractLsb' 0 8),
          .write .modctl1 (row.modCtl ||| p.whitenMask), .write .fdev row.fdev,
          .write .bandsel r.1, .write .carrier1 (r.2.1.extractLsb' 8 8), .write .carrier0 (r.2.1.extractLsb' 0 8),
          .write .txpower (p.txpowEnum.getD (min d.cfg.maxPower.toNat 7) 0#8),
          .write .ien1 0x00#8, .write .ien2 0x00#8, .write .opmode p.chipVal.opIdle,
          .write .fifoctl p.chipVal.ffclrBoth, .write .fifoctl 0x00#8,
          .write .ien1 0x92#8, .write .ien2 0xC1#8, .write .opmode p.chipVal.opRxOn]

/-- BRINGUP that fails (R206, R207, R208, R274): the silicon check comes first, then the frequency range, then the buffer;
`initialized` is 0, the chip got the software reset and no other write, and no other register changed (R312). -/
def Obligations.BringupFailureChecks : Prop :=
  ∀ (s : State) (h : Nat) (d : Context) (j0 j1 j2 ty ve : U8) (tape : List U8),
    d.answers = j0 :: j1 :: j2 :: ty :: ve :: tape →
    let probed : Context := { d with
      initialized := false, answers := tape
      bus := d.bus ++ [.write .opmode s.params.chipVal.opSwReset, .burstRead .devstat [j0, j1, j2],
        .read .devtype ty, .read .devver ve] }
    let silicon := ty = s.params.expectDevType ∧ ve = s.params.expectDevVer
    let range := s.params.freqLoLimit ≤ d.cfg.minFreq ∧ d.cfg.minFreq ≤ d.cfg.maxFreq ∧
      d.cfg.maxFreq ≤ s.params.freqHiLimit
    (¬silicon → bringup h d s = (.errSilicon, s.setDev h probed)) ∧
    (silicon → ¬range → bringup h d s = (.errFreqRange, s.setDev h probed)) ∧
    (silicon → range → d.rxActive = none → s.poolAnswer = none →
      bringup h d s = (.errNoBuffer, s.poolTaken.setDev h probed)) ∧
    (silicon → range → (d.rxActive ≠ none ∨ s.poolAnswer ≠ none) → (bringup h d s).1 = .ok)

/-- INIT (R204, R205): refused while a SEND or RECEIVE is outstanding; else the configuration is the settings record, the
counters are 0, the sentinel is set, BRINGUP runs, and the handle or the error is answered. -/
def Obligations.InitOperation : Prop :=
  ∀ (s : State) (hnd : U8) (d : Context), s.devs[hnd.toNat]? = some d →
    (d.sendWait = true ∨ d.recvWait = true →
      exec (.init hnd) s = .next (s.respond 0x01#8 hnd .errBusy 0#32)) ∧
    (d.sendWait = false → d.recvWait = false →
      let d1 : Context := { d with
        cfg := { minFreq := s.settings.minFreq, maxFreq := s.settings.maxFreq, bitrate := s.settings.bitrate
                 centerFreq := s.settings.centerFreq, maxPower := s.settings.maxPower
                 xtalCap := s.settings.xtalCap, deviceId := d.cfg.deviceId }
        resetCount := 0#16, errorCount := 0#32, supervisorCounter := 0#32, rssiLast := 0x81#8 }
      ((bringup hnd.toNat d1 s).1 = .ok →
        exec (.init hnd) s = .next ((bringup hnd.toNat d1 s).2.respond 0x01#8 hnd .ok (hnd.zeroExtend 32))) ∧
      ((bringup hnd.toNat d1 s).1 ≠ .ok →
        exec (.init hnd) s = .next ((bringup hnd.toNat d1 s).2.respond 0x01#8 hnd
          (bringup hnd.toNat d1 s).1 0#32)))

/-- INIT on a chip that identifies itself, with a legal range and a buffer: it answers OK and the device is in
receive-wait with the loaded configuration. (That every instance reads the one serial number is the model's choice, log
29.) -/
def Obligations.InitBringsTheDeviceUp : Prop :=
  ∀ (s : State) (hnd : U8) (d : Context) (j0 j1 j2 ty ve : U8) (tape : List U8),
    s.devs[hnd.toNat]? = some d → d.sendWait = false → d.recvWait = false →
    d.answers = j0 :: j1 :: j2 :: ty :: ve :: tape →
    ty = s.params.expectDevType → ve = s.params.expectDevVer →
    s.params.freqLoLimit ≤ s.settings.minFreq → s.settings.minFreq ≤ s.settings.maxFreq →
    s.settings.maxFreq ≤ s.params.freqHiLimit → (d.rxActive ≠ none ∨ s.poolAnswer ≠ none) →
    ∃ t e, exec (.init hnd) s = .next t ∧ t.devs[hnd.toNat]? = some e ∧
      t.out = s.out ++ [responseFrame 0x01#8 hnd .ok (hnd.zeroExtend 32)] ∧
      e.initialized = true ∧ e.mode = rxWaitPreamble ∧ e.rxActive ≠ none ∧
      e.cfg.minFreq = s.settings.minFreq ∧ e.cfg.maxFreq = s.settings.maxFreq ∧
      e.cfg.bitrate = s.settings.bitrate ∧ e.cfg.deviceId = Config.hash32 s.serial ∧
      e.resetCount = 0#16 ∧ e.errorCount = 0#32 ∧ e.supervisorCounter = 0#32 ∧ e.rssiLast = 0x81#8 ∧
      e.rxCompleted = d.rxCompleted ∧ e.rxNext = d.rxNext ∧ t.buf = s.buf

/-- FORCE_RESET (R219): the count goes up by one whatever BRINGUP answers, an undelivered completed buffer is recycled to
`rx_next` or to the pool, BRINGUP runs with the stored configuration on what that leaves, a stranded SEND is woken with
failure, a waiting RECEIVE keeps waiting, and the new count is answered with the status of this BRINGUP. -/
def Obligations.ForceResetOperation : Prop :=
  ∀ (s : State) (hnd : U8) (d : Context), s.devs[hnd.toNat]? = some d →
    let count := d.resetCount + 1#16
    let d1 : Context := { d with
      resetCount := count
      rxNext := if d.rxCompleted ≠ none ∧ d.rxNext = none then d.rxCompleted else d.rxNext
      rxCompleted := none }
    ∃ s1, ((d.rxCompleted = none ∨ d.rxNext = none) → s1 = s) ∧
      (∀ k, d.rxCompleted = some k → d.rxNext ≠ none → s1 = s.poolRelease k ∧ k ∈ s1.poolFree) ∧
    let st := (bringup hnd.toNat d1 s1).1
    let up := (bringup hnd.toNat d1 s1).2
    ∃ b e, up.devs[hnd.toNat]? = some b ∧
      e = (if d.sendWait then { b with txSuccess := false, sigTxdone := true } else b) ∧
      exec (.forceReset hnd) s =
        .next ((up.setDev hnd.toNat e).respond 0x20#8 hnd st (count.zeroExtend 32)) ∧
      (st = .ok ↔ e.initialized = true) ∧
      e.resetCount = count ∧ e.errorCount = d.errorCount ∧
      e.supervisorCounter = d.supervisorCounter ∧ e.rssiLast = d.rssiLast ∧
      e.cfg.minFreq = d.cfg.minFreq ∧ e.cfg.maxFreq = d.cfg.maxFreq ∧ e.cfg.bitrate = d.cfg.bitrate ∧
      e.cfg.centerFreq = d.cfg.centerFreq ∧ e.cfg.maxPower = d.cfg.maxPower ∧ e.cfg.xtalCap = d.cfg.xtalCap ∧
      e.rxNext = d1.rxNext ∧ e.rxCompleted = none ∧
      (d.sendWait = true → e.sigTxdone = true ∧ e.txSuccess = false) ∧
      (d.sendWait = false → e.sigTxdone = d.sigTxdone) ∧
      e.sendWait = d.sendWait ∧ e.recvWait = d.recvWait ∧ e.recvTimer = d.recvTimer ∧
      (st = .ok → e.mode = rxWaitPreamble ∧ e.txq = none ∧ e.txPkt = none ∧ e.sigLink = false) ∧
      up.buf = s.buf ∧ up.out = s.out

/-- FORCE_RESET completes with OK on a chip that identifies itself, with a legal stored range and a buffer being filled.
-/
def Obligations.ForceResetBringsTheDeviceUp : Prop :=
  ∀ (s : State) (hnd : U8) (d : Context) (j0 j1 j2 ty ve : U8) (tape : List U8),
    s.devs[hnd.toNat]? = some d → d.answers = j0 :: j1 :: j2 :: ty :: ve :: tape →
    ty = s.params.expectDevType → ve = s.params.expectDevVer →
    s.params.freqLoLimit ≤ d.cfg.minFreq → d.cfg.minFreq ≤ d.cfg.maxFreq →
    d.cfg.maxFreq ≤ s.params.freqHiLimit → d.rxActive ≠ none →
    ∃ t e, exec (.forceReset hnd) s = .next t ∧ t.devs[hnd.toNat]? = some e ∧
      t.out = s.out ++ [responseFrame 0x20#8 hnd .ok ((d.resetCount + 1#16).zeroExtend 32)] ∧
      e.initialized = true ∧ e.mode = rxWaitPreamble ∧ e.rxActive = d.rxActive ∧
      e.txq = none ∧ e.txPkt = none ∧ e.rxWr = 0#9

/-! ## PHY configuration -/

/-- ROWSEL (R242): the row selected is the smallest tabulated rate at least the requested one, or the table's maximum when
the request exceeds it. -/
def Obligations.RowSelection : Prop :=
  ∀ (p : Params) (bps : U32), p.wf = true →
    phyRow p (rowsel p bps) ∈ p.phyTable ∧ rowsel p bps < p.phyTable.length ∧
    ((∃ r ∈ p.phyTable, bps ≤ r.bitrate) →
      bps ≤ (phyRow p (rowsel p bps)).bitrate ∧
      ∀ r ∈ p.phyTable, bps ≤ r.bitrate → (phyRow p (rowsel p bps)).bitrate ≤ r.bitrate) ∧
    ((∀ r ∈ p.phyTable, r.bitrate < bps) →
      ∀ r ∈ p.phyTable, r.bitrate ≤ (phyRow p (rowsel p bps)).bitrate)

/-- SET_DATARATE (R243, R244): refused on an uninitialised device; else every field of the selected row is written in
order, the whitening bit ORed in, `phy.row` and `phy.byte_timeout` recorded, the row's bitrate answered; nothing else
changes. -/
def Obligations.SetDatarateOperation : Prop :=
  ∀ (s : State) (hnd : U8) (d : Context) (bps : U32), s.devs[hnd.toNat]? = some d →
    (d.initialized = false → exec (.setDatarate hnd bps) s = .next (s.respond 0x10#8 hnd .errNotInit 0#32)) ∧
    (d.initialized = true → d.preempts = [] →
      let r := phyRow s.params (rowsel s.params bps)
      exec (.setDatarate hnd bps) s = .next ((s.setDev hnd.toNat { d with
          phy := { d.phy with row := rowsel s.params bps, byteTimeout := byteTimeout s.params r.bitrate }
          bus := d.bus ++
            [.write .ifbw r.ifFilter, .write .afcGear r.afcGear, .write .crGear r.crGear] ++
            (r.crOsr.zipIdx.map fun c => .write (.crOsr c.2) c.1) ++
            [.write .afcLimit r.afcLimiter,
             .write .txdr1 (r.txRate.extractLsb' 8 8), .write .txdr0 (r.txRate.extractLsb' 0 8),
             .write .modctl1 (r.modCtl ||| s.params.whitenMask), .write .fdev r.fdev] }).respond 0x10#8 hnd .ok r.bitrate))

/-- SET_CARRIER (R250, R251): refused on an uninitialised device; else the frequency is clamped into the configured range,
the band multiplier chosen on the clamped value, three registers written and four `phy` fields recorded, and the clamped
frequency answered; nothing else changes. -/
def Obligations.SetCarrierOperation : Prop :=
  ∀ (s : State) (hnd : U8) (d : Context) (hz : U32), s.devs[hnd.toNat]? = some d →
    (d.initialized = false → exec (.setCarrier hnd hz) s = .next (s.respond 0x11#8 hnd .errNotInit 0#32)) ∧
    (d.initialized = true → d.preempts = [] →
      ∃ f : U32, f.toNat = min (max hz.toNat d.cfg.minFreq.toNat) d.cfg.maxFreq.toNat ∧
        let r := freqToRegs s.params f (if 480000000 ≤ f.toNat then s.params.highBandMult else 1)
        exec (.setCarrier hnd hz) s = .next ((s.setDev hnd.toNat { d with
          phy := { d.phy with band := r.1, chan := r.2.1, carrier := f, freqStepQ := r.2.2 }
          bus := d.bus ++ [.write .bandsel r.1, .write .carrier1 (r.2.1.extractLsb' 8 8),
            .write .carrier0 (r.2.1.extractLsb' 0 8)] }).respond 0x11#8 hnd .ok f))

/-- SET_TXPOWER (R255): refused on an uninitialised device; else the level saturated to 7 goes through TXPOW_ENUM to the
chip, is recorded and answered; nothing else changes. -/
def Obligations.SetTxpowerOperation : Prop :=
  ∀ (s : State) (hnd : U8) (d : Context) (level : U8), s.devs[hnd.toNat]? = some d →
    (d.initialized = false → exec (.setTxpower hnd level) s = .next (s.respond 0x13#8 hnd .errNotInit 0#32)) ∧
    (d.initialized = true → d.preempts = [] →
      let l := min level.toNat 7
      exec (.setTxpower hnd level) s = .next ((s.setDev hnd.toNat { d with
        phy := { d.phy with txpow := BitVec.ofNat 3 l }
        bus := d.bus ++ [.write .txpower (s.params.txpowEnum.getD l 0#8)] }).respond 0x13#8 hnd .ok (BitVec.ofNat 32 l)))

/-- The REFCFG instances of the conversions. The law of the frequency pair (R252) holds of the REFCFG formulas inside
the REFCFG limits, and there the frequency read back is not above the one set. RSSI_CONV (R165) is half the reading,
rounded down, less 122. AFC_CONV (R166) is the low byte of `raw * step / 4` rounded toward zero, the readings being
those of V70 to V76. (The formulas are the reference instance of the spec, not properties of PRLINK.) -/
def Obligations.ReferenceConversionLaw : Prop :=
  (∀ p : Params, p.freqConv = .refcfg → p.highBandMult = 2 → p.freqLoLimit = 240000000#32 →
    p.freqHiLimit = 930000000#32 →
    FreqLaw p ∧
    ∀ f : U32, p.freqLoLimit ≤ f → f ≤ p.freqHiLimit →
      (regsToFreq p (freqToRegs p f (bandMult p f)).1 (freqToRegs p f (bandMult p f)).2.1).toNat ≤ f.toNat) ∧
  (∀ (p : Params) (r : U8), p.rssiConv = .refcfg → (rssiConv p r).toInt = (r.toNat / 2 : Nat) - 122) ∧
  (∀ (p : Params) (raw : Int) (step : U16), p.afcConv = .refcfg →
    ∃ hz : Int, afcConv p raw step = BitVec.ofInt 8 hz ∧
      (0 ≤ raw → 0 ≤ hz ∧ 4 * hz ≤ raw * step.toNat ∧ raw * step.toNat < 4 * hz + 4) ∧
      (raw ≤ 0 → hz ≤ 0 ∧ raw * step.toNat ≤ 4 * hz ∧ 4 * hz - 4 < raw * step.toNat)) ∧
  (∀ v ∈ [((0xFF#8 : U8), (0xC0#8 : U8), (625#16 : U16), (-1 : Int), (0x64#8 : U8)), (0xFF#8, 0xFF#8, 625#16, -1, 0x64#8),
      (0x00#8, 0x40#8, 625#16, 1, 0x9C#8), (0x00#8, 0x80#8, 1250#16, 2, 0x71#8),
      (0x80#8, 0x00#8, 625#16, -512, 0x80#8), (0x7F#8, 0xC0#8, 625#16, 511, 0xE3#8),
      (0x00#8, 0x00#8, 625#16, 0, 0x00#8)],
    afcTicks refcfg v.1 v.2.1 = v.2.2.2.1 ∧ afcConv refcfg v.2.2.2.1 v.2.2.1 = v.2.2.2.2)

/-- SET_CARRIER then GET_CARRIER (R252, the source's round-trip property): for every conversion pair with the law, the
frequency recorded and answered by SET_CARRIER is `hz` clamped into the configured range, and the one answered by
GET_CARRIER lies within one frequency step of it. -/
def Obligations.CarrierRoundTrip : Prop :=
  ∀ (s : State) (hnd : U8) (d : Context) (hz : U32), s.devs[hnd.toNat]? = some d → d.initialized = true →
    d.preempts = [] → FreqLaw s.params → s.params.freqLoLimit ≤ d.cfg.minFreq → d.cfg.minFreq ≤ d.cfg.maxFreq →
    d.cfg.maxFreq ≤ s.params.freqHiLimit →
    ∃ (t u : State) (e : Context) (f' : U32), exec (.setCarrier hnd hz) s = .next t ∧
      t.devs[hnd.toNat]? = some e ∧ exec (.getCarrier hnd) t = .next u ∧
      e.phy.carrier.toNat = min (max hz.toNat d.cfg.minFreq.toNat) d.cfg.maxFreq.toNat ∧
      t.out = s.out ++ [responseFrame 0x11#8 hnd .ok e.phy.carrier] ∧
      u.out = t.out ++ [responseFrame 0x12#8 hnd .ok f'] ∧
      d.cfg.minFreq ≤ e.phy.carrier ∧ e.phy.carrier ≤ d.cfg.maxFreq ∧
      4 * ((e.phy.carrier.toNat : Int) - f'.toNat).natAbs ≤ e.phy.freqStepQ.toNat

/-- PHY commands write only `phy` on PRLINK's side, wherever they are preempted (R327): the command up to its end or its
preemption, and the rest of a preempted one, whatever state it finds when it goes on, leave every other register, the
buffers and the pool as they are. (`phyJobs` and `preempts` hold the preemption, the model's choice, log 8.) -/
def Obligations.PhyCommandsWriteOnlyPhy : Prop :=
  ∀ (s : State) (hnd : U8) (d : Context), s.devs[hnd.toNat]? = some d →
    let phyOnly := fun r : Res => ∃ t e, r = .next t ∧ t.devs[hnd.toNat]? = some e ∧
      e = { d with phy := e.phy, bus := e.bus, phyJobs := e.phyJobs, preempts := e.preempts } ∧
      t = { s.setDev hnd.toNat e with out := t.out }
    (∀ i, (∃ x, i = .setDatarate hnd x) ∨ (∃ x, i = .setCarrier hnd x) ∨ (∃ x, i = .setTxpower hnd x) →
      phyOnly (exec i s)) ∧
    ∀ j, phyOnly (runAgent hnd (.phy j) s)

/-- PHY commands are not atomic (spec/20_memory.md R80): one preempted after `n` units and resumed with nothing in
between ends exactly as if it had not been preempted. (Preemption as data in `preempts` and `phyJobs` is the model's
choice, log 8.) -/
def Obligations.PreemptedPhyCommandResumes : Prop :=
  ∀ (s : State) (hnd : U8) (d : Context) (i : Instr) (n : Nat) (t : State), s.devs[hnd.toNat]? = some d →
    d.initialized = true → d.phyJobs = [] → d.preempts = [] →
    (∃ x, i = .setDatarate hnd x) ∨ (∃ x, i = .setCarrier hnd x) ∨ (∃ x, i = .setTxpower hnd x) →
    exec i s = .next t →
    (exec i (s.setDev hnd.toNat { d with preempts := [n] }) = .next t) ∨
    (∃ u, exec i (s.setDev hnd.toNat { d with preempts := [n] }) = .next u ∧ u.out = s.out ∧
      runAgent hnd (.phy 0) u = .next t)

/-! ## Tick, supervisor port, host stores -/

/-- The tick (R203): on every instance, a positive timer of a wait in progress goes down by one, a timer at 0 stays, the
timer of a wait not in progress stays, and nothing else changes. (That only waits in progress count is DEDUCED, log 16.)
-/
def Obligations.TickCountsDown : Prop :=
  ∀ (s : State) (rest : List Input), s.inputs = .tick :: rest →
    ∃ t, step s = .next t ∧ t = { s with inputs := rest, devs := t.devs } ∧ t.devs.length = s.devs.length ∧
      ∀ (h : Nat) (d : Context), s.devs[h]? = some d →
        ∃ e, t.devs[h]? = some e ∧ e = { d with sendTimer := e.sendTimer, recvTimer := e.recvTimer } ∧
          (d.sendWait = true → e.sendTimer.toNat = d.sendTimer.toNat - 1) ∧
          (d.sendWait = false → e.sendTimer = d.sendTimer) ∧
          (d.recvWait = true → e.recvTimer.toNat = d.recvTimer.toNat - 1) ∧
          (d.recvWait = false → e.recvTimer = d.recvTimer)

/-- The supervisor port (R287): the six registers are read without changing them; a write sets `supervisor_counter` and
nothing else. (The 32-bit width of the data, with `reset_count`, `mode`, `initialized` extended by zeros, is the model's
choice, log 24.) -/
def Obligations.SupervisorPortAccess : Prop :=
  ∀ (s : State) (hnd : U8) (d : Context) (rest : List Input), s.devs[hnd.toNat]? = some d →
    let s0 : State := { s with inputs := rest }
    (∀ r v, s.inputs = .supRead hnd r :: rest →
      ((r = .supervisorCounter ∧ v = d.supervisorCounter) ∨ (r = .resetCount ∧ v = d.resetCount.zeroExtend 32) ∨
       (r = .errorCount ∧ v = d.errorCount) ∨ (r = .byteTimeout ∧ v = d.phy.byteTimeout) ∨
       (r = .mode ∧ v = d.mode.zeroExtend 32) ∨ (r = .initialized ∧ v = if d.initialized then 1#32 else 0#32)) →
      step s = .next { s0 with out := s.out ++ [.supervisor v] }) ∧
    (∀ v, s.inputs = .supWrite hnd v :: rest →
      step s = .next (s0.setDev hnd.toNat { d with supervisorCounter := v }))

/-- A byte the host stores in a buffer is read back, and every other byte of memory is as before (spec/20_memory.md
R62). (The numbering of the BUF addresses is the model's choice, log 5.) -/
def Obligations.HostStoreReadsBack : Prop :=
  ∀ (s : State) (k : Nat) (f : BufField) (v : U8) (rest : List Input),
    s.inputs = .bufStore k f v :: rest → k < s.params.nBuf →
    ∃ buf', step s = .next { s with inputs := rest, buf := buf' } ∧ Memory.read buf' (fieldAddr k f) = v ∧
      (∀ a, a ≠ fieldAddr k f → Memory.read buf' a = Memory.read s.buf a) ∧
      (∀ k' f', (k', f') ≠ (k, f) → fieldAddr k' f' ≠ fieldAddr k f)

/-! ## Reset -/

/-- Hardware reset (spec/10_state.md R45): every register of every instance at the table's value. -/
def Obligations.ResetTable : Prop :=
  State.reset.devs ≠ [] ∧ ∀ d ∈ State.reset.devs,
    d.mode = 0#4 ∧ d.initialized = false ∧ d.txq = none ∧ d.txPkt = none ∧
    d.txRd = 0#9 ∧ d.txWr = 0#9 ∧ d.rxWr = 0#9 ∧
    d.txSuccess = false ∧ d.sendWait = false ∧ d.recvWait = false ∧ d.txtimeoutReq = false ∧
    d.sendTimer = 0#32 ∧ d.recvTimer = 0#32 ∧
    d.rxActive = none ∧ d.rxNext = none ∧ d.rxCompleted = none ∧
    d.latRssi.toInt = -127 ∧ d.rssiLast.toInt = -127 ∧ d.latAfc = 0#8 ∧
    d.supervisorCounter = 0#32 ∧ d.errorCount = 0#32 ∧ d.resetCount = 0#16 ∧
    d.cfg = ⟨0#32, 0#32, 0#32, 0#32, 0#8, 0#8, 0#32⟩ ∧ d.phy = ⟨0, 0#8, 0#16, 0#32, 0#16, 0#3, 0#32⟩ ∧
    d.stDev = 0#8 ∧ d.stIs1 = 0#8 ∧ d.stIs2 = 0#8 ∧ d.ien1 = 0#8 ∧ d.ien2 = 0#8 ∧
    d.sigLink = false ∧ d.sigTxdone = false

/-- The machine after hardware reset meets the invariant. (With the pool and the parameters the model chose: log 1, log
6.) -/
def Obligations.ResetMeetsInvariant : Prop := State.reset.Inv

/-! ## The whole machine -/

/-- Every step keeps the invariant (spec/10_state.md R21, R24, R28): from every state that meets it, in every
legal configuration. (A buffer is held once also because the model drops a return of a buffer the host does not hold: the
model's choice, log 6. What a legal configuration is goes beyond R9 in the bounds of log 19.) -/
def Obligations.StepKeepsInvariant : Prop :=
  ∀ s t : State, s.Inv → step s = .next t → t.Inv

/-- No step from a state that meets the invariant stops: PRLINK's rules are total (spec/20_memory.md R71, R77). -/
def Obligations.StepAlwaysCompletes : Prop :=
  ∀ s : State, s.Inv → ∃ t, step s = .next t

/-- Double-buffer isolation (spec/41_rx_pipeline.md R173; without the source's condition that a spare exists, which is
R173's own marked inference): no step of PRLINK, and nothing from outside but the host's own
store, changes a byte of a completed buffer that is pending delivery. -/
def Obligations.CompletedBufferIsolation : Prop :=
  ∀ (s t : State) (d : Context) (k : Nat) (f : BufField), s.Inv → step s = .next t →
    (∀ k' f' v rest, s.inputs ≠ .bufStore k' f' v :: rest) →
    d ∈ s.devs → d.rxCompleted = some k →
    Memory.read t.buf (fieldAddr k f) = Memory.read s.buf (fieldAddr k f)

/-- The transition table with its agents (spec/40_link_state_machine.md R121, spec/10_state.md R46): a step changes
`mode` of an instance only by a dispatcher invocation of that instance, along the dispatcher's rows: started by its
chip's interrupt, or by the timeout of its SEND, and then only from TX_DATA to TX_ERROR; by the wake of its sequencer,
to TX_DATA with a packet queued or to RX_WAIT_PREAMBLE without; or by a successful bring-up of INIT or FORCE_RESET, to
RX_WAIT_PREAMBLE. (`agentTurn` reads the agent off `inputs`, log 7.) -/
def Obligations.ModeChangesOnlyByTheTable : Prop :=
  ∀ (s t : State) (h : Nat) (d e : Context), s.Inv → step s = .next t → s.devs[h]? = some d → t.devs[h]? = some e →
    e.mode ≠ d.mode →
    (dispatcherMove d.mode e.mode = true ∧
      ∃ hnd dev is1 is2 rest, hnd.toNat = h ∧ s.inputs = .irq hnd dev is1 is2 :: rest ∧ d.initialized = true) ∨
    (d.mode = txData ∧ e.mode = txError ∧ agentTurn s h .send ∧
      d.initialized = true ∧ d.sendWait = true ∧ d.sigTxdone = false ∧ d.sendTimer = 0#32) ∨
    (agentTurn s h .receive ∧ d.recvWait = true ∧ d.sigLink = true ∧ d.initialized = true ∧
      ((d.txq ≠ none ∧ e.mode = txData) ∨ (d.txq = none ∧ e.mode = rxWaitPreamble))) ∨
    (e.mode = rxWaitPreamble ∧ e.initialized = true ∧ ∃ f rest, f.hnd.toNat = h ∧
      ((s.inputs = .command f :: rest ∧ f.opc = 0x01#8) ∨ (s.inputs = .supervisor f :: rest ∧ f.opc = 0x20#8)))

/-- Instances are independent (spec/60_exceptions.md R293): an instruction, an interrupt and an agent's unit of one
instance leave every other Device Context as it is, and do the same whatever another Device Context holds. -/
def Obligations.InstancesAreIndependent : Prop :=
  ∀ hnd : U8,
    let separate := fun f : State → Res =>
      ∀ (s t : State) (j : Nat) (x : Context), f s = .next t → j ≠ hnd.toNat →
        t.devs[j]? = s.devs[j]? ∧ f (s.setDev j x) = .next (t.setDev j x)
    (∀ i : Instr, i.hnd = hnd → separate (exec i)) ∧
    (∀ dev is1 is2 : U8, separate (dispatch hnd dev is1 is2)) ∧
    (∀ a : Agent, separate (runAgent hnd a))

/-- The parameters, the number of instances, the settings record and the serial number are written by no step but the
settings store's own change. (That State holds them is the model's choice, log 1, log 10.) -/
def Obligations.ParametersAreNeverWritten : Prop :=
  ∀ s t : State, step s = .next t →
    t.params = s.params ∧ t.devs.length = s.devs.length ∧ t.serial = s.serial ∧
    ((∀ r rest, s.inputs ≠ .settings r :: rest) → t.settings = s.settings)

/-! ## Whole packets -/

/-- Payload fidelity (spec/41_rx_pipeline.md R174): after almost-full interrupts and packet valid whose drained bytes
sum to the declared length, the active buffer holds the delivered bytes in order, the declared length, and the RSSI and
AFC bytes latched at sync detection; with a spare and nothing pending that buffer is the completed one. `words` are the
middle bytes of the status words: packet valid comes in an interrupt of its own, or, where the last almost-full burst
reaches the declared length, in the same status word (R163 b); a packet of length 0 has packet valid alone. -/
def Obligations.PayloadFidelity : Prop :=
  ∀ (s : State) (hnd len : U8) (d : Context) (k : Nat) (bursts : List (List U8)) (last tape words : List U8)
    (rest : List Input),
    s.devs[hnd.toNat]? = some d → d.initialized = true → d.mode = rxData → d.txtimeoutReq = false →
    d.rxWr = 0#9 → d.rxActive = some k → k < s.params.nBuf → 1 ≤ s.params.rxWm →
    (∀ b ∈ bursts, b.length = s.params.rxWm) →
    len.toNat = bursts.length * s.params.rxWm + last.length →
    d.answers = (bursts.flatMap fun b => len :: b) ++ (len :: last) ++ tape →
    ((last ≠ [] ∨ bursts = []) ∧ words = List.replicate bursts.length 0x10#8 ++ [0x02#8] ∨
     (last = [] ∧ bursts ≠ []) ∧ words = List.replicate (bursts.length - 1) 0x10#8 ++ [0x12#8]) →
    s.inputs = (words.map fun w => .irq hnd 0x00#8 w 0x00#8) ++ rest →
    ∃ t e, runSteps words.length s = .next t ∧ t.devs[hnd.toNat]? = some e ∧
      e.mode = rxComplete ∧ e.sigLink = true ∧ e.rxWr = 0#9 ∧ e.errorCount = d.errorCount ∧
      e.rssiLast = d.latRssi ∧ e.answers = tape ∧ t.inputs = rest ∧
      (∀ i, i < len.toNat → Memory.read t.buf (dataAddr k i) = (bursts.flatten ++ last).getD i 0#8) ∧
      Memory.read t.buf (lenAddr k) = len ∧
      Memory.read t.buf (dataAddr k len.toNat) = d.latRssi ∧
      Memory.read t.buf (dataAddr k (len.toNat + 1)) = d.latAfc ∧
      (d.rxNext ≠ none → d.rxCompleted = none →
        e.rxCompleted = some k ∧ e.rxActive = d.rxNext ∧ e.rxNext = none) ∧
      (d.rxNext = none ∨ d.rxCompleted ≠ none →
        e.rxCompleted = d.rxCompleted ∧ e.rxActive = d.rxActive ∧ e.rxNext = d.rxNext)

/-- What follows staging in the successful transmit sequence (after spec/42_tx_pipeline.md R186): from a state as
TXSTART leaves it, with `tx_rd = min(tx_wr, 64)`, `ceil(max(0, tx_wr - 64) / TX_TOPUP)` almost-empty interrupts and
packet-sent end in TX_COMPLETE with every payload byte from `tx_rd` on written to the FIFO once and in order, and
`tx_wr` as it was. (The pre-loaded bytes and `tx_wr` as the packet's length are TXSTART's, TxstartRule.) -/
def Obligations.TransmitSequence : Prop :=
  ∀ (s : State) (hnd : U8) (d : Context) (k n : Nat) (rest : List Input),
    s.devs[hnd.toNat]? = some d → d.initialized = true → d.mode = txData → d.txtimeoutReq = false →
    d.txPkt = some k → k < s.params.nBuf → s.params.txLoWm ≤ 62 →
    d.txWr.toNat ≤ 255 → d.txRd.toNat = min d.txWr.toNat 64 →
    n = (d.txWr.toNat - 64 + (64 - s.params.txLoWm - 1) - 1) / (64 - s.params.txLoWm - 1) →
    s.inputs = List.replicate n (.irq hnd 0x00#8 0x20#8 0x00#8) ++ (.irq hnd 0x00#8 0x04#8 0x00#8 :: rest) →
    ∃ t e, runSteps (n + 1) s = .next t ∧ t.devs[hnd.toNat]? = some e ∧
      e.mode = txComplete ∧ e.sigLink = true ∧ e.txRd = d.txWr ∧ e.txWr = d.txWr ∧ e.txPkt = some k ∧
      t.inputs = rest ∧ t.buf = s.buf ∧
      fifoBytes e.bus = fifoBytes d.bus ++
        (List.range (d.txWr.toNat - d.txRd.toNat)).map fun i => Memory.read s.buf (dataAddr k (d.txRd.toNat + i))
end

