-- ==== Sys2Proof/Laws/Encoding.lean ====
section
/-! SUPPORT. The fields of W0, and joining them back. -/

namespace Sys2Proof

/-- Concatenation as numbers. -/
theorem append_toNat {m n : Nat} (x : BitVec m) (y : BitVec n) : (x ++ y).toNat = x.toNat * 2 ^ n + y.toNat := by
  rw [BitVec.toNat_append, ← Nat.shiftLeft_add_eq_or_of_lt y.isLt, Nat.shiftLeft_eq]

theorem word0_toNat (o h : U8) : (word0 o h).toNat = o.toNat * 2 ^ 24 + h.toNat * 2 ^ 16 := by
  unfold word0; rw [append_toNat, append_toNat]; simp; omega

@[simp] theorem word0_opc (o h : U8) : (word0 o h).extractLsb' 24 8 = o := by
  apply BitVec.eq_of_toNat_eq
  simp [BitVec.extractLsb'_toNat, word0_toNat, Nat.shiftRight_eq_div_pow]; omega

@[simp] theorem word0_hnd (o h : U8) : (word0 o h).extractLsb' 16 8 = h := by
  apply BitVec.eq_of_toNat_eq
  simp [BitVec.extractLsb'_toNat, word0_toNat, Nat.shiftRight_eq_div_pow]; omega

@[simp] theorem word0_rsv (o h : U8) : (word0 o h).extractLsb' 0 16 = 0#16 := by
  apply BitVec.eq_of_toNat_eq
  simp [BitVec.extractLsb'_toNat, word0_toNat, Nat.shiftRight_eq_div_pow]; omega

/-- A word with RSV 0 is its OPC and HND joined again. -/
theorem word0_of_fields (w : U32) (h : w.extractLsb' 0 16 = 0#16) :
    word0 (w.extractLsb' 24 8) (w.extractLsb' 16 8) = w := by
  have h' := congrArg BitVec.toNat h
  have := w.isLt
  apply BitVec.eq_of_toNat_eq
  rw [word0_toNat]
  simp [BitVec.extractLsb'_toNat, Nat.shiftRight_eq_div_pow] at *
  omega

/-- A level operand read back from its word. -/
theorem level_extract (l : U8) : (0#24 ++ l : U32).extractLsb' 0 8 = l := by
  apply BitVec.eq_of_toNat_eq
  rw [BitVec.extractLsb'_toNat, append_toNat]; simp; exact l.isLt

/-- The level operand's word with A[31:8] cleared. -/
theorem level_mask (a : U32) : (0#24 ++ a.extractLsb' 0 8 : U32) = a &&& 0xFF#32 := by
  apply BitVec.eq_of_toNat_eq
  rw [append_toNat]; simp [BitVec.extractLsb'_toNat]
  exact (Nat.and_two_pow_sub_one_eq_mod _ 8).symm

end Sys2Proof
end

