-- ==== Sys2Proof/Laws/State.lean ====
section
/-! SUPPORT. One lemma per field per update of the Device Context and of the State: what each named update leaves and
what it writes. -/

namespace Sys2Proof.Machine

/-! ## Context.regWrites -/

@[simp] theorem Context.regWrites_mode (d : Context) (ws : List (ChipReg × U8)) :
    (d.regWrites ws).mode = d.mode := rfl
@[simp] theorem Context.regWrites_initialized (d : Context) (ws : List (ChipReg × U8)) :
    (d.regWrites ws).initialized = d.initialized := rfl
@[simp] theorem Context.regWrites_txq (d : Context) (ws : List (ChipReg × U8)) :
    (d.regWrites ws).txq = d.txq := rfl
@[simp] theorem Context.regWrites_txPkt (d : Context) (ws : List (ChipReg × U8)) :
    (d.regWrites ws).txPkt = d.txPkt := rfl
@[simp] theorem Context.regWrites_txRd (d : Context) (ws : List (ChipReg × U8)) :
    (d.regWrites ws).txRd = d.txRd := rfl
@[simp] theorem Context.regWrites_txWr (d : Context) (ws : List (ChipReg × U8)) :
    (d.regWrites ws).txWr = d.txWr := rfl
@[simp] theorem Context.regWrites_txSuccess (d : Context) (ws : List (ChipReg × U8)) :
    (d.regWrites ws).txSuccess = d.txSuccess := rfl
@[simp] theorem Context.regWrites_sendWait (d : Context) (ws : List (ChipReg × U8)) :
    (d.regWrites ws).sendWait = d.sendWait := rfl
@[simp] theorem Context.regWrites_recvWait (d : Context) (ws : List (ChipReg × U8)) :
    (d.regWrites ws).recvWait = d.recvWait := rfl
@[simp] theorem Context.regWrites_sendTimer (d : Context) (ws : List (ChipReg × U8)) :
    (d.regWrites ws).sendTimer = d.sendTimer := rfl
@[simp] theorem Context.regWrites_recvTimer (d : Context) (ws : List (ChipReg × U8)) :
    (d.regWrites ws).recvTimer = d.recvTimer := rfl
@[simp] theorem Context.regWrites_rxActive (d : Context) (ws : List (ChipReg × U8)) :
    (d.regWrites ws).rxActive = d.rxActive := rfl
@[simp] theorem Context.regWrites_rxNext (d : Context) (ws : List (ChipReg × U8)) :
    (d.regWrites ws).rxNext = d.rxNext := rfl
@[simp] theorem Context.regWrites_rxCompleted (d : Context) (ws : List (ChipReg × U8)) :
    (d.regWrites ws).rxCompleted = d.rxCompleted := rfl
@[simp] theorem Context.regWrites_rxWr (d : Context) (ws : List (ChipReg × U8)) :
    (d.regWrites ws).rxWr = d.rxWr := rfl
@[simp] theorem Context.regWrites_latRssi (d : Context) (ws : List (ChipReg × U8)) :
    (d.regWrites ws).latRssi = d.latRssi := rfl
@[simp] theorem Context.regWrites_latAfc (d : Context) (ws : List (ChipReg × U8)) :
    (d.regWrites ws).latAfc = d.latAfc := rfl
@[simp] theorem Context.regWrites_rssiLast (d : Context) (ws : List (ChipReg × U8)) :
    (d.regWrites ws).rssiLast = d.rssiLast := rfl
@[simp] theorem Context.regWrites_resetCount (d : Context) (ws : List (ChipReg × U8)) :
    (d.regWrites ws).resetCount = d.resetCount := rfl
@[simp] theorem Context.regWrites_errorCount (d : Context) (ws : List (ChipReg × U8)) :
    (d.regWrites ws).errorCount = d.errorCount := rfl
@[simp] theorem Context.regWrites_supervisorCounter (d : Context) (ws : List (ChipReg × U8)) :
    (d.regWrites ws).supervisorCounter = d.supervisorCounter := rfl
@[simp] theorem Context.regWrites_cfg (d : Context) (ws : List (ChipReg × U8)) :
    (d.regWrites ws).cfg = d.cfg := rfl
@[simp] theorem Context.regWrites_phy (d : Context) (ws : List (ChipReg × U8)) :
    (d.regWrites ws).phy = d.phy := rfl
@[simp] theorem Context.regWrites_stDev (d : Context) (ws : List (ChipReg × U8)) :
    (d.regWrites ws).stDev = d.stDev := rfl
@[simp] theorem Context.regWrites_stIs1 (d : Context) (ws : List (ChipReg × U8)) :
    (d.regWrites ws).stIs1 = d.stIs1 := rfl
@[simp] theorem Context.regWrites_stIs2 (d : Context) (ws : List (ChipReg × U8)) :
    (d.regWrites ws).stIs2 = d.stIs2 := rfl
@[simp] theorem Context.regWrites_ien1 (d : Context) (ws : List (ChipReg × U8)) :
    (d.regWrites ws).ien1 = d.ien1 := rfl
@[simp] theorem Context.regWrites_ien2 (d : Context) (ws : List (ChipReg × U8)) :
    (d.regWrites ws).ien2 = d.ien2 := rfl
@[simp] theorem Context.regWrites_sigLink (d : Context) (ws : List (ChipReg × U8)) :
    (d.regWrites ws).sigLink = d.sigLink := rfl
@[simp] theorem Context.regWrites_sigTxdone (d : Context) (ws : List (ChipReg × U8)) :
    (d.regWrites ws).sigTxdone = d.sigTxdone := rfl
@[simp] theorem Context.regWrites_txtimeoutReq (d : Context) (ws : List (ChipReg × U8)) :
    (d.regWrites ws).txtimeoutReq = d.txtimeoutReq := rfl
@[simp] theorem Context.regWrites_sendPkt (d : Context) (ws : List (ChipReg × U8)) :
    (d.regWrites ws).sendPkt = d.sendPkt := rfl
@[simp] theorem Context.regWrites_phyJobs (d : Context) (ws : List (ChipReg × U8)) :
    (d.regWrites ws).phyJobs = d.phyJobs := rfl
@[simp] theorem Context.regWrites_answers (d : Context) (ws : List (ChipReg × U8)) :
    (d.regWrites ws).answers = d.answers := rfl
@[simp] theorem Context.regWrites_reads (d : Context) (ws : List (ChipReg × U8)) :
    (d.regWrites ws).reads = d.reads := rfl
@[simp] theorem Context.regWrites_preempts (d : Context) (ws : List (ChipReg × U8)) :
    (d.regWrites ws).preempts = d.preempts := rfl
@[simp] theorem Context.regWrites_bus (d : Context) (ws : List (ChipReg × U8)) :
    (d.regWrites ws).bus = d.bus ++ ws.map fun w => BusOp.write w.1 w.2 := rfl

/-! ## Context.fifoWrite -/

@[simp] theorem Context.fifoWrite_mode (d : Context) (bytes : List U8) :
    (d.fifoWrite bytes).mode = d.mode := rfl
@[simp] theorem Context.fifoWrite_initialized (d : Context) (bytes : List U8) :
    (d.fifoWrite bytes).initialized = d.initialized := rfl
@[simp] theorem Context.fifoWrite_txq (d : Context) (bytes : List U8) :
    (d.fifoWrite bytes).txq = d.txq := rfl
@[simp] theorem Context.fifoWrite_txPkt (d : Context) (bytes : List U8) :
    (d.fifoWrite bytes).txPkt = d.txPkt := rfl
@[simp] theorem Context.fifoWrite_txRd (d : Context) (bytes : List U8) :
    (d.fifoWrite bytes).txRd = d.txRd := rfl
@[simp] theorem Context.fifoWrite_txWr (d : Context) (bytes : List U8) :
    (d.fifoWrite bytes).txWr = d.txWr := rfl
@[simp] theorem Context.fifoWrite_txSuccess (d : Context) (bytes : List U8) :
    (d.fifoWrite bytes).txSuccess = d.txSuccess := rfl
@[simp] theorem Context.fifoWrite_sendWait (d : Context) (bytes : List U8) :
    (d.fifoWrite bytes).sendWait = d.sendWait := rfl
@[simp] theorem Context.fifoWrite_recvWait (d : Context) (bytes : List U8) :
    (d.fifoWrite bytes).recvWait = d.recvWait := rfl
@[simp] theorem Context.fifoWrite_sendTimer (d : Context) (bytes : List U8) :
    (d.fifoWrite bytes).sendTimer = d.sendTimer := rfl
@[simp] theorem Context.fifoWrite_recvTimer (d : Context) (bytes : List U8) :
    (d.fifoWrite bytes).recvTimer = d.recvTimer := rfl
@[simp] theorem Context.fifoWrite_rxActive (d : Context) (bytes : List U8) :
    (d.fifoWrite bytes).rxActive = d.rxActive := rfl
@[simp] theorem Context.fifoWrite_rxNext (d : Context) (bytes : List U8) :
    (d.fifoWrite bytes).rxNext = d.rxNext := rfl
@[simp] theorem Context.fifoWrite_rxCompleted (d : Context) (bytes : List U8) :
    (d.fifoWrite bytes).rxCompleted = d.rxCompleted := rfl
@[simp] theorem Context.fifoWrite_rxWr (d : Context) (bytes : List U8) :
    (d.fifoWrite bytes).rxWr = d.rxWr := rfl
@[simp] theorem Context.fifoWrite_latRssi (d : Context) (bytes : List U8) :
    (d.fifoWrite bytes).latRssi = d.latRssi := rfl
@[simp] theorem Context.fifoWrite_latAfc (d : Context) (bytes : List U8) :
    (d.fifoWrite bytes).latAfc = d.latAfc := rfl
@[simp] theorem Context.fifoWrite_rssiLast (d : Context) (bytes : List U8) :
    (d.fifoWrite bytes).rssiLast = d.rssiLast := rfl
@[simp] theorem Context.fifoWrite_resetCount (d : Context) (bytes : List U8) :
    (d.fifoWrite bytes).resetCount = d.resetCount := rfl
@[simp] theorem Context.fifoWrite_errorCount (d : Context) (bytes : List U8) :
    (d.fifoWrite bytes).errorCount = d.errorCount := rfl
@[simp] theorem Context.fifoWrite_supervisorCounter (d : Context) (bytes : List U8) :
    (d.fifoWrite bytes).supervisorCounter = d.supervisorCounter := rfl
@[simp] theorem Context.fifoWrite_cfg (d : Context) (bytes : List U8) :
    (d.fifoWrite bytes).cfg = d.cfg := rfl
@[simp] theorem Context.fifoWrite_phy (d : Context) (bytes : List U8) :
    (d.fifoWrite bytes).phy = d.phy := rfl
@[simp] theorem Context.fifoWrite_stDev (d : Context) (bytes : List U8) :
    (d.fifoWrite bytes).stDev = d.stDev := rfl
@[simp] theorem Context.fifoWrite_stIs1 (d : Context) (bytes : List U8) :
    (d.fifoWrite bytes).stIs1 = d.stIs1 := rfl
@[simp] theorem Context.fifoWrite_stIs2 (d : Context) (bytes : List U8) :
    (d.fifoWrite bytes).stIs2 = d.stIs2 := rfl
@[simp] theorem Context.fifoWrite_ien1 (d : Context) (bytes : List U8) :
    (d.fifoWrite bytes).ien1 = d.ien1 := rfl
@[simp] theorem Context.fifoWrite_ien2 (d : Context) (bytes : List U8) :
    (d.fifoWrite bytes).ien2 = d.ien2 := rfl
@[simp] theorem Context.fifoWrite_sigLink (d : Context) (bytes : List U8) :
    (d.fifoWrite bytes).sigLink = d.sigLink := rfl
@[simp] theorem Context.fifoWrite_sigTxdone (d : Context) (bytes : List U8) :
    (d.fifoWrite bytes).sigTxdone = d.sigTxdone := rfl
@[simp] theorem Context.fifoWrite_txtimeoutReq (d : Context) (bytes : List U8) :
    (d.fifoWrite bytes).txtimeoutReq = d.txtimeoutReq := rfl
@[simp] theorem Context.fifoWrite_sendPkt (d : Context) (bytes : List U8) :
    (d.fifoWrite bytes).sendPkt = d.sendPkt := rfl
@[simp] theorem Context.fifoWrite_phyJobs (d : Context) (bytes : List U8) :
    (d.fifoWrite bytes).phyJobs = d.phyJobs := rfl
@[simp] theorem Context.fifoWrite_answers (d : Context) (bytes : List U8) :
    (d.fifoWrite bytes).answers = d.answers := rfl
@[simp] theorem Context.fifoWrite_reads (d : Context) (bytes : List U8) :
    (d.fifoWrite bytes).reads = d.reads := rfl
@[simp] theorem Context.fifoWrite_preempts (d : Context) (bytes : List U8) :
    (d.fifoWrite bytes).preempts = d.preempts := rfl
@[simp] theorem Context.fifoWrite_bus (d : Context) (bytes : List U8) :
    (d.fifoWrite bytes).bus = d.bus ++ if bytes = [] then [] else [BusOp.burstWrite .fifo bytes] := rfl

/-! ## Context.drop -/

@[simp] theorem Context.drop_mode (d : Context) (n : Nat) :
    (d.drop n).mode = d.mode := rfl
@[simp] theorem Context.drop_initialized (d : Context) (n : Nat) :
    (d.drop n).initialized = d.initialized := rfl
@[simp] theorem Context.drop_txq (d : Context) (n : Nat) :
    (d.drop n).txq = d.txq := rfl
@[simp] theorem Context.drop_txPkt (d : Context) (n : Nat) :
    (d.drop n).txPkt = d.txPkt := rfl
@[simp] theorem Context.drop_txRd (d : Context) (n : Nat) :
    (d.drop n).txRd = d.txRd := rfl
@[simp] theorem Context.drop_txWr (d : Context) (n : Nat) :
    (d.drop n).txWr = d.txWr := rfl
@[simp] theorem Context.drop_txSuccess (d : Context) (n : Nat) :
    (d.drop n).txSuccess = d.txSuccess := rfl
@[simp] theorem Context.drop_sendWait (d : Context) (n : Nat) :
    (d.drop n).sendWait = d.sendWait := rfl
@[simp] theorem Context.drop_recvWait (d : Context) (n : Nat) :
    (d.drop n).recvWait = d.recvWait := rfl
@[simp] theorem Context.drop_sendTimer (d : Context) (n : Nat) :
    (d.drop n).sendTimer = d.sendTimer := rfl
@[simp] theorem Context.drop_recvTimer (d : Context) (n : Nat) :
    (d.drop n).recvTimer = d.recvTimer := rfl
@[simp] theorem Context.drop_rxActive (d : Context) (n : Nat) :
    (d.drop n).rxActive = d.rxActive := rfl
@[simp] theorem Context.drop_rxNext (d : Context) (n : Nat) :
    (d.drop n).rxNext = d.rxNext := rfl
@[simp] theorem Context.drop_rxCompleted (d : Context) (n : Nat) :
    (d.drop n).rxCompleted = d.rxCompleted := rfl
@[simp] theorem Context.drop_rxWr (d : Context) (n : Nat) :
    (d.drop n).rxWr = d.rxWr := rfl
@[simp] theorem Context.drop_latRssi (d : Context) (n : Nat) :
    (d.drop n).latRssi = d.latRssi := rfl
@[simp] theorem Context.drop_latAfc (d : Context) (n : Nat) :
    (d.drop n).latAfc = d.latAfc := rfl
@[simp] theorem Context.drop_rssiLast (d : Context) (n : Nat) :
    (d.drop n).rssiLast = d.rssiLast := rfl
@[simp] theorem Context.drop_resetCount (d : Context) (n : Nat) :
    (d.drop n).resetCount = d.resetCount := rfl
@[simp] theorem Context.drop_errorCount (d : Context) (n : Nat) :
    (d.drop n).errorCount = d.errorCount := rfl
@[simp] theorem Context.drop_supervisorCounter (d : Context) (n : Nat) :
    (d.drop n).supervisorCounter = d.supervisorCounter := rfl
@[simp] theorem Context.drop_cfg (d : Context) (n : Nat) :
    (d.drop n).cfg = d.cfg := rfl
@[simp] theorem Context.drop_phy (d : Context) (n : Nat) :
    (d.drop n).phy = d.phy := rfl
@[simp] theorem Context.drop_stDev (d : Context) (n : Nat) :
    (d.drop n).stDev = d.stDev := rfl
@[simp] theorem Context.drop_stIs1 (d : Context) (n : Nat) :
    (d.drop n).stIs1 = d.stIs1 := rfl
@[simp] theorem Context.drop_stIs2 (d : Context) (n : Nat) :
    (d.drop n).stIs2 = d.stIs2 := rfl
@[simp] theorem Context.drop_ien1 (d : Context) (n : Nat) :
    (d.drop n).ien1 = d.ien1 := rfl
@[simp] theorem Context.drop_ien2 (d : Context) (n : Nat) :
    (d.drop n).ien2 = d.ien2 := rfl
@[simp] theorem Context.drop_sigLink (d : Context) (n : Nat) :
    (d.drop n).sigLink = d.sigLink := rfl
@[simp] theorem Context.drop_sigTxdone (d : Context) (n : Nat) :
    (d.drop n).sigTxdone = d.sigTxdone := rfl
@[simp] theorem Context.drop_txtimeoutReq (d : Context) (n : Nat) :
    (d.drop n).txtimeoutReq = d.txtimeoutReq := rfl
@[simp] theorem Context.drop_sendPkt (d : Context) (n : Nat) :
    (d.drop n).sendPkt = d.sendPkt := rfl
@[simp] theorem Context.drop_phyJobs (d : Context) (n : Nat) :
    (d.drop n).phyJobs = d.phyJobs := rfl
@[simp] theorem Context.drop_answers (d : Context) (n : Nat) :
    (d.drop n).answers = d.answers.drop n := rfl
@[simp] theorem Context.drop_reads (d : Context) (n : Nat) :
    (d.drop n).reads = d.reads + (n - d.answers.length) := rfl
@[simp] theorem Context.drop_preempts (d : Context) (n : Nat) :
    (d.drop n).preempts = d.preempts := rfl
@[simp] theorem Context.drop_bus (d : Context) (n : Nat) :
    (d.drop n).bus = d.bus := rfl

/-! ## Context.regRead -/

@[simp] theorem Context.regRead_mode (d : Context) (h : Nat) (r : ChipReg) :
    (d.regRead h r).mode = d.mode := rfl
@[simp] theorem Context.regRead_initialized (d : Context) (h : Nat) (r : ChipReg) :
    (d.regRead h r).initialized = d.initialized := rfl
@[simp] theorem Context.regRead_txq (d : Context) (h : Nat) (r : ChipReg) :
    (d.regRead h r).txq = d.txq := rfl
@[simp] theorem Context.regRead_txPkt (d : Context) (h : Nat) (r : ChipReg) :
    (d.regRead h r).txPkt = d.txPkt := rfl
@[simp] theorem Context.regRead_txRd (d : Context) (h : Nat) (r : ChipReg) :
    (d.regRead h r).txRd = d.txRd := rfl
@[simp] theorem Context.regRead_txWr (d : Context) (h : Nat) (r : ChipReg) :
    (d.regRead h r).txWr = d.txWr := rfl
@[simp] theorem Context.regRead_txSuccess (d : Context) (h : Nat) (r : ChipReg) :
    (d.regRead h r).txSuccess = d.txSuccess := rfl
@[simp] theorem Context.regRead_sendWait (d : Context) (h : Nat) (r : ChipReg) :
    (d.regRead h r).sendWait = d.sendWait := rfl
@[simp] theorem Context.regRead_recvWait (d : Context) (h : Nat) (r : ChipReg) :
    (d.regRead h r).recvWait = d.recvWait := rfl
@[simp] theorem Context.regRead_sendTimer (d : Context) (h : Nat) (r : ChipReg) :
    (d.regRead h r).sendTimer = d.sendTimer := rfl
@[simp] theorem Context.regRead_recvTimer (d : Context) (h : Nat) (r : ChipReg) :
    (d.regRead h r).recvTimer = d.recvTimer := rfl
@[simp] theorem Context.regRead_rxActive (d : Context) (h : Nat) (r : ChipReg) :
    (d.regRead h r).rxActive = d.rxActive := rfl
@[simp] theorem Context.regRead_rxNext (d : Context) (h : Nat) (r : ChipReg) :
    (d.regRead h r).rxNext = d.rxNext := rfl
@[simp] theorem Context.regRead_rxCompleted (d : Context) (h : Nat) (r : ChipReg) :
    (d.regRead h r).rxCompleted = d.rxCompleted := rfl
@[simp] theorem Context.regRead_rxWr (d : Context) (h : Nat) (r : ChipReg) :
    (d.regRead h r).rxWr = d.rxWr := rfl
@[simp] theorem Context.regRead_latRssi (d : Context) (h : Nat) (r : ChipReg) :
    (d.regRead h r).latRssi = d.latRssi := rfl
@[simp] theorem Context.regRead_latAfc (d : Context) (h : Nat) (r : ChipReg) :
    (d.regRead h r).latAfc = d.latAfc := rfl
@[simp] theorem Context.regRead_rssiLast (d : Context) (h : Nat) (r : ChipReg) :
    (d.regRead h r).rssiLast = d.rssiLast := rfl
@[simp] theorem Context.regRead_resetCount (d : Context) (h : Nat) (r : ChipReg) :
    (d.regRead h r).resetCount = d.resetCount := rfl
@[simp] theorem Context.regRead_errorCount (d : Context) (h : Nat) (r : ChipReg) :
    (d.regRead h r).errorCount = d.errorCount := rfl
@[simp] theorem Context.regRead_supervisorCounter (d : Context) (h : Nat) (r : ChipReg) :
    (d.regRead h r).supervisorCounter = d.supervisorCounter := rfl
@[simp] theorem Context.regRead_cfg (d : Context) (h : Nat) (r : ChipReg) :
    (d.regRead h r).cfg = d.cfg := rfl
@[simp] theorem Context.regRead_phy (d : Context) (h : Nat) (r : ChipReg) :
    (d.regRead h r).phy = d.phy := rfl
@[simp] theorem Context.regRead_stDev (d : Context) (h : Nat) (r : ChipReg) :
    (d.regRead h r).stDev = d.stDev := rfl
@[simp] theorem Context.regRead_stIs1 (d : Context) (h : Nat) (r : ChipReg) :
    (d.regRead h r).stIs1 = d.stIs1 := rfl
@[simp] theorem Context.regRead_stIs2 (d : Context) (h : Nat) (r : ChipReg) :
    (d.regRead h r).stIs2 = d.stIs2 := rfl
@[simp] theorem Context.regRead_ien1 (d : Context) (h : Nat) (r : ChipReg) :
    (d.regRead h r).ien1 = d.ien1 := rfl
@[simp] theorem Context.regRead_ien2 (d : Context) (h : Nat) (r : ChipReg) :
    (d.regRead h r).ien2 = d.ien2 := rfl
@[simp] theorem Context.regRead_sigLink (d : Context) (h : Nat) (r : ChipReg) :
    (d.regRead h r).sigLink = d.sigLink := rfl
@[simp] theorem Context.regRead_sigTxdone (d : Context) (h : Nat) (r : ChipReg) :
    (d.regRead h r).sigTxdone = d.sigTxdone := rfl
@[simp] theorem Context.regRead_txtimeoutReq (d : Context) (h : Nat) (r : ChipReg) :
    (d.regRead h r).txtimeoutReq = d.txtimeoutReq := rfl
@[simp] theorem Context.regRead_sendPkt (d : Context) (h : Nat) (r : ChipReg) :
    (d.regRead h r).sendPkt = d.sendPkt := rfl
@[simp] theorem Context.regRead_phyJobs (d : Context) (h : Nat) (r : ChipReg) :
    (d.regRead h r).phyJobs = d.phyJobs := rfl
@[simp] theorem Context.regRead_answers (d : Context) (h : Nat) (r : ChipReg) :
    (d.regRead h r).answers = d.answers.drop 1 := rfl
@[simp] theorem Context.regRead_reads (d : Context) (h : Nat) (r : ChipReg) :
    (d.regRead h r).reads = d.reads + (1 - d.answers.length) := rfl
@[simp] theorem Context.regRead_preempts (d : Context) (h : Nat) (r : ChipReg) :
    (d.regRead h r).preempts = d.preempts := rfl
@[simp] theorem Context.regRead_bus (d : Context) (h : Nat) (r : ChipReg) :
    (d.regRead h r).bus = d.bus ++ [BusOp.read r (d.peekByte h)] := rfl

/-! ## Context.burstRead -/

@[simp] theorem Context.burstRead_mode (d : Context) (h : Nat) (r : ChipReg) (n : Nat) :
    (d.burstRead h r n).mode = d.mode := rfl
@[simp] theorem Context.burstRead_initialized (d : Context) (h : Nat) (r : ChipReg) (n : Nat) :
    (d.burstRead h r n).initialized = d.initialized := rfl
@[simp] theorem Context.burstRead_txq (d : Context) (h : Nat) (r : ChipReg) (n : Nat) :
    (d.burstRead h r n).txq = d.txq := rfl
@[simp] theorem Context.burstRead_txPkt (d : Context) (h : Nat) (r : ChipReg) (n : Nat) :
    (d.burstRead h r n).txPkt = d.txPkt := rfl
@[simp] theorem Context.burstRead_txRd (d : Context) (h : Nat) (r : ChipReg) (n : Nat) :
    (d.burstRead h r n).txRd = d.txRd := rfl
@[simp] theorem Context.burstRead_txWr (d : Context) (h : Nat) (r : ChipReg) (n : Nat) :
    (d.burstRead h r n).txWr = d.txWr := rfl
@[simp] theorem Context.burstRead_txSuccess (d : Context) (h : Nat) (r : ChipReg) (n : Nat) :
    (d.burstRead h r n).txSuccess = d.txSuccess := rfl
@[simp] theorem Context.burstRead_sendWait (d : Context) (h : Nat) (r : ChipReg) (n : Nat) :
    (d.burstRead h r n).sendWait = d.sendWait := rfl
@[simp] theorem Context.burstRead_recvWait (d : Context) (h : Nat) (r : ChipReg) (n : Nat) :
    (d.burstRead h r n).recvWait = d.recvWait := rfl
@[simp] theorem Context.burstRead_sendTimer (d : Context) (h : Nat) (r : ChipReg) (n : Nat) :
    (d.burstRead h r n).sendTimer = d.sendTimer := rfl
@[simp] theorem Context.burstRead_recvTimer (d : Context) (h : Nat) (r : ChipReg) (n : Nat) :
    (d.burstRead h r n).recvTimer = d.recvTimer := rfl
@[simp] theorem Context.burstRead_rxActive (d : Context) (h : Nat) (r : ChipReg) (n : Nat) :
    (d.burstRead h r n).rxActive = d.rxActive := rfl
@[simp] theorem Context.burstRead_rxNext (d : Context) (h : Nat) (r : ChipReg) (n : Nat) :
    (d.burstRead h r n).rxNext = d.rxNext := rfl
@[simp] theorem Context.burstRead_rxCompleted (d : Context) (h : Nat) (r : ChipReg) (n : Nat) :
    (d.burstRead h r n).rxCompleted = d.rxCompleted := rfl
@[simp] theorem Context.burstRead_rxWr (d : Context) (h : Nat) (r : ChipReg) (n : Nat) :
    (d.burstRead h r n).rxWr = d.rxWr := rfl
@[simp] theorem Context.burstRead_latRssi (d : Context) (h : Nat) (r : ChipReg) (n : Nat) :
    (d.burstRead h r n).latRssi = d.latRssi := rfl
@[simp] theorem Context.burstRead_latAfc (d : Context) (h : Nat) (r : ChipReg) (n : Nat) :
    (d.burstRead h r n).latAfc = d.latAfc := rfl
@[simp] theorem Context.burstRead_rssiLast (d : Context) (h : Nat) (r : ChipReg) (n : Nat) :
    (d.burstRead h r n).rssiLast = d.rssiLast := rfl
@[simp] theorem Context.burstRead_resetCount (d : Context) (h : Nat) (r : ChipReg) (n : Nat) :
    (d.burstRead h r n).resetCount = d.resetCount := rfl
@[simp] theorem Context.burstRead_errorCount (d : Context) (h : Nat) (r : ChipReg) (n : Nat) :
    (d.burstRead h r n).errorCount = d.errorCount := rfl
@[simp] theorem Context.burstRead_supervisorCounter (d : Context) (h : Nat) (r : ChipReg) (n : Nat) :
    (d.burstRead h r n).supervisorCounter = d.supervisorCounter := rfl
@[simp] theorem Context.burstRead_cfg (d : Context) (h : Nat) (r : ChipReg) (n : Nat) :
    (d.burstRead h r n).cfg = d.cfg := rfl
@[simp] theorem Context.burstRead_phy (d : Context) (h : Nat) (r : ChipReg) (n : Nat) :
    (d.burstRead h r n).phy = d.phy := rfl
@[simp] theorem Context.burstRead_stDev (d : Context) (h : Nat) (r : ChipReg) (n : Nat) :
    (d.burstRead h r n).stDev = d.stDev := rfl
@[simp] theorem Context.burstRead_stIs1 (d : Context) (h : Nat) (r : ChipReg) (n : Nat) :
    (d.burstRead h r n).stIs1 = d.stIs1 := rfl
@[simp] theorem Context.burstRead_stIs2 (d : Context) (h : Nat) (r : ChipReg) (n : Nat) :
    (d.burstRead h r n).stIs2 = d.stIs2 := rfl
@[simp] theorem Context.burstRead_ien1 (d : Context) (h : Nat) (r : ChipReg) (n : Nat) :
    (d.burstRead h r n).ien1 = d.ien1 := rfl
@[simp] theorem Context.burstRead_ien2 (d : Context) (h : Nat) (r : ChipReg) (n : Nat) :
    (d.burstRead h r n).ien2 = d.ien2 := rfl
@[simp] theorem Context.burstRead_sigLink (d : Context) (h : Nat) (r : ChipReg) (n : Nat) :
    (d.burstRead h r n).sigLink = d.sigLink := rfl
@[simp] theorem Context.burstRead_sigTxdone (d : Context) (h : Nat) (r : ChipReg) (n : Nat) :
    (d.burstRead h r n).sigTxdone = d.sigTxdone := rfl
@[simp] theorem Context.burstRead_txtimeoutReq (d : Context) (h : Nat) (r : ChipReg) (n : Nat) :
    (d.burstRead h r n).txtimeoutReq = d.txtimeoutReq := rfl
@[simp] theorem Context.burstRead_sendPkt (d : Context) (h : Nat) (r : ChipReg) (n : Nat) :
    (d.burstRead h r n).sendPkt = d.sendPkt := rfl
@[simp] theorem Context.burstRead_phyJobs (d : Context) (h : Nat) (r : ChipReg) (n : Nat) :
    (d.burstRead h r n).phyJobs = d.phyJobs := rfl
@[simp] theorem Context.burstRead_answers (d : Context) (h : Nat) (r : ChipReg) (n : Nat) :
    (d.burstRead h r n).answers = d.answers.drop n := rfl
@[simp] theorem Context.burstRead_reads (d : Context) (h : Nat) (r : ChipReg) (n : Nat) :
    (d.burstRead h r n).reads = d.reads + (n - d.answers.length) := rfl
@[simp] theorem Context.burstRead_preempts (d : Context) (h : Nat) (r : ChipReg) (n : Nat) :
    (d.burstRead h r n).preempts = d.preempts := rfl
@[simp] theorem Context.burstRead_bus (d : Context) (h : Nat) (r : ChipReg) (n : Nat) :
    (d.burstRead h r n).bus = d.bus ++ if n = 0 then [] else [BusOp.burstRead r (d.peek h n)] := rfl

/-! ## Context.enterDispatcher -/

@[simp] theorem Context.enterDispatcher_mode (d : Context) (dev is1 is2 : U8) :
    (d.enterDispatcher dev is1 is2).mode = d.mode := rfl
@[simp] theorem Context.enterDispatcher_initialized (d : Context) (dev is1 is2 : U8) :
    (d.enterDispatcher dev is1 is2).initialized = d.initialized := rfl
@[simp] theorem Context.enterDispatcher_txq (d : Context) (dev is1 is2 : U8) :
    (d.enterDispatcher dev is1 is2).txq = d.txq := rfl
@[simp] theorem Context.enterDispatcher_txPkt (d : Context) (dev is1 is2 : U8) :
    (d.enterDispatcher dev is1 is2).txPkt = d.txPkt := rfl
@[simp] theorem Context.enterDispatcher_txRd (d : Context) (dev is1 is2 : U8) :
    (d.enterDispatcher dev is1 is2).txRd = d.txRd := rfl
@[simp] theorem Context.enterDispatcher_txWr (d : Context) (dev is1 is2 : U8) :
    (d.enterDispatcher dev is1 is2).txWr = d.txWr := rfl
@[simp] theorem Context.enterDispatcher_txSuccess (d : Context) (dev is1 is2 : U8) :
    (d.enterDispatcher dev is1 is2).txSuccess = d.txSuccess := rfl
@[simp] theorem Context.enterDispatcher_sendWait (d : Context) (dev is1 is2 : U8) :
    (d.enterDispatcher dev is1 is2).sendWait = d.sendWait := rfl
@[simp] theorem Context.enterDispatcher_recvWait (d : Context) (dev is1 is2 : U8) :
    (d.enterDispatcher dev is1 is2).recvWait = d.recvWait := rfl
@[simp] theorem Context.enterDispatcher_sendTimer (d : Context) (dev is1 is2 : U8) :
    (d.enterDispatcher dev is1 is2).sendTimer = d.sendTimer := rfl
@[simp] theorem Context.enterDispatcher_recvTimer (d : Context) (dev is1 is2 : U8) :
    (d.enterDispatcher dev is1 is2).recvTimer = d.recvTimer := rfl
@[simp] theorem Context.enterDispatcher_rxActive (d : Context) (dev is1 is2 : U8) :
    (d.enterDispatcher dev is1 is2).rxActive = d.rxActive := rfl
@[simp] theorem Context.enterDispatcher_rxNext (d : Context) (dev is1 is2 : U8) :
    (d.enterDispatcher dev is1 is2).rxNext = d.rxNext := rfl
@[simp] theorem Context.enterDispatcher_rxCompleted (d : Context) (dev is1 is2 : U8) :
    (d.enterDispatcher dev is1 is2).rxCompleted = d.rxCompleted := rfl
@[simp] theorem Context.enterDispatcher_rxWr (d : Context) (dev is1 is2 : U8) :
    (d.enterDispatcher dev is1 is2).rxWr = d.rxWr := rfl
@[simp] theorem Context.enterDispatcher_latRssi (d : Context) (dev is1 is2 : U8) :
    (d.enterDispatcher dev is1 is2).latRssi = d.latRssi := rfl
@[simp] theorem Context.enterDispatcher_latAfc (d : Context) (dev is1 is2 : U8) :
    (d.enterDispatcher dev is1 is2).latAfc = d.latAfc := rfl
@[simp] theorem Context.enterDispatcher_rssiLast (d : Context) (dev is1 is2 : U8) :
    (d.enterDispatcher dev is1 is2).rssiLast = d.rssiLast := rfl
@[simp] theorem Context.enterDispatcher_resetCount (d : Context) (dev is1 is2 : U8) :
    (d.enterDispatcher dev is1 is2).resetCount = d.resetCount := rfl
@[simp] theorem Context.enterDispatcher_errorCount (d : Context) (dev is1 is2 : U8) :
    (d.enterDispatcher dev is1 is2).errorCount = d.errorCount := rfl
@[simp] theorem Context.enterDispatcher_supervisorCounter (d : Context) (dev is1 is2 : U8) :
    (d.enterDispatcher dev is1 is2).supervisorCounter = d.supervisorCounter := rfl
@[simp] theorem Context.enterDispatcher_cfg (d : Context) (dev is1 is2 : U8) :
    (d.enterDispatcher dev is1 is2).cfg = d.cfg := rfl
@[simp] theorem Context.enterDispatcher_phy (d : Context) (dev is1 is2 : U8) :
    (d.enterDispatcher dev is1 is2).phy = d.phy := rfl
@[simp] theorem Context.enterDispatcher_stDev (d : Context) (dev is1 is2 : U8) :
    (d.enterDispatcher dev is1 is2).stDev = dev := rfl
@[simp] theorem Context.enterDispatcher_stIs1 (d : Context) (dev is1 is2 : U8) :
    (d.enterDispatcher dev is1 is2).stIs1 = is1 := rfl
@[simp] theorem Context.enterDispatcher_stIs2 (d : Context) (dev is1 is2 : U8) :
    (d.enterDispatcher dev is1 is2).stIs2 = is2 := rfl
@[simp] theorem Context.enterDispatcher_ien1 (d : Context) (dev is1 is2 : U8) :
    (d.enterDispatcher dev is1 is2).ien1 = d.ien1 := rfl
@[simp] theorem Context.enterDispatcher_ien2 (d : Context) (dev is1 is2 : U8) :
    (d.enterDispatcher dev is1 is2).ien2 = d.ien2 := rfl
@[simp] theorem Context.enterDispatcher_sigLink (d : Context) (dev is1 is2 : U8) :
    (d.enterDispatcher dev is1 is2).sigLink = d.sigLink := rfl
@[simp] theorem Context.enterDispatcher_sigTxdone (d : Context) (dev is1 is2 : U8) :
    (d.enterDispatcher dev is1 is2).sigTxdone = d.sigTxdone := rfl
@[simp] theorem Context.enterDispatcher_txtimeoutReq (d : Context) (dev is1 is2 : U8) :
    (d.enterDispatcher dev is1 is2).txtimeoutReq = d.txtimeoutReq := rfl
@[simp] theorem Context.enterDispatcher_sendPkt (d : Context) (dev is1 is2 : U8) :
    (d.enterDispatcher dev is1 is2).sendPkt = d.sendPkt := rfl
@[simp] theorem Context.enterDispatcher_phyJobs (d : Context) (dev is1 is2 : U8) :
    (d.enterDispatcher dev is1 is2).phyJobs = d.phyJobs := rfl
@[simp] theorem Context.enterDispatcher_answers (d : Context) (dev is1 is2 : U8) :
    (d.enterDispatcher dev is1 is2).answers = d.answers := rfl
@[simp] theorem Context.enterDispatcher_reads (d : Context) (dev is1 is2 : U8) :
    (d.enterDispatcher dev is1 is2).reads = d.reads := rfl
@[simp] theorem Context.enterDispatcher_preempts (d : Context) (dev is1 is2 : U8) :
    (d.enterDispatcher dev is1 is2).preempts = d.preempts := rfl
@[simp] theorem Context.enterDispatcher_bus (d : Context) (dev is1 is2 : U8) :
    (d.enterDispatcher dev is1 is2).bus = d.bus ++ [BusOp.burstRead .devstat [dev, is1, is2]] := rfl

/-! ## Context.signalLink -/

@[simp] theorem Context.signalLink_mode (d : Context) :
    d.signalLink.mode = d.mode := rfl
@[simp] theorem Context.signalLink_initialized (d : Context) :
    d.signalLink.initialized = d.initialized := rfl
@[simp] theorem Context.signalLink_txq (d : Context) :
    d.signalLink.txq = d.txq := rfl
@[simp] theorem Context.signalLink_txPkt (d : Context) :
    d.signalLink.txPkt = d.txPkt := rfl
@[simp] theorem Context.signalLink_txRd (d : Context) :
    d.signalLink.txRd = d.txRd := rfl
@[simp] theorem Context.signalLink_txWr (d : Context) :
    d.signalLink.txWr = d.txWr := rfl
@[simp] theorem Context.signalLink_txSuccess (d : Context) :
    d.signalLink.txSuccess = d.txSuccess := rfl
@[simp] theorem Context.signalLink_sendWait (d : Context) :
    d.signalLink.sendWait = d.sendWait := rfl
@[simp] theorem Context.signalLink_recvWait (d : Context) :
    d.signalLink.recvWait = d.recvWait := rfl
@[simp] theorem Context.signalLink_sendTimer (d : Context) :
    d.signalLink.sendTimer = d.sendTimer := rfl
@[simp] theorem Context.signalLink_recvTimer (d : Context) :
    d.signalLink.recvTimer = d.recvTimer := rfl
@[simp] theorem Context.signalLink_rxActive (d : Context) :
    d.signalLink.rxActive = d.rxActive := rfl
@[simp] theorem Context.signalLink_rxNext (d : Context) :
    d.signalLink.rxNext = d.rxNext := rfl
@[simp] theorem Context.signalLink_rxCompleted (d : Context) :
    d.signalLink.rxCompleted = d.rxCompleted := rfl
@[simp] theorem Context.signalLink_rxWr (d : Context) :
    d.signalLink.rxWr = d.rxWr := rfl
@[simp] theorem Context.signalLink_latRssi (d : Context) :
    d.signalLink.latRssi = d.latRssi := rfl
@[simp] theorem Context.signalLink_latAfc (d : Context) :
    d.signalLink.latAfc = d.latAfc := rfl
@[simp] theorem Context.signalLink_rssiLast (d : Context) :
    d.signalLink.rssiLast = d.rssiLast := rfl
@[simp] theorem Context.signalLink_resetCount (d : Context) :
    d.signalLink.resetCount = d.resetCount := rfl
@[simp] theorem Context.signalLink_errorCount (d : Context) :
    d.signalLink.errorCount = d.errorCount := rfl
@[simp] theorem Context.signalLink_supervisorCounter (d : Context) :
    d.signalLink.supervisorCounter = d.supervisorCounter := rfl
@[simp] theorem Context.signalLink_cfg (d : Context) :
    d.signalLink.cfg = d.cfg := rfl
@[simp] theorem Context.signalLink_phy (d : Context) :
    d.signalLink.phy = d.phy := rfl
@[simp] theorem Context.signalLink_stDev (d : Context) :
    d.signalLink.stDev = d.stDev := rfl
@[simp] theorem Context.signalLink_stIs1 (d : Context) :
    d.signalLink.stIs1 = d.stIs1 := rfl
@[simp] theorem Context.signalLink_stIs2 (d : Context) :
    d.signalLink.stIs2 = d.stIs2 := rfl
@[simp] theorem Context.signalLink_ien1 (d : Context) :
    d.signalLink.ien1 = d.ien1 := rfl
@[simp] theorem Context.signalLink_ien2 (d : Context) :
    d.signalLink.ien2 = d.ien2 := rfl
@[simp] theorem Context.signalLink_sigLink (d : Context) :
    d.signalLink.sigLink = true := rfl
@[simp] theorem Context.signalLink_sigTxdone (d : Context) :
    d.signalLink.sigTxdone = d.sigTxdone := rfl
@[simp] theorem Context.signalLink_txtimeoutReq (d : Context) :
    d.signalLink.txtimeoutReq = d.txtimeoutReq := rfl
@[simp] theorem Context.signalLink_sendPkt (d : Context) :
    d.signalLink.sendPkt = d.sendPkt := rfl
@[simp] theorem Context.signalLink_phyJobs (d : Context) :
    d.signalLink.phyJobs = d.phyJobs := rfl
@[simp] theorem Context.signalLink_answers (d : Context) :
    d.signalLink.answers = d.answers := rfl
@[simp] theorem Context.signalLink_reads (d : Context) :
    d.signalLink.reads = d.reads := rfl
@[simp] theorem Context.signalLink_preempts (d : Context) :
    d.signalLink.preempts = d.preempts := rfl
@[simp] theorem Context.signalLink_bus (d : Context) :
    d.signalLink.bus = d.bus := rfl

/-! ## Context.signalTxdone -/

@[simp] theorem Context.signalTxdone_mode (d : Context) :
    d.signalTxdone.mode = d.mode := rfl
@[simp] theorem Context.signalTxdone_initialized (d : Context) :
    d.signalTxdone.initialized = d.initialized := rfl
@[simp] theorem Context.signalTxdone_txq (d : Context) :
    d.signalTxdone.txq = d.txq := rfl
@[simp] theorem Context.signalTxdone_txPkt (d : Context) :
    d.signalTxdone.txPkt = d.txPkt := rfl
@[simp] theorem Context.signalTxdone_txRd (d : Context) :
    d.signalTxdone.txRd = d.txRd := rfl
@[simp] theorem Context.signalTxdone_txWr (d : Context) :
    d.signalTxdone.txWr = d.txWr := rfl
@[simp] theorem Context.signalTxdone_txSuccess (d : Context) :
    d.signalTxdone.txSuccess = d.txSuccess := rfl
@[simp] theorem Context.signalTxdone_sendWait (d : Context) :
    d.signalTxdone.sendWait = d.sendWait := rfl
@[simp] theorem Context.signalTxdone_recvWait (d : Context) :
    d.signalTxdone.recvWait = d.recvWait := rfl
@[simp] theorem Context.signalTxdone_sendTimer (d : Context) :
    d.signalTxdone.sendTimer = d.sendTimer := rfl
@[simp] theorem Context.signalTxdone_recvTimer (d : Context) :
    d.signalTxdone.recvTimer = d.recvTimer := rfl
@[simp] theorem Context.signalTxdone_rxActive (d : Context) :
    d.signalTxdone.rxActive = d.rxActive := rfl
@[simp] theorem Context.signalTxdone_rxNext (d : Context) :
    d.signalTxdone.rxNext = d.rxNext := rfl
@[simp] theorem Context.signalTxdone_rxCompleted (d : Context) :
    d.signalTxdone.rxCompleted = d.rxCompleted := rfl
@[simp] theorem Context.signalTxdone_rxWr (d : Context) :
    d.signalTxdone.rxWr = d.rxWr := rfl
@[simp] theorem Context.signalTxdone_latRssi (d : Context) :
    d.signalTxdone.latRssi = d.latRssi := rfl
@[simp] theorem Context.signalTxdone_latAfc (d : Context) :
    d.signalTxdone.latAfc = d.latAfc := rfl
@[simp] theorem Context.signalTxdone_rssiLast (d : Context) :
    d.signalTxdone.rssiLast = d.rssiLast := rfl
@[simp] theorem Context.signalTxdone_resetCount (d : Context) :
    d.signalTxdone.resetCount = d.resetCount := rfl
@[simp] theorem Context.signalTxdone_errorCount (d : Context) :
    d.signalTxdone.errorCount = d.errorCount := rfl
@[simp] theorem Context.signalTxdone_supervisorCounter (d : Context) :
    d.signalTxdone.supervisorCounter = d.supervisorCounter := rfl
@[simp] theorem Context.signalTxdone_cfg (d : Context) :
    d.signalTxdone.cfg = d.cfg := rfl
@[simp] theorem Context.signalTxdone_phy (d : Context) :
    d.signalTxdone.phy = d.phy := rfl
@[simp] theorem Context.signalTxdone_stDev (d : Context) :
    d.signalTxdone.stDev = d.stDev := rfl
@[simp] theorem Context.signalTxdone_stIs1 (d : Context) :
    d.signalTxdone.stIs1 = d.stIs1 := rfl
@[simp] theorem Context.signalTxdone_stIs2 (d : Context) :
    d.signalTxdone.stIs2 = d.stIs2 := rfl
@[simp] theorem Context.signalTxdone_ien1 (d : Context) :
    d.signalTxdone.ien1 = d.ien1 := rfl
@[simp] theorem Context.signalTxdone_ien2 (d : Context) :
    d.signalTxdone.ien2 = d.ien2 := rfl
@[simp] theorem Context.signalTxdone_sigLink (d : Context) :
    d.signalTxdone.sigLink = d.sigLink := rfl
@[simp] theorem Context.signalTxdone_sigTxdone (d : Context) :
    d.signalTxdone.sigTxdone = true := rfl
@[simp] theorem Context.signalTxdone_txtimeoutReq (d : Context) :
    d.signalTxdone.txtimeoutReq = d.txtimeoutReq := rfl
@[simp] theorem Context.signalTxdone_sendPkt (d : Context) :
    d.signalTxdone.sendPkt = d.sendPkt := rfl
@[simp] theorem Context.signalTxdone_phyJobs (d : Context) :
    d.signalTxdone.phyJobs = d.phyJobs := rfl
@[simp] theorem Context.signalTxdone_answers (d : Context) :
    d.signalTxdone.answers = d.answers := rfl
@[simp] theorem Context.signalTxdone_reads (d : Context) :
    d.signalTxdone.reads = d.reads := rfl
@[simp] theorem Context.signalTxdone_preempts (d : Context) :
    d.signalTxdone.preempts = d.preempts := rfl
@[simp] theorem Context.signalTxdone_bus (d : Context) :
    d.signalTxdone.bus = d.bus := rfl

/-! ## Context.takeLink -/

@[simp] theorem Context.takeLink_mode (d : Context) :
    d.takeLink.mode = d.mode := rfl
@[simp] theorem Context.takeLink_initialized (d : Context) :
    d.takeLink.initialized = d.initialized := rfl
@[simp] theorem Context.takeLink_txq (d : Context) :
    d.takeLink.txq = d.txq := rfl
@[simp] theorem Context.takeLink_txPkt (d : Context) :
    d.takeLink.txPkt = d.txPkt := rfl
@[simp] theorem Context.takeLink_txRd (d : Context) :
    d.takeLink.txRd = d.txRd := rfl
@[simp] theorem Context.takeLink_txWr (d : Context) :
    d.takeLink.txWr = d.txWr := rfl
@[simp] theorem Context.takeLink_txSuccess (d : Context) :
    d.takeLink.txSuccess = d.txSuccess := rfl
@[simp] theorem Context.takeLink_sendWait (d : Context) :
    d.takeLink.sendWait = d.sendWait := rfl
@[simp] theorem Context.takeLink_recvWait (d : Context) :
    d.takeLink.recvWait = d.recvWait := rfl
@[simp] theorem Context.takeLink_sendTimer (d : Context) :
    d.takeLink.sendTimer = d.sendTimer := rfl
@[simp] theorem Context.takeLink_recvTimer (d : Context) :
    d.takeLink.recvTimer = d.recvTimer := rfl
@[simp] theorem Context.takeLink_rxActive (d : Context) :
    d.takeLink.rxActive = d.rxActive := rfl
@[simp] theorem Context.takeLink_rxNext (d : Context) :
    d.takeLink.rxNext = d.rxNext := rfl
@[simp] theorem Context.takeLink_rxCompleted (d : Context) :
    d.takeLink.rxCompleted = d.rxCompleted := rfl
@[simp] theorem Context.takeLink_rxWr (d : Context) :
    d.takeLink.rxWr = d.rxWr := rfl
@[simp] theorem Context.takeLink_latRssi (d : Context) :
    d.takeLink.latRssi = d.latRssi := rfl
@[simp] theorem Context.takeLink_latAfc (d : Context) :
    d.takeLink.latAfc = d.latAfc := rfl
@[simp] theorem Context.takeLink_rssiLast (d : Context) :
    d.takeLink.rssiLast = d.rssiLast := rfl
@[simp] theorem Context.takeLink_resetCount (d : Context) :
    d.takeLink.resetCount = d.resetCount := rfl
@[simp] theorem Context.takeLink_errorCount (d : Context) :
    d.takeLink.errorCount = d.errorCount := rfl
@[simp] theorem Context.takeLink_supervisorCounter (d : Context) :
    d.takeLink.supervisorCounter = d.supervisorCounter := rfl
@[simp] theorem Context.takeLink_cfg (d : Context) :
    d.takeLink.cfg = d.cfg := rfl
@[simp] theorem Context.takeLink_phy (d : Context) :
    d.takeLink.phy = d.phy := rfl
@[simp] theorem Context.takeLink_stDev (d : Context) :
    d.takeLink.stDev = d.stDev := rfl
@[simp] theorem Context.takeLink_stIs1 (d : Context) :
    d.takeLink.stIs1 = d.stIs1 := rfl
@[simp] theorem Context.takeLink_stIs2 (d : Context) :
    d.takeLink.stIs2 = d.stIs2 := rfl
@[simp] theorem Context.takeLink_ien1 (d : Context) :
    d.takeLink.ien1 = d.ien1 := rfl
@[simp] theorem Context.takeLink_ien2 (d : Context) :
    d.takeLink.ien2 = d.ien2 := rfl
@[simp] theorem Context.takeLink_sigLink (d : Context) :
    d.takeLink.sigLink = false := rfl
@[simp] theorem Context.takeLink_sigTxdone (d : Context) :
    d.takeLink.sigTxdone = d.sigTxdone := rfl
@[simp] theorem Context.takeLink_txtimeoutReq (d : Context) :
    d.takeLink.txtimeoutReq = d.txtimeoutReq := rfl
@[simp] theorem Context.takeLink_sendPkt (d : Context) :
    d.takeLink.sendPkt = d.sendPkt := rfl
@[simp] theorem Context.takeLink_phyJobs (d : Context) :
    d.takeLink.phyJobs = d.phyJobs := rfl
@[simp] theorem Context.takeLink_answers (d : Context) :
    d.takeLink.answers = d.answers := rfl
@[simp] theorem Context.takeLink_reads (d : Context) :
    d.takeLink.reads = d.reads := rfl
@[simp] theorem Context.takeLink_preempts (d : Context) :
    d.takeLink.preempts = d.preempts := rfl
@[simp] theorem Context.takeLink_bus (d : Context) :
    d.takeLink.bus = d.bus := rfl

/-! ## Context.takeTxdone -/

@[simp] theorem Context.takeTxdone_mode (d : Context) :
    d.takeTxdone.mode = d.mode := rfl
@[simp] theorem Context.takeTxdone_initialized (d : Context) :
    d.takeTxdone.initialized = d.initialized := rfl
@[simp] theorem Context.takeTxdone_txq (d : Context) :
    d.takeTxdone.txq = d.txq := rfl
@[simp] theorem Context.takeTxdone_txPkt (d : Context) :
    d.takeTxdone.txPkt = d.txPkt := rfl
@[simp] theorem Context.takeTxdone_txRd (d : Context) :
    d.takeTxdone.txRd = d.txRd := rfl
@[simp] theorem Context.takeTxdone_txWr (d : Context) :
    d.takeTxdone.txWr = d.txWr := rfl
@[simp] theorem Context.takeTxdone_txSuccess (d : Context) :
    d.takeTxdone.txSuccess = d.txSuccess := rfl
@[simp] theorem Context.takeTxdone_sendWait (d : Context) :
    d.takeTxdone.sendWait = d.sendWait := rfl
@[simp] theorem Context.takeTxdone_recvWait (d : Context) :
    d.takeTxdone.recvWait = d.recvWait := rfl
@[simp] theorem Context.takeTxdone_sendTimer (d : Context) :
    d.takeTxdone.sendTimer = d.sendTimer := rfl
@[simp] theorem Context.takeTxdone_recvTimer (d : Context) :
    d.takeTxdone.recvTimer = d.recvTimer := rfl
@[simp] theorem Context.takeTxdone_rxActive (d : Context) :
    d.takeTxdone.rxActive = d.rxActive := rfl
@[simp] theorem Context.takeTxdone_rxNext (d : Context) :
    d.takeTxdone.rxNext = d.rxNext := rfl
@[simp] theorem Context.takeTxdone_rxCompleted (d : Context) :
    d.takeTxdone.rxCompleted = d.rxCompleted := rfl
@[simp] theorem Context.takeTxdone_rxWr (d : Context) :
    d.takeTxdone.rxWr = d.rxWr := rfl
@[simp] theorem Context.takeTxdone_latRssi (d : Context) :
    d.takeTxdone.latRssi = d.latRssi := rfl
@[simp] theorem Context.takeTxdone_latAfc (d : Context) :
    d.takeTxdone.latAfc = d.latAfc := rfl
@[simp] theorem Context.takeTxdone_rssiLast (d : Context) :
    d.takeTxdone.rssiLast = d.rssiLast := rfl
@[simp] theorem Context.takeTxdone_resetCount (d : Context) :
    d.takeTxdone.resetCount = d.resetCount := rfl
@[simp] theorem Context.takeTxdone_errorCount (d : Context) :
    d.takeTxdone.errorCount = d.errorCount := rfl
@[simp] theorem Context.takeTxdone_supervisorCounter (d : Context) :
    d.takeTxdone.supervisorCounter = d.supervisorCounter := rfl
@[simp] theorem Context.takeTxdone_cfg (d : Context) :
    d.takeTxdone.cfg = d.cfg := rfl
@[simp] theorem Context.takeTxdone_phy (d : Context) :
    d.takeTxdone.phy = d.phy := rfl
@[simp] theorem Context.takeTxdone_stDev (d : Context) :
    d.takeTxdone.stDev = d.stDev := rfl
@[simp] theorem Context.takeTxdone_stIs1 (d : Context) :
    d.takeTxdone.stIs1 = d.stIs1 := rfl
@[simp] theorem Context.takeTxdone_stIs2 (d : Context) :
    d.takeTxdone.stIs2 = d.stIs2 := rfl
@[simp] theorem Context.takeTxdone_ien1 (d : Context) :
    d.takeTxdone.ien1 = d.ien1 := rfl
@[simp] theorem Context.takeTxdone_ien2 (d : Context) :
    d.takeTxdone.ien2 = d.ien2 := rfl
@[simp] theorem Context.takeTxdone_sigLink (d : Context) :
    d.takeTxdone.sigLink = d.sigLink := rfl
@[simp] theorem Context.takeTxdone_sigTxdone (d : Context) :
    d.takeTxdone.sigTxdone = false := rfl
@[simp] theorem Context.takeTxdone_txtimeoutReq (d : Context) :
    d.takeTxdone.txtimeoutReq = d.txtimeoutReq := rfl
@[simp] theorem Context.takeTxdone_sendPkt (d : Context) :
    d.takeTxdone.sendPkt = d.sendPkt := rfl
@[simp] theorem Context.takeTxdone_phyJobs (d : Context) :
    d.takeTxdone.phyJobs = d.phyJobs := rfl
@[simp] theorem Context.takeTxdone_answers (d : Context) :
    d.takeTxdone.answers = d.answers := rfl
@[simp] theorem Context.takeTxdone_reads (d : Context) :
    d.takeTxdone.reads = d.reads := rfl
@[simp] theorem Context.takeTxdone_preempts (d : Context) :
    d.takeTxdone.preempts = d.preempts := rfl
@[simp] theorem Context.takeTxdone_bus (d : Context) :
    d.takeTxdone.bus = d.bus := rfl

/-! ## State.setDev -/

@[simp] theorem State.setDev_params (s : State) (h : Nat) (d : Context) :
    (s.setDev h d).params = s.params := rfl
@[simp] theorem State.setDev_devs (s : State) (h : Nat) (d : Context) :
    (s.setDev h d).devs = s.devs.set h d := rfl
@[simp] theorem State.setDev_buf (s : State) (h : Nat) (d : Context) :
    (s.setDev h d).buf = s.buf := rfl
@[simp] theorem State.setDev_poolFree (s : State) (h : Nat) (d : Context) :
    (s.setDev h d).poolFree = s.poolFree := rfl
@[simp] theorem State.setDev_poolPicks (s : State) (h : Nat) (d : Context) :
    (s.setDev h d).poolPicks = s.poolPicks := rfl
@[simp] theorem State.setDev_poolCalls (s : State) (h : Nat) (d : Context) :
    (s.setDev h d).poolCalls = s.poolCalls := rfl
@[simp] theorem State.setDev_settings (s : State) (h : Nat) (d : Context) :
    (s.setDev h d).settings = s.settings := rfl
@[simp] theorem State.setDev_serial (s : State) (h : Nat) (d : Context) :
    (s.setDev h d).serial = s.serial := rfl
@[simp] theorem State.setDev_inputs (s : State) (h : Nat) (d : Context) :
    (s.setDev h d).inputs = s.inputs := rfl
@[simp] theorem State.setDev_out (s : State) (h : Nat) (d : Context) :
    (s.setDev h d).out = s.out := rfl
@[simp] theorem State.setDev_turns (s : State) (h : Nat) (d : Context) :
    (s.setDev h d).turns = s.turns := rfl

/-! ## State.respond -/

@[simp] theorem State.respond_params (s : State) (opc hnd : U8) (st : Status) (v : U32) :
    (s.respond opc hnd st v).params = s.params := rfl
@[simp] theorem State.respond_devs (s : State) (opc hnd : U8) (st : Status) (v : U32) :
    (s.respond opc hnd st v).devs = s.devs := rfl
@[simp] theorem State.respond_buf (s : State) (opc hnd : U8) (st : Status) (v : U32) :
    (s.respond opc hnd st v).buf = s.buf := rfl
@[simp] theorem State.respond_poolFree (s : State) (opc hnd : U8) (st : Status) (v : U32) :
    (s.respond opc hnd st v).poolFree = s.poolFree := rfl
@[simp] theorem State.respond_poolPicks (s : State) (opc hnd : U8) (st : Status) (v : U32) :
    (s.respond opc hnd st v).poolPicks = s.poolPicks := rfl
@[simp] theorem State.respond_poolCalls (s : State) (opc hnd : U8) (st : Status) (v : U32) :
    (s.respond opc hnd st v).poolCalls = s.poolCalls := rfl
@[simp] theorem State.respond_settings (s : State) (opc hnd : U8) (st : Status) (v : U32) :
    (s.respond opc hnd st v).settings = s.settings := rfl
@[simp] theorem State.respond_serial (s : State) (opc hnd : U8) (st : Status) (v : U32) :
    (s.respond opc hnd st v).serial = s.serial := rfl
@[simp] theorem State.respond_inputs (s : State) (opc hnd : U8) (st : Status) (v : U32) :
    (s.respond opc hnd st v).inputs = s.inputs := rfl
@[simp] theorem State.respond_out (s : State) (opc hnd : U8) (st : Status) (v : U32) :
    (s.respond opc hnd st v).out = s.out ++ [responseFrame opc hnd st v] := rfl
@[simp] theorem State.respond_turns (s : State) (opc hnd : U8) (st : Status) (v : U32) :
    (s.respond opc hnd st v).turns = s.turns := rfl

/-! ## State.poolRelease -/

@[simp] theorem State.poolRelease_params (s : State) (k : Nat) :
    (s.poolRelease k).params = s.params := rfl
@[simp] theorem State.poolRelease_devs (s : State) (k : Nat) :
    (s.poolRelease k).devs = s.devs := rfl
@[simp] theorem State.poolRelease_buf (s : State) (k : Nat) :
    (s.poolRelease k).buf = s.buf := rfl
@[simp] theorem State.poolRelease_poolFree (s : State) (k : Nat) :
    (s.poolRelease k).poolFree = insertBuffer k s.poolFree := rfl
@[simp] theorem State.poolRelease_poolPicks (s : State) (k : Nat) :
    (s.poolRelease k).poolPicks = s.poolPicks := rfl
@[simp] theorem State.poolRelease_poolCalls (s : State) (k : Nat) :
    (s.poolRelease k).poolCalls = s.poolCalls := rfl
@[simp] theorem State.poolRelease_settings (s : State) (k : Nat) :
    (s.poolRelease k).settings = s.settings := rfl
@[simp] theorem State.poolRelease_serial (s : State) (k : Nat) :
    (s.poolRelease k).serial = s.serial := rfl
@[simp] theorem State.poolRelease_inputs (s : State) (k : Nat) :
    (s.poolRelease k).inputs = s.inputs := rfl
@[simp] theorem State.poolRelease_out (s : State) (k : Nat) :
    (s.poolRelease k).out = s.out := rfl
@[simp] theorem State.poolRelease_turns (s : State) (k : Nat) :
    (s.poolRelease k).turns = s.turns := rfl

/-! ## State.poolTaken -/

@[simp] theorem State.poolTaken_params (s : State) :
    s.poolTaken.params = s.params := rfl
@[simp] theorem State.poolTaken_devs (s : State) :
    s.poolTaken.devs = s.devs := rfl
@[simp] theorem State.poolTaken_buf (s : State) :
    s.poolTaken.buf = s.buf := rfl
@[simp] theorem State.poolTaken_poolFree (s : State) :
    s.poolTaken.poolFree = (match s.poolAnswer with | some k => s.poolFree.erase k | none => s.poolFree) := rfl
@[simp] theorem State.poolTaken_poolPicks (s : State) :
    s.poolTaken.poolPicks = s.poolPicks.drop 1 := rfl
@[simp] theorem State.poolTaken_poolCalls (s : State) :
    s.poolTaken.poolCalls = (if s.poolPicks = [] then s.poolCalls + 1 else s.poolCalls) := rfl
@[simp] theorem State.poolTaken_settings (s : State) :
    s.poolTaken.settings = s.settings := rfl
@[simp] theorem State.poolTaken_serial (s : State) :
    s.poolTaken.serial = s.serial := rfl
@[simp] theorem State.poolTaken_inputs (s : State) :
    s.poolTaken.inputs = s.inputs := rfl
@[simp] theorem State.poolTaken_out (s : State) :
    s.poolTaken.out = s.out := rfl
@[simp] theorem State.poolTaken_turns (s : State) :
    s.poolTaken.turns = s.turns := rfl

/-! ## Reading a Device Context back -/

@[simp] theorem State.setDev_get_same (s : State) (h : Nat) (d d' : Context) (hd : s.devs[h]? = some d) :
    (s.setDev h d').devs[h]? = some d' := by
  obtain ⟨hlt, -⟩ := List.getElem?_eq_some_iff.mp hd
  simp [hlt]

theorem State.setDev_get_ne (s : State) (h j : Nat) (d : Context) (hj : j ≠ h) :
    (s.setDev h d).devs[j]? = s.devs[j]? := by
  simp [List.getElem?_set_ne (Ne.symm hj)]

@[simp] theorem State.setDev_setDev (s : State) (h : Nat) (d d' : Context) :
    (s.setDev h d).setDev h d' = s.setDev h d' := by
  simp [State.setDev]

theorem State.setDev_length (s : State) (h : Nat) (d : Context) :
    (s.setDev h d).devs.length = s.devs.length := by simp

/-! ## Results -/

@[simp] theorem bindRes_next (s : State) (f : State → Res) : bindRes (.next s) f = f s := rfl
@[simp] theorem bindRes_fault (e : Fault) (f : State → Res) : bindRes (.fault e) f = .fault e := rfl
@[simp] theorem bindRes_refused (e : Refusal) (f : State → Res) : bindRes (.refused e) f = .refused e := rfl

/-- A bound result goes on only from a next state. -/
theorem bindRes_eq_next {r : Res} {f : State → Res} {t : State} :
    bindRes r f = .next t ↔ ∃ u, r = .next u ∧ f u = .next t := by
  cases r <;> simp [bindRes]

@[simp] theorem leaveDispatcher_eq (s : State) : leaveDispatcher s = .next s := rfl

end Sys2Proof.Machine
end

