-- ==== Sys2Proof/Laws/Fields.lean ====
section
/-! SUPPORT. One lemma per field per procedure on a Device Context: what the procedures leave and what they write. -/

namespace Sys2Proof.Machine

/-! ## RXFAIL -/

@[simp] theorem rxfail_mode (d : Context) :
    (rxfail d).mode = rxError := by simp [rxfail]
@[simp] theorem rxfail_initialized (d : Context) :
    (rxfail d).initialized = d.initialized := by simp [rxfail]
@[simp] theorem rxfail_txq (d : Context) :
    (rxfail d).txq = d.txq := by simp [rxfail]
@[simp] theorem rxfail_txPkt (d : Context) :
    (rxfail d).txPkt = d.txPkt := by simp [rxfail]
@[simp] theorem rxfail_txRd (d : Context) :
    (rxfail d).txRd = d.txRd := by simp [rxfail]
@[simp] theorem rxfail_txWr (d : Context) :
    (rxfail d).txWr = d.txWr := by simp [rxfail]
@[simp] theorem rxfail_txSuccess (d : Context) :
    (rxfail d).txSuccess = d.txSuccess := by simp [rxfail]
@[simp] theorem rxfail_sendWait (d : Context) :
    (rxfail d).sendWait = d.sendWait := by simp [rxfail]
@[simp] theorem rxfail_recvWait (d : Context) :
    (rxfail d).recvWait = d.recvWait := by simp [rxfail]
@[simp] theorem rxfail_sendTimer (d : Context) :
    (rxfail d).sendTimer = d.sendTimer := by simp [rxfail]
@[simp] theorem rxfail_recvTimer (d : Context) :
    (rxfail d).recvTimer = d.recvTimer := by simp [rxfail]
@[simp] theorem rxfail_rxActive (d : Context) :
    (rxfail d).rxActive = d.rxActive := by simp [rxfail]
@[simp] theorem rxfail_rxNext (d : Context) :
    (rxfail d).rxNext = d.rxNext := by simp [rxfail]
@[simp] theorem rxfail_rxCompleted (d : Context) :
    (rxfail d).rxCompleted = d.rxCompleted := by simp [rxfail]
@[simp] theorem rxfail_rxWr (d : Context) :
    (rxfail d).rxWr = d.rxWr := by simp [rxfail]
@[simp] theorem rxfail_latRssi (d : Context) :
    (rxfail d).latRssi = d.latRssi := by simp [rxfail]
@[simp] theorem rxfail_latAfc (d : Context) :
    (rxfail d).latAfc = d.latAfc := by simp [rxfail]
@[simp] theorem rxfail_rssiLast (d : Context) :
    (rxfail d).rssiLast = d.rssiLast := by simp [rxfail]
@[simp] theorem rxfail_resetCount (d : Context) :
    (rxfail d).resetCount = d.resetCount := by simp [rxfail]
@[simp] theorem rxfail_errorCount (d : Context) :
    (rxfail d).errorCount = d.errorCount + 1#32 := by simp [rxfail]
@[simp] theorem rxfail_supervisorCounter (d : Context) :
    (rxfail d).supervisorCounter = d.supervisorCounter := by simp [rxfail]
@[simp] theorem rxfail_cfg (d : Context) :
    (rxfail d).cfg = d.cfg := by simp [rxfail]
@[simp] theorem rxfail_phy (d : Context) :
    (rxfail d).phy = d.phy := by simp [rxfail]
@[simp] theorem rxfail_stDev (d : Context) :
    (rxfail d).stDev = d.stDev := by simp [rxfail]
@[simp] theorem rxfail_stIs1 (d : Context) :
    (rxfail d).stIs1 = d.stIs1 := by simp [rxfail]
@[simp] theorem rxfail_stIs2 (d : Context) :
    (rxfail d).stIs2 = d.stIs2 := by simp [rxfail]
@[simp] theorem rxfail_ien1 (d : Context) :
    (rxfail d).ien1 = d.ien1 := by simp [rxfail]
@[simp] theorem rxfail_ien2 (d : Context) :
    (rxfail d).ien2 = d.ien2 := by simp [rxfail]
@[simp] theorem rxfail_sigLink (d : Context) :
    (rxfail d).sigLink = true := by simp [rxfail]
@[simp] theorem rxfail_sigTxdone (d : Context) :
    (rxfail d).sigTxdone = d.sigTxdone := by simp [rxfail]
@[simp] theorem rxfail_txtimeoutReq (d : Context) :
    (rxfail d).txtimeoutReq = d.txtimeoutReq := by simp [rxfail]
@[simp] theorem rxfail_sendPkt (d : Context) :
    (rxfail d).sendPkt = d.sendPkt := by simp [rxfail]
@[simp] theorem rxfail_phyJobs (d : Context) :
    (rxfail d).phyJobs = d.phyJobs := by simp [rxfail]
@[simp] theorem rxfail_answers (d : Context) :
    (rxfail d).answers = d.answers := by simp [rxfail]
@[simp] theorem rxfail_reads (d : Context) :
    (rxfail d).reads = d.reads := by simp [rxfail]
@[simp] theorem rxfail_preempts (d : Context) :
    (rxfail d).preempts = d.preempts := by simp [rxfail]
@[simp] theorem rxfail_bus (d : Context) :
    (rxfail d).bus = d.bus := by simp [rxfail]

/-! ## TXFAIL -/

@[simp] theorem txfail_mode (d : Context) :
    (txfail d).mode = txError := by simp [txfail]
@[simp] theorem txfail_initialized (d : Context) :
    (txfail d).initialized = d.initialized := by simp [txfail]
@[simp] theorem txfail_txq (d : Context) :
    (txfail d).txq = d.txq := by simp [txfail]
@[simp] theorem txfail_txPkt (d : Context) :
    (txfail d).txPkt = d.txPkt := by simp [txfail]
@[simp] theorem txfail_txRd (d : Context) :
    (txfail d).txRd = d.txRd := by simp [txfail]
@[simp] theorem txfail_txWr (d : Context) :
    (txfail d).txWr = d.txWr := by simp [txfail]
@[simp] theorem txfail_txSuccess (d : Context) :
    (txfail d).txSuccess = d.txSuccess := by simp [txfail]
@[simp] theorem txfail_sendWait (d : Context) :
    (txfail d).sendWait = d.sendWait := by simp [txfail]
@[simp] theorem txfail_recvWait (d : Context) :
    (txfail d).recvWait = d.recvWait := by simp [txfail]
@[simp] theorem txfail_sendTimer (d : Context) :
    (txfail d).sendTimer = d.sendTimer := by simp [txfail]
@[simp] theorem txfail_recvTimer (d : Context) :
    (txfail d).recvTimer = d.recvTimer := by simp [txfail]
@[simp] theorem txfail_rxActive (d : Context) :
    (txfail d).rxActive = d.rxActive := by simp [txfail]
@[simp] theorem txfail_rxNext (d : Context) :
    (txfail d).rxNext = d.rxNext := by simp [txfail]
@[simp] theorem txfail_rxCompleted (d : Context) :
    (txfail d).rxCompleted = d.rxCompleted := by simp [txfail]
@[simp] theorem txfail_rxWr (d : Context) :
    (txfail d).rxWr = d.rxWr := by simp [txfail]
@[simp] theorem txfail_latRssi (d : Context) :
    (txfail d).latRssi = d.latRssi := by simp [txfail]
@[simp] theorem txfail_latAfc (d : Context) :
    (txfail d).latAfc = d.latAfc := by simp [txfail]
@[simp] theorem txfail_rssiLast (d : Context) :
    (txfail d).rssiLast = d.rssiLast := by simp [txfail]
@[simp] theorem txfail_resetCount (d : Context) :
    (txfail d).resetCount = d.resetCount := by simp [txfail]
@[simp] theorem txfail_errorCount (d : Context) :
    (txfail d).errorCount = d.errorCount := by simp [txfail]
@[simp] theorem txfail_supervisorCounter (d : Context) :
    (txfail d).supervisorCounter = d.supervisorCounter := by simp [txfail]
@[simp] theorem txfail_cfg (d : Context) :
    (txfail d).cfg = d.cfg := by simp [txfail]
@[simp] theorem txfail_phy (d : Context) :
    (txfail d).phy = d.phy := by simp [txfail]
@[simp] theorem txfail_stDev (d : Context) :
    (txfail d).stDev = d.stDev := by simp [txfail]
@[simp] theorem txfail_stIs1 (d : Context) :
    (txfail d).stIs1 = d.stIs1 := by simp [txfail]
@[simp] theorem txfail_stIs2 (d : Context) :
    (txfail d).stIs2 = d.stIs2 := by simp [txfail]
@[simp] theorem txfail_ien1 (d : Context) :
    (txfail d).ien1 = d.ien1 := by simp [txfail]
@[simp] theorem txfail_ien2 (d : Context) :
    (txfail d).ien2 = d.ien2 := by simp [txfail]
@[simp] theorem txfail_sigLink (d : Context) :
    (txfail d).sigLink = true := by simp [txfail]
@[simp] theorem txfail_sigTxdone (d : Context) :
    (txfail d).sigTxdone = d.sigTxdone := by simp [txfail]
@[simp] theorem txfail_txtimeoutReq (d : Context) :
    (txfail d).txtimeoutReq = d.txtimeoutReq := by simp [txfail]
@[simp] theorem txfail_sendPkt (d : Context) :
    (txfail d).sendPkt = d.sendPkt := by simp [txfail]
@[simp] theorem txfail_phyJobs (d : Context) :
    (txfail d).phyJobs = d.phyJobs := by simp [txfail]
@[simp] theorem txfail_answers (d : Context) :
    (txfail d).answers = d.answers := by simp [txfail]
@[simp] theorem txfail_reads (d : Context) :
    (txfail d).reads = d.reads := by simp [txfail]
@[simp] theorem txfail_preempts (d : Context) :
    (txfail d).preempts = d.preempts := by simp [txfail]
@[simp] theorem txfail_bus (d : Context) :
    (txfail d).bus = d.bus := by simp [txfail]

/-! ## LATCH (its two latches, answers, reads and bus record are in Laws/Procedures.lean) -/

@[simp] theorem latch_mode (p : Params) (h : Nat) (d : Context) :
    (latch p h d).mode = d.mode := by simp [latch]
@[simp] theorem latch_initialized (p : Params) (h : Nat) (d : Context) :
    (latch p h d).initialized = d.initialized := by simp [latch]
@[simp] theorem latch_txq (p : Params) (h : Nat) (d : Context) :
    (latch p h d).txq = d.txq := by simp [latch]
@[simp] theorem latch_txPkt (p : Params) (h : Nat) (d : Context) :
    (latch p h d).txPkt = d.txPkt := by simp [latch]
@[simp] theorem latch_txRd (p : Params) (h : Nat) (d : Context) :
    (latch p h d).txRd = d.txRd := by simp [latch]
@[simp] theorem latch_txWr (p : Params) (h : Nat) (d : Context) :
    (latch p h d).txWr = d.txWr := by simp [latch]
@[simp] theorem latch_txSuccess (p : Params) (h : Nat) (d : Context) :
    (latch p h d).txSuccess = d.txSuccess := by simp [latch]
@[simp] theorem latch_sendWait (p : Params) (h : Nat) (d : Context) :
    (latch p h d).sendWait = d.sendWait := by simp [latch]
@[simp] theorem latch_recvWait (p : Params) (h : Nat) (d : Context) :
    (latch p h d).recvWait = d.recvWait := by simp [latch]
@[simp] theorem latch_sendTimer (p : Params) (h : Nat) (d : Context) :
    (latch p h d).sendTimer = d.sendTimer := by simp [latch]
@[simp] theorem latch_recvTimer (p : Params) (h : Nat) (d : Context) :
    (latch p h d).recvTimer = d.recvTimer := by simp [latch]
@[simp] theorem latch_rxActive (p : Params) (h : Nat) (d : Context) :
    (latch p h d).rxActive = d.rxActive := by simp [latch]
@[simp] theorem latch_rxNext (p : Params) (h : Nat) (d : Context) :
    (latch p h d).rxNext = d.rxNext := by simp [latch]
@[simp] theorem latch_rxCompleted (p : Params) (h : Nat) (d : Context) :
    (latch p h d).rxCompleted = d.rxCompleted := by simp [latch]
@[simp] theorem latch_rxWr (p : Params) (h : Nat) (d : Context) :
    (latch p h d).rxWr = d.rxWr := by simp [latch]
@[simp] theorem latch_rssiLast (p : Params) (h : Nat) (d : Context) :
    (latch p h d).rssiLast = d.rssiLast := by simp [latch]
@[simp] theorem latch_resetCount (p : Params) (h : Nat) (d : Context) :
    (latch p h d).resetCount = d.resetCount := by simp [latch]
@[simp] theorem latch_errorCount (p : Params) (h : Nat) (d : Context) :
    (latch p h d).errorCount = d.errorCount := by simp [latch]
@[simp] theorem latch_supervisorCounter (p : Params) (h : Nat) (d : Context) :
    (latch p h d).supervisorCounter = d.supervisorCounter := by simp [latch]
@[simp] theorem latch_cfg (p : Params) (h : Nat) (d : Context) :
    (latch p h d).cfg = d.cfg := by simp [latch]
@[simp] theorem latch_phy (p : Params) (h : Nat) (d : Context) :
    (latch p h d).phy = d.phy := by simp [latch]
@[simp] theorem latch_stDev (p : Params) (h : Nat) (d : Context) :
    (latch p h d).stDev = d.stDev := by simp [latch]
@[simp] theorem latch_stIs1 (p : Params) (h : Nat) (d : Context) :
    (latch p h d).stIs1 = d.stIs1 := by simp [latch]
@[simp] theorem latch_stIs2 (p : Params) (h : Nat) (d : Context) :
    (latch p h d).stIs2 = d.stIs2 := by simp [latch]
@[simp] theorem latch_ien1 (p : Params) (h : Nat) (d : Context) :
    (latch p h d).ien1 = d.ien1 := by simp [latch]
@[simp] theorem latch_ien2 (p : Params) (h : Nat) (d : Context) :
    (latch p h d).ien2 = d.ien2 := by simp [latch]
@[simp] theorem latch_sigLink (p : Params) (h : Nat) (d : Context) :
    (latch p h d).sigLink = d.sigLink := by simp [latch]
@[simp] theorem latch_sigTxdone (p : Params) (h : Nat) (d : Context) :
    (latch p h d).sigTxdone = d.sigTxdone := by simp [latch]
@[simp] theorem latch_txtimeoutReq (p : Params) (h : Nat) (d : Context) :
    (latch p h d).txtimeoutReq = d.txtimeoutReq := by simp [latch]
@[simp] theorem latch_sendPkt (p : Params) (h : Nat) (d : Context) :
    (latch p h d).sendPkt = d.sendPkt := by simp [latch]
@[simp] theorem latch_phyJobs (p : Params) (h : Nat) (d : Context) :
    (latch p h d).phyJobs = d.phyJobs := by simp [latch]
@[simp] theorem latch_preempts (p : Params) (h : Nat) (d : Context) :
    (latch p h d).preempts = d.preempts := by simp [latch]

/-! ## RXARM (its bus record is in Laws/Procedures.lean) -/

@[simp] theorem rxarm_mode (p : Params) (d : Context) :
    (rxarm p d).mode = rxWaitPreamble := by simp [rxarm]
@[simp] theorem rxarm_initialized (p : Params) (d : Context) :
    (rxarm p d).initialized = d.initialized := by simp [rxarm]
@[simp] theorem rxarm_txq (p : Params) (d : Context) :
    (rxarm p d).txq = d.txq := by simp [rxarm]
@[simp] theorem rxarm_txPkt (p : Params) (d : Context) :
    (rxarm p d).txPkt = d.txPkt := by simp [rxarm]
@[simp] theorem rxarm_txRd (p : Params) (d : Context) :
    (rxarm p d).txRd = d.txRd := by simp [rxarm]
@[simp] theorem rxarm_txWr (p : Params) (d : Context) :
    (rxarm p d).txWr = d.txWr := by simp [rxarm]
@[simp] theorem rxarm_txSuccess (p : Params) (d : Context) :
    (rxarm p d).txSuccess = d.txSuccess := by simp [rxarm]
@[simp] theorem rxarm_sendWait (p : Params) (d : Context) :
    (rxarm p d).sendWait = d.sendWait := by simp [rxarm]
@[simp] theorem rxarm_recvWait (p : Params) (d : Context) :
    (rxarm p d).recvWait = d.recvWait := by simp [rxarm]
@[simp] theorem rxarm_sendTimer (p : Params) (d : Context) :
    (rxarm p d).sendTimer = d.sendTimer := by simp [rxarm]
@[simp] theorem rxarm_recvTimer (p : Params) (d : Context) :
    (rxarm p d).recvTimer = d.recvTimer := by simp [rxarm]
@[simp] theorem rxarm_rxActive (p : Params) (d : Context) :
    (rxarm p d).rxActive = d.rxActive := by simp [rxarm]
@[simp] theorem rxarm_rxNext (p : Params) (d : Context) :
    (rxarm p d).rxNext = d.rxNext := by simp [rxarm]
@[simp] theorem rxarm_rxCompleted (p : Params) (d : Context) :
    (rxarm p d).rxCompleted = d.rxCompleted := by simp [rxarm]
@[simp] theorem rxarm_rxWr (p : Params) (d : Context) :
    (rxarm p d).rxWr = 0#9 := by simp [rxarm]
@[simp] theorem rxarm_latRssi (p : Params) (d : Context) :
    (rxarm p d).latRssi = d.latRssi := by simp [rxarm]
@[simp] theorem rxarm_latAfc (p : Params) (d : Context) :
    (rxarm p d).latAfc = d.latAfc := by simp [rxarm]
@[simp] theorem rxarm_rssiLast (p : Params) (d : Context) :
    (rxarm p d).rssiLast = d.rssiLast := by simp [rxarm]
@[simp] theorem rxarm_resetCount (p : Params) (d : Context) :
    (rxarm p d).resetCount = d.resetCount := by simp [rxarm]
@[simp] theorem rxarm_errorCount (p : Params) (d : Context) :
    (rxarm p d).errorCount = d.errorCount := by simp [rxarm]
@[simp] theorem rxarm_supervisorCounter (p : Params) (d : Context) :
    (rxarm p d).supervisorCounter = d.supervisorCounter := by simp [rxarm]
@[simp] theorem rxarm_cfg (p : Params) (d : Context) :
    (rxarm p d).cfg = d.cfg := by simp [rxarm]
@[simp] theorem rxarm_phy (p : Params) (d : Context) :
    (rxarm p d).phy = d.phy := by simp [rxarm]
@[simp] theorem rxarm_stDev (p : Params) (d : Context) :
    (rxarm p d).stDev = d.stDev := by simp [rxarm]
@[simp] theorem rxarm_stIs1 (p : Params) (d : Context) :
    (rxarm p d).stIs1 = d.stIs1 := by simp [rxarm]
@[simp] theorem rxarm_stIs2 (p : Params) (d : Context) :
    (rxarm p d).stIs2 = d.stIs2 := by simp [rxarm]
@[simp] theorem rxarm_ien1 (p : Params) (d : Context) :
    (rxarm p d).ien1 = ien1Rx := by simp [rxarm]
@[simp] theorem rxarm_ien2 (p : Params) (d : Context) :
    (rxarm p d).ien2 = ien2Rx := by simp [rxarm]
@[simp] theorem rxarm_sigLink (p : Params) (d : Context) :
    (rxarm p d).sigLink = d.sigLink := by simp [rxarm]
@[simp] theorem rxarm_sigTxdone (p : Params) (d : Context) :
    (rxarm p d).sigTxdone = d.sigTxdone := by simp [rxarm]
@[simp] theorem rxarm_txtimeoutReq (p : Params) (d : Context) :
    (rxarm p d).txtimeoutReq = d.txtimeoutReq := by simp [rxarm]
@[simp] theorem rxarm_sendPkt (p : Params) (d : Context) :
    (rxarm p d).sendPkt = d.sendPkt := by simp [rxarm]
@[simp] theorem rxarm_phyJobs (p : Params) (d : Context) :
    (rxarm p d).phyJobs = d.phyJobs := by simp [rxarm]
@[simp] theorem rxarm_answers (p : Params) (d : Context) :
    (rxarm p d).answers = d.answers := by simp [rxarm]
@[simp] theorem rxarm_reads (p : Params) (d : Context) :
    (rxarm p d).reads = d.reads := by simp [rxarm]
@[simp] theorem rxarm_preempts (p : Params) (d : Context) :
    (rxarm p d).preempts = d.preempts := by simp [rxarm]

/-! ## PROMOTE or DISCARD (the slots are in Laws/Procedures.lean) -/

@[simp] theorem promoteOrDiscard_mode (d : Context) :
    (promoteOrDiscard d).mode = d.mode := by
  unfold promoteOrDiscard; split <;> rfl
@[simp] theorem promoteOrDiscard_initialized (d : Context) :
    (promoteOrDiscard d).initialized = d.initialized := by
  unfold promoteOrDiscard; split <;> rfl
@[simp] theorem promoteOrDiscard_txq (d : Context) :
    (promoteOrDiscard d).txq = d.txq := by
  unfold promoteOrDiscard; split <;> rfl
@[simp] theorem promoteOrDiscard_txPkt (d : Context) :
    (promoteOrDiscard d).txPkt = d.txPkt := by
  unfold promoteOrDiscard; split <;> rfl
@[simp] theorem promoteOrDiscard_txRd (d : Context) :
    (promoteOrDiscard d).txRd = d.txRd := by
  unfold promoteOrDiscard; split <;> rfl
@[simp] theorem promoteOrDiscard_txWr (d : Context) :
    (promoteOrDiscard d).txWr = d.txWr := by
  unfold promoteOrDiscard; split <;> rfl
@[simp] theorem promoteOrDiscard_txSuccess (d : Context) :
    (promoteOrDiscard d).txSuccess = d.txSuccess := by
  unfold promoteOrDiscard; split <;> rfl
@[simp] theorem promoteOrDiscard_sendWait (d : Context) :
    (promoteOrDiscard d).sendWait = d.sendWait := by
  unfold promoteOrDiscard; split <;> rfl
@[simp] theorem promoteOrDiscard_recvWait (d : Context) :
    (promoteOrDiscard d).recvWait = d.recvWait := by
  unfold promoteOrDiscard; split <;> rfl
@[simp] theorem promoteOrDiscard_sendTimer (d : Context) :
    (promoteOrDiscard d).sendTimer = d.sendTimer := by
  unfold promoteOrDiscard; split <;> rfl
@[simp] theorem promoteOrDiscard_recvTimer (d : Context) :
    (promoteOrDiscard d).recvTimer = d.recvTimer := by
  unfold promoteOrDiscard; split <;> rfl
@[simp] theorem promoteOrDiscard_rxWr (d : Context) :
    (promoteOrDiscard d).rxWr = 0#9 := by
  unfold promoteOrDiscard; split <;> rfl
@[simp] theorem promoteOrDiscard_latRssi (d : Context) :
    (promoteOrDiscard d).latRssi = d.latRssi := by
  unfold promoteOrDiscard; split <;> rfl
@[simp] theorem promoteOrDiscard_latAfc (d : Context) :
    (promoteOrDiscard d).latAfc = d.latAfc := by
  unfold promoteOrDiscard; split <;> rfl
@[simp] theorem promoteOrDiscard_rssiLast (d : Context) :
    (promoteOrDiscard d).rssiLast = d.rssiLast := by
  unfold promoteOrDiscard; split <;> rfl
@[simp] theorem promoteOrDiscard_resetCount (d : Context) :
    (promoteOrDiscard d).resetCount = d.resetCount := by
  unfold promoteOrDiscard; split <;> rfl
@[simp] theorem promoteOrDiscard_errorCount (d : Context) :
    (promoteOrDiscard d).errorCount = d.errorCount := by
  unfold promoteOrDiscard; split <;> rfl
@[simp] theorem promoteOrDiscard_supervisorCounter (d : Context) :
    (promoteOrDiscard d).supervisorCounter = d.supervisorCounter := by
  unfold promoteOrDiscard; split <;> rfl
@[simp] theorem promoteOrDiscard_cfg (d : Context) :
    (promoteOrDiscard d).cfg = d.cfg := by
  unfold promoteOrDiscard; split <;> rfl
@[simp] theorem promoteOrDiscard_phy (d : Context) :
    (promoteOrDiscard d).phy = d.phy := by
  unfold promoteOrDiscard; split <;> rfl
@[simp] theorem promoteOrDiscard_stDev (d : Context) :
    (promoteOrDiscard d).stDev = d.stDev := by
  unfold promoteOrDiscard; split <;> rfl
@[simp] theorem promoteOrDiscard_stIs1 (d : Context) :
    (promoteOrDiscard d).stIs1 = d.stIs1 := by
  unfold promoteOrDiscard; split <;> rfl
@[simp] theorem promoteOrDiscard_stIs2 (d : Context) :
    (promoteOrDiscard d).stIs2 = d.stIs2 := by
  unfold promoteOrDiscard; split <;> rfl
@[simp] theorem promoteOrDiscard_ien1 (d : Context) :
    (promoteOrDiscard d).ien1 = d.ien1 := by
  unfold promoteOrDiscard; split <;> rfl
@[simp] theorem promoteOrDiscard_ien2 (d : Context) :
    (promoteOrDiscard d).ien2 = d.ien2 := by
  unfold promoteOrDiscard; split <;> rfl
@[simp] theorem promoteOrDiscard_sigLink (d : Context) :
    (promoteOrDiscard d).sigLink = d.sigLink := by
  unfold promoteOrDiscard; split <;> rfl
@[simp] theorem promoteOrDiscard_sigTxdone (d : Context) :
    (promoteOrDiscard d).sigTxdone = d.sigTxdone := by
  unfold promoteOrDiscard; split <;> rfl
@[simp] theorem promoteOrDiscard_txtimeoutReq (d : Context) :
    (promoteOrDiscard d).txtimeoutReq = d.txtimeoutReq := by
  unfold promoteOrDiscard; split <;> rfl
@[simp] theorem promoteOrDiscard_sendPkt (d : Context) :
    (promoteOrDiscard d).sendPkt = d.sendPkt := by
  unfold promoteOrDiscard; split <;> rfl
@[simp] theorem promoteOrDiscard_phyJobs (d : Context) :
    (promoteOrDiscard d).phyJobs = d.phyJobs := by
  unfold promoteOrDiscard; split <;> rfl
@[simp] theorem promoteOrDiscard_answers (d : Context) :
    (promoteOrDiscard d).answers = d.answers := by
  unfold promoteOrDiscard; split <;> rfl
@[simp] theorem promoteOrDiscard_reads (d : Context) :
    (promoteOrDiscard d).reads = d.reads := by
  unfold promoteOrDiscard; split <;> rfl
@[simp] theorem promoteOrDiscard_preempts (d : Context) :
    (promoteOrDiscard d).preempts = d.preempts := by
  unfold promoteOrDiscard; split <;> rfl
@[simp] theorem promoteOrDiscard_bus (d : Context) :
    (promoteOrDiscard d).bus = d.bus := by
  unfold promoteOrDiscard; split <;> rfl

/-! ## WAKE's branch (what it delivers is in Laws/Procedures.lean) -/

@[simp] theorem wakeDeliver_mode (d : Context) :
    (wakeDeliver d).mode = d.mode := by
  unfold wakeDeliver; split_ifs <;> rfl
@[simp] theorem wakeDeliver_initialized (d : Context) :
    (wakeDeliver d).initialized = d.initialized := by
  unfold wakeDeliver; split_ifs <;> rfl
@[simp] theorem wakeDeliver_txq (d : Context) :
    (wakeDeliver d).txq = d.txq := by
  unfold wakeDeliver; split_ifs <;> rfl
@[simp] theorem wakeDeliver_txRd (d : Context) :
    (wakeDeliver d).txRd = d.txRd := by
  unfold wakeDeliver; split_ifs <;> rfl
@[simp] theorem wakeDeliver_txWr (d : Context) :
    (wakeDeliver d).txWr = d.txWr := by
  unfold wakeDeliver; split_ifs <;> rfl
@[simp] theorem wakeDeliver_sendWait (d : Context) :
    (wakeDeliver d).sendWait = d.sendWait := by
  unfold wakeDeliver; split_ifs <;> rfl
@[simp] theorem wakeDeliver_recvWait (d : Context) :
    (wakeDeliver d).recvWait = d.recvWait := by
  unfold wakeDeliver; split_ifs <;> rfl
@[simp] theorem wakeDeliver_sendTimer (d : Context) :
    (wakeDeliver d).sendTimer = d.sendTimer := by
  unfold wakeDeliver; split_ifs <;> rfl
@[simp] theorem wakeDeliver_recvTimer (d : Context) :
    (wakeDeliver d).recvTimer = d.recvTimer := by
  unfold wakeDeliver; split_ifs <;> rfl
@[simp] theorem wakeDeliver_rxActive (d : Context) :
    (wakeDeliver d).rxActive = d.rxActive := by
  unfold wakeDeliver; split_ifs <;> rfl
@[simp] theorem wakeDeliver_rxNext (d : Context) :
    (wakeDeliver d).rxNext = d.rxNext := by
  unfold wakeDeliver; split_ifs <;> rfl
@[simp] theorem wakeDeliver_rxWr (d : Context) :
    (wakeDeliver d).rxWr = d.rxWr := by
  unfold wakeDeliver; split_ifs <;> rfl
@[simp] theorem wakeDeliver_latRssi (d : Context) :
    (wakeDeliver d).latRssi = d.latRssi := by
  unfold wakeDeliver; split_ifs <;> rfl
@[simp] theorem wakeDeliver_latAfc (d : Context) :
    (wakeDeliver d).latAfc = d.latAfc := by
  unfold wakeDeliver; split_ifs <;> rfl
@[simp] theorem wakeDeliver_rssiLast (d : Context) :
    (wakeDeliver d).rssiLast = d.rssiLast := by
  unfold wakeDeliver; split_ifs <;> rfl
@[simp] theorem wakeDeliver_resetCount (d : Context) :
    (wakeDeliver d).resetCount = d.resetCount := by
  unfold wakeDeliver; split_ifs <;> rfl
@[simp] theorem wakeDeliver_errorCount (d : Context) :
    (wakeDeliver d).errorCount = d.errorCount := by
  unfold wakeDeliver; split_ifs <;> rfl
@[simp] theorem wakeDeliver_supervisorCounter (d : Context) :
    (wakeDeliver d).supervisorCounter = d.supervisorCounter := by
  unfold wakeDeliver; split_ifs <;> rfl
@[simp] theorem wakeDeliver_cfg (d : Context) :
    (wakeDeliver d).cfg = d.cfg := by
  unfold wakeDeliver; split_ifs <;> rfl
@[simp] theorem wakeDeliver_phy (d : Context) :
    (wakeDeliver d).phy = d.phy := by
  unfold wakeDeliver; split_ifs <;> rfl
@[simp] theorem wakeDeliver_stDev (d : Context) :
    (wakeDeliver d).stDev = d.stDev := by
  unfold wakeDeliver; split_ifs <;> rfl
@[simp] theorem wakeDeliver_stIs1 (d : Context) :
    (wakeDeliver d).stIs1 = d.stIs1 := by
  unfold wakeDeliver; split_ifs <;> rfl
@[simp] theorem wakeDeliver_stIs2 (d : Context) :
    (wakeDeliver d).stIs2 = d.stIs2 := by
  unfold wakeDeliver; split_ifs <;> rfl
@[simp] theorem wakeDeliver_ien1 (d : Context) :
    (wakeDeliver d).ien1 = d.ien1 := by
  unfold wakeDeliver; split_ifs <;> rfl
@[simp] theorem wakeDeliver_ien2 (d : Context) :
    (wakeDeliver d).ien2 = d.ien2 := by
  unfold wakeDeliver; split_ifs <;> rfl
@[simp] theorem wakeDeliver_sigLink (d : Context) :
    (wakeDeliver d).sigLink = d.sigLink := by
  unfold wakeDeliver; split_ifs <;> rfl
@[simp] theorem wakeDeliver_txtimeoutReq (d : Context) :
    (wakeDeliver d).txtimeoutReq = d.txtimeoutReq := by
  unfold wakeDeliver; split_ifs <;> rfl
@[simp] theorem wakeDeliver_sendPkt (d : Context) :
    (wakeDeliver d).sendPkt = d.sendPkt := by
  unfold wakeDeliver; split_ifs <;> rfl
@[simp] theorem wakeDeliver_phyJobs (d : Context) :
    (wakeDeliver d).phyJobs = d.phyJobs := by
  unfold wakeDeliver; split_ifs <;> rfl
@[simp] theorem wakeDeliver_answers (d : Context) :
    (wakeDeliver d).answers = d.answers := by
  unfold wakeDeliver; split_ifs <;> rfl
@[simp] theorem wakeDeliver_reads (d : Context) :
    (wakeDeliver d).reads = d.reads := by
  unfold wakeDeliver; split_ifs <;> rfl
@[simp] theorem wakeDeliver_preempts (d : Context) :
    (wakeDeliver d).preempts = d.preempts := by
  unfold wakeDeliver; split_ifs <;> rfl
@[simp] theorem wakeDeliver_bus (d : Context) :
    (wakeDeliver d).bus = d.bus := by
  unfold wakeDeliver; split_ifs <;> rfl

/-! ## BRINGUP up to the identity reads (R206 steps 1 to 4) -/

@[simp] theorem bringupProbed_mode (p : Params) (h : Nat) (d : Context) :
    (bringupProbed p h d).mode = d.mode := by simp [bringupProbed, bringupReset]
@[simp] theorem bringupProbed_initialized (p : Params) (h : Nat) (d : Context) :
    (bringupProbed p h d).initialized = false := by simp [bringupProbed, bringupReset]
@[simp] theorem bringupProbed_txq (p : Params) (h : Nat) (d : Context) :
    (bringupProbed p h d).txq = d.txq := by simp [bringupProbed, bringupReset]
@[simp] theorem bringupProbed_txPkt (p : Params) (h : Nat) (d : Context) :
    (bringupProbed p h d).txPkt = d.txPkt := by simp [bringupProbed, bringupReset]
@[simp] theorem bringupProbed_txRd (p : Params) (h : Nat) (d : Context) :
    (bringupProbed p h d).txRd = d.txRd := by simp [bringupProbed, bringupReset]
@[simp] theorem bringupProbed_txWr (p : Params) (h : Nat) (d : Context) :
    (bringupProbed p h d).txWr = d.txWr := by simp [bringupProbed, bringupReset]
@[simp] theorem bringupProbed_txSuccess (p : Params) (h : Nat) (d : Context) :
    (bringupProbed p h d).txSuccess = d.txSuccess := by simp [bringupProbed, bringupReset]
@[simp] theorem bringupProbed_sendWait (p : Params) (h : Nat) (d : Context) :
    (bringupProbed p h d).sendWait = d.sendWait := by simp [bringupProbed, bringupReset]
@[simp] theorem bringupProbed_recvWait (p : Params) (h : Nat) (d : Context) :
    (bringupProbed p h d).recvWait = d.recvWait := by simp [bringupProbed, bringupReset]
@[simp] theorem bringupProbed_sendTimer (p : Params) (h : Nat) (d : Context) :
    (bringupProbed p h d).sendTimer = d.sendTimer := by simp [bringupProbed, bringupReset]
@[simp] theorem bringupProbed_recvTimer (p : Params) (h : Nat) (d : Context) :
    (bringupProbed p h d).recvTimer = d.recvTimer := by simp [bringupProbed, bringupReset]
@[simp] theorem bringupProbed_rxActive (p : Params) (h : Nat) (d : Context) :
    (bringupProbed p h d).rxActive = d.rxActive := by simp [bringupProbed, bringupReset]
@[simp] theorem bringupProbed_rxNext (p : Params) (h : Nat) (d : Context) :
    (bringupProbed p h d).rxNext = d.rxNext := by simp [bringupProbed, bringupReset]
@[simp] theorem bringupProbed_rxCompleted (p : Params) (h : Nat) (d : Context) :
    (bringupProbed p h d).rxCompleted = d.rxCompleted := by simp [bringupProbed, bringupReset]
@[simp] theorem bringupProbed_rxWr (p : Params) (h : Nat) (d : Context) :
    (bringupProbed p h d).rxWr = d.rxWr := by simp [bringupProbed, bringupReset]
@[simp] theorem bringupProbed_latRssi (p : Params) (h : Nat) (d : Context) :
    (bringupProbed p h d).latRssi = d.latRssi := by simp [bringupProbed, bringupReset]
@[simp] theorem bringupProbed_latAfc (p : Params) (h : Nat) (d : Context) :
    (bringupProbed p h d).latAfc = d.latAfc := by simp [bringupProbed, bringupReset]
@[simp] theorem bringupProbed_rssiLast (p : Params) (h : Nat) (d : Context) :
    (bringupProbed p h d).rssiLast = d.rssiLast := by simp [bringupProbed, bringupReset]
@[simp] theorem bringupProbed_resetCount (p : Params) (h : Nat) (d : Context) :
    (bringupProbed p h d).resetCount = d.resetCount := by simp [bringupProbed, bringupReset]
@[simp] theorem bringupProbed_errorCount (p : Params) (h : Nat) (d : Context) :
    (bringupProbed p h d).errorCount = d.errorCount := by simp [bringupProbed, bringupReset]
@[simp] theorem bringupProbed_supervisorCounter (p : Params) (h : Nat) (d : Context) :
    (bringupProbed p h d).supervisorCounter = d.supervisorCounter := by simp [bringupProbed, bringupReset]
@[simp] theorem bringupProbed_cfg (p : Params) (h : Nat) (d : Context) :
    (bringupProbed p h d).cfg = d.cfg := by simp [bringupProbed, bringupReset]
@[simp] theorem bringupProbed_phy (p : Params) (h : Nat) (d : Context) :
    (bringupProbed p h d).phy = d.phy := by simp [bringupProbed, bringupReset]
@[simp] theorem bringupProbed_stDev (p : Params) (h : Nat) (d : Context) :
    (bringupProbed p h d).stDev = d.stDev := by simp [bringupProbed, bringupReset]
@[simp] theorem bringupProbed_stIs1 (p : Params) (h : Nat) (d : Context) :
    (bringupProbed p h d).stIs1 = d.stIs1 := by simp [bringupProbed, bringupReset]
@[simp] theorem bringupProbed_stIs2 (p : Params) (h : Nat) (d : Context) :
    (bringupProbed p h d).stIs2 = d.stIs2 := by simp [bringupProbed, bringupReset]
@[simp] theorem bringupProbed_ien1 (p : Params) (h : Nat) (d : Context) :
    (bringupProbed p h d).ien1 = d.ien1 := by simp [bringupProbed, bringupReset]
@[simp] theorem bringupProbed_ien2 (p : Params) (h : Nat) (d : Context) :
    (bringupProbed p h d).ien2 = d.ien2 := by simp [bringupProbed, bringupReset]
@[simp] theorem bringupProbed_sigLink (p : Params) (h : Nat) (d : Context) :
    (bringupProbed p h d).sigLink = d.sigLink := by simp [bringupProbed, bringupReset]
@[simp] theorem bringupProbed_sigTxdone (p : Params) (h : Nat) (d : Context) :
    (bringupProbed p h d).sigTxdone = d.sigTxdone := by simp [bringupProbed, bringupReset]
@[simp] theorem bringupProbed_txtimeoutReq (p : Params) (h : Nat) (d : Context) :
    (bringupProbed p h d).txtimeoutReq = d.txtimeoutReq := by simp [bringupProbed, bringupReset]
@[simp] theorem bringupProbed_sendPkt (p : Params) (h : Nat) (d : Context) :
    (bringupProbed p h d).sendPkt = d.sendPkt := by simp [bringupProbed, bringupReset]
@[simp] theorem bringupProbed_phyJobs (p : Params) (h : Nat) (d : Context) :
    (bringupProbed p h d).phyJobs = d.phyJobs := by simp [bringupProbed, bringupReset]
@[simp] theorem bringupProbed_preempts (p : Params) (h : Nat) (d : Context) :
    (bringupProbed p h d).preempts = d.preempts := by simp [bringupProbed, bringupReset]

/-! ## FORCE_RESET step 2 on the slots -/

@[simp] theorem recycleSlots_mode (d : Context) :
    (recycleSlots d).mode = d.mode := by simp [recycleSlots]
@[simp] theorem recycleSlots_initialized (d : Context) :
    (recycleSlots d).initialized = d.initialized := by simp [recycleSlots]
@[simp] theorem recycleSlots_txq (d : Context) :
    (recycleSlots d).txq = d.txq := by simp [recycleSlots]
@[simp] theorem recycleSlots_txPkt (d : Context) :
    (recycleSlots d).txPkt = d.txPkt := by simp [recycleSlots]
@[simp] theorem recycleSlots_txRd (d : Context) :
    (recycleSlots d).txRd = d.txRd := by simp [recycleSlots]
@[simp] theorem recycleSlots_txWr (d : Context) :
    (recycleSlots d).txWr = d.txWr := by simp [recycleSlots]
@[simp] theorem recycleSlots_txSuccess (d : Context) :
    (recycleSlots d).txSuccess = d.txSuccess := by simp [recycleSlots]
@[simp] theorem recycleSlots_sendWait (d : Context) :
    (recycleSlots d).sendWait = d.sendWait := by simp [recycleSlots]
@[simp] theorem recycleSlots_recvWait (d : Context) :
    (recycleSlots d).recvWait = d.recvWait := by simp [recycleSlots]
@[simp] theorem recycleSlots_sendTimer (d : Context) :
    (recycleSlots d).sendTimer = d.sendTimer := by simp [recycleSlots]
@[simp] theorem recycleSlots_recvTimer (d : Context) :
    (recycleSlots d).recvTimer = d.recvTimer := by simp [recycleSlots]
@[simp] theorem recycleSlots_rxActive (d : Context) :
    (recycleSlots d).rxActive = d.rxActive := by simp [recycleSlots]
@[simp] theorem recycleSlots_rxCompleted (d : Context) :
    (recycleSlots d).rxCompleted = none := by simp [recycleSlots]
@[simp] theorem recycleSlots_rxWr (d : Context) :
    (recycleSlots d).rxWr = d.rxWr := by simp [recycleSlots]
@[simp] theorem recycleSlots_latRssi (d : Context) :
    (recycleSlots d).latRssi = d.latRssi := by simp [recycleSlots]
@[simp] theorem recycleSlots_latAfc (d : Context) :
    (recycleSlots d).latAfc = d.latAfc := by simp [recycleSlots]
@[simp] theorem recycleSlots_rssiLast (d : Context) :
    (recycleSlots d).rssiLast = d.rssiLast := by simp [recycleSlots]
@[simp] theorem recycleSlots_resetCount (d : Context) :
    (recycleSlots d).resetCount = d.resetCount := by simp [recycleSlots]
@[simp] theorem recycleSlots_errorCount (d : Context) :
    (recycleSlots d).errorCount = d.errorCount := by simp [recycleSlots]
@[simp] theorem recycleSlots_supervisorCounter (d : Context) :
    (recycleSlots d).supervisorCounter = d.supervisorCounter := by simp [recycleSlots]
@[simp] theorem recycleSlots_cfg (d : Context) :
    (recycleSlots d).cfg = d.cfg := by simp [recycleSlots]
@[simp] theorem recycleSlots_phy (d : Context) :
    (recycleSlots d).phy = d.phy := by simp [recycleSlots]
@[simp] theorem recycleSlots_stDev (d : Context) :
    (recycleSlots d).stDev = d.stDev := by simp [recycleSlots]
@[simp] theorem recycleSlots_stIs1 (d : Context) :
    (recycleSlots d).stIs1 = d.stIs1 := by simp [recycleSlots]
@[simp] theorem recycleSlots_stIs2 (d : Context) :
    (recycleSlots d).stIs2 = d.stIs2 := by simp [recycleSlots]
@[simp] theorem recycleSlots_ien1 (d : Context) :
    (recycleSlots d).ien1 = d.ien1 := by simp [recycleSlots]
@[simp] theorem recycleSlots_ien2 (d : Context) :
    (recycleSlots d).ien2 = d.ien2 := by simp [recycleSlots]
@[simp] theorem recycleSlots_sigLink (d : Context) :
    (recycleSlots d).sigLink = d.sigLink := by simp [recycleSlots]
@[simp] theorem recycleSlots_sigTxdone (d : Context) :
    (recycleSlots d).sigTxdone = d.sigTxdone := by simp [recycleSlots]
@[simp] theorem recycleSlots_txtimeoutReq (d : Context) :
    (recycleSlots d).txtimeoutReq = d.txtimeoutReq := by simp [recycleSlots]
@[simp] theorem recycleSlots_sendPkt (d : Context) :
    (recycleSlots d).sendPkt = d.sendPkt := by simp [recycleSlots]
@[simp] theorem recycleSlots_phyJobs (d : Context) :
    (recycleSlots d).phyJobs = d.phyJobs := by simp [recycleSlots]
@[simp] theorem recycleSlots_answers (d : Context) :
    (recycleSlots d).answers = d.answers := by simp [recycleSlots]
@[simp] theorem recycleSlots_reads (d : Context) :
    (recycleSlots d).reads = d.reads := by simp [recycleSlots]
@[simp] theorem recycleSlots_preempts (d : Context) :
    (recycleSlots d).preempts = d.preempts := by simp [recycleSlots]
@[simp] theorem recycleSlots_bus (d : Context) :
    (recycleSlots d).bus = d.bus := by simp [recycleSlots]

/-! ## INIT steps 2 and 3 -/

@[simp] theorem initContext_mode (r : Settings) (d : Context) :
    (initContext r d).mode = d.mode := by simp [initContext]
@[simp] theorem initContext_initialized (r : Settings) (d : Context) :
    (initContext r d).initialized = d.initialized := by simp [initContext]
@[simp] theorem initContext_txq (r : Settings) (d : Context) :
    (initContext r d).txq = d.txq := by simp [initContext]
@[simp] theorem initContext_txPkt (r : Settings) (d : Context) :
    (initContext r d).txPkt = d.txPkt := by simp [initContext]
@[simp] theorem initContext_txRd (r : Settings) (d : Context) :
    (initContext r d).txRd = d.txRd := by simp [initContext]
@[simp] theorem initContext_txWr (r : Settings) (d : Context) :
    (initContext r d).txWr = d.txWr := by simp [initContext]
@[simp] theorem initContext_txSuccess (r : Settings) (d : Context) :
    (initContext r d).txSuccess = d.txSuccess := by simp [initContext]
@[simp] theorem initContext_sendWait (r : Settings) (d : Context) :
    (initContext r d).sendWait = d.sendWait := by simp [initContext]
@[simp] theorem initContext_recvWait (r : Settings) (d : Context) :
    (initContext r d).recvWait = d.recvWait := by simp [initContext]
@[simp] theorem initContext_sendTimer (r : Settings) (d : Context) :
    (initContext r d).sendTimer = d.sendTimer := by simp [initContext]
@[simp] theorem initContext_recvTimer (r : Settings) (d : Context) :
    (initContext r d).recvTimer = d.recvTimer := by simp [initContext]
@[simp] theorem initContext_rxActive (r : Settings) (d : Context) :
    (initContext r d).rxActive = d.rxActive := by simp [initContext]
@[simp] theorem initContext_rxNext (r : Settings) (d : Context) :
    (initContext r d).rxNext = d.rxNext := by simp [initContext]
@[simp] theorem initContext_rxCompleted (r : Settings) (d : Context) :
    (initContext r d).rxCompleted = d.rxCompleted := by simp [initContext]
@[simp] theorem initContext_rxWr (r : Settings) (d : Context) :
    (initContext r d).rxWr = d.rxWr := by simp [initContext]
@[simp] theorem initContext_latRssi (r : Settings) (d : Context) :
    (initContext r d).latRssi = d.latRssi := by simp [initContext]
@[simp] theorem initContext_latAfc (r : Settings) (d : Context) :
    (initContext r d).latAfc = d.latAfc := by simp [initContext]
@[simp] theorem initContext_rssiLast (r : Settings) (d : Context) :
    (initContext r d).rssiLast = 0x81#8 := by simp [initContext]
@[simp] theorem initContext_resetCount (r : Settings) (d : Context) :
    (initContext r d).resetCount = 0#16 := by simp [initContext]
@[simp] theorem initContext_errorCount (r : Settings) (d : Context) :
    (initContext r d).errorCount = 0#32 := by simp [initContext]
@[simp] theorem initContext_supervisorCounter (r : Settings) (d : Context) :
    (initContext r d).supervisorCounter = 0#32 := by simp [initContext]
@[simp] theorem initContext_phy (r : Settings) (d : Context) :
    (initContext r d).phy = d.phy := by simp [initContext]
@[simp] theorem initContext_stDev (r : Settings) (d : Context) :
    (initContext r d).stDev = d.stDev := by simp [initContext]
@[simp] theorem initContext_stIs1 (r : Settings) (d : Context) :
    (initContext r d).stIs1 = d.stIs1 := by simp [initContext]
@[simp] theorem initContext_stIs2 (r : Settings) (d : Context) :
    (initContext r d).stIs2 = d.stIs2 := by simp [initContext]
@[simp] theorem initContext_ien1 (r : Settings) (d : Context) :
    (initContext r d).ien1 = d.ien1 := by simp [initContext]
@[simp] theorem initContext_ien2 (r : Settings) (d : Context) :
    (initContext r d).ien2 = d.ien2 := by simp [initContext]
@[simp] theorem initContext_sigLink (r : Settings) (d : Context) :
    (initContext r d).sigLink = d.sigLink := by simp [initContext]
@[simp] theorem initContext_sigTxdone (r : Settings) (d : Context) :
    (initContext r d).sigTxdone = d.sigTxdone := by simp [initContext]
@[simp] theorem initContext_txtimeoutReq (r : Settings) (d : Context) :
    (initContext r d).txtimeoutReq = d.txtimeoutReq := by simp [initContext]
@[simp] theorem initContext_sendPkt (r : Settings) (d : Context) :
    (initContext r d).sendPkt = d.sendPkt := by simp [initContext]
@[simp] theorem initContext_phyJobs (r : Settings) (d : Context) :
    (initContext r d).phyJobs = d.phyJobs := by simp [initContext]
@[simp] theorem initContext_answers (r : Settings) (d : Context) :
    (initContext r d).answers = d.answers := by simp [initContext]
@[simp] theorem initContext_reads (r : Settings) (d : Context) :
    (initContext r d).reads = d.reads := by simp [initContext]
@[simp] theorem initContext_preempts (r : Settings) (d : Context) :
    (initContext r d).preempts = d.preempts := by simp [initContext]
@[simp] theorem initContext_bus (r : Settings) (d : Context) :
    (initContext r d).bus = d.bus := by simp [initContext]

end Sys2Proof.Machine
end

