-- ==== Sys2Proof/Laws/Memory.lean ====
section
/-! SUPPORT. BUF memory: reading after writing, what a write leaves alone, the canonical form, the extent. -/

namespace Sys2Proof.Machine

/-! ## One byte -/

theorem Memory.get?_write_same (m : Memory) (a : Nat) (v : U8) : Memory.get? (Memory.write m a v) a = some v := by
  induction m with
  | nil => simp [Memory.write, Memory.get?]
  | cons c m ih =>
    obtain ⟨b, w⟩ := c
    unfold Memory.write
    split
    · simp [Memory.get?]
    · split
      · simp [Memory.get?]
      · simp [Memory.get?, *]

theorem Memory.get?_write_ne (m : Memory) (a b : Nat) (v : U8) (h : b ≠ a) :
    Memory.get? (Memory.write m a v) b = Memory.get? m b := by
  induction m with
  | nil => simp [Memory.write, Memory.get?, h]
  | cons c m ih =>
    obtain ⟨b', w⟩ := c
    unfold Memory.write
    split
    · simp [Memory.get?, h]
    · split
      · subst_vars; simp [Memory.get?, h]
      · simp only [Memory.get?, ih]

/-- The byte read back is the byte written. -/
@[simp] theorem Memory.read_write_same (m : Memory) (a : Nat) (v : U8) : Memory.read (Memory.write m a v) a = v := by
  simp [Memory.read, Memory.get?_write_same]

/-- A write leaves every other byte alone. -/
theorem Memory.read_write_ne (m : Memory) (a b : Nat) (v : U8) (h : b ≠ a) :
    Memory.read (Memory.write m a v) b = Memory.read m b := by
  simp [Memory.read, Memory.get?_write_ne m a b v h]

/-! ## Several bytes -/

/-- Bytes outside the written range keep their values. -/
theorem Memory.read_writeList_outside (vs : List U8) (m : Memory) (a b : Nat)
    (h : b < a ∨ a + vs.length ≤ b) : Memory.read (Memory.writeList m a vs) b = Memory.read m b := by
  induction vs generalizing m a with
  | nil => rfl
  | cons v vs ih =>
    simp only [List.length_cons] at h
    rw [Memory.writeList, ih _ _ (by omega), Memory.read_write_ne _ _ _ _ (by omega)]

/-- The written bytes are read back in order. -/
theorem Memory.read_writeList_inside (vs : List U8) (m : Memory) (a i : Nat) (h : i < vs.length) :
    Memory.read (Memory.writeList m a vs) (a + i) = vs[i] := by
  induction vs generalizing m a i with
  | nil => simp at h
  | cons v vs ih =>
    rw [Memory.writeList]
    cases i with
    | zero => simp [Memory.read_writeList_outside vs _ (a + 1) a (by omega)]
    | succ i =>
      have := ih (Memory.write m a v) (a + 1) i (by simpa using h)
      rw [show a + (i + 1) = a + 1 + i by omega, this]; rfl

@[simp] theorem Memory.readList_length (m : Memory) (a n : Nat) : (Memory.readList m a n).length = n := by
  simp [Memory.readList]

/-! ## The canonical form -/

theorem Memory.wf_iff (m : Memory) : Memory.wf m = true ↔ m.Pairwise fun x y => x.1 < y.1 := by
  simp [Memory.wf, Memory.unlisted]

/-- Every address of a written list is the written one or an old one. -/
theorem Memory.mem_write {m : Memory} {a : Nat} {v : U8} {c : Host.Cell} (h : c ∈ Memory.write m a v) :
    c = (a, v) ∨ c ∈ m := by
  induction m with
  | nil => simpa [Memory.write] using h
  | cons e m ih =>
    obtain ⟨b, w⟩ := e
    unfold Memory.write at h
    split at h
    · simpa using h
    · split at h
      · rcases List.mem_cons.mp h with h | h <;> simp [h]
      · rcases List.mem_cons.mp h with h | h
        · simp [h]
        · rcases ih h with h | h <;> simp [h]

/-- A write keeps the canonical form. -/
theorem Memory.wf_write {m : Memory} (hm : Memory.wf m = true) (a : Nat) (v : U8) :
    Memory.wf (Memory.write m a v) = true := by
  rw [Memory.wf_iff] at hm ⊢
  induction m with
  | nil => simp [Memory.write]
  | cons e m ih =>
    obtain ⟨b, w⟩ := e
    obtain ⟨hb, hm'⟩ := List.pairwise_cons.mp hm
    unfold Memory.write
    split
    · rename_i hlt
      refine List.pairwise_cons.mpr ⟨?_, hm⟩
      intro c hc
      rcases List.mem_cons.mp hc with rfl | hc
      · exact hlt
      · exact Nat.lt_trans hlt (hb c hc)
    · split
      · subst_vars
        exact List.pairwise_cons.mpr ⟨hb, hm'⟩
      · refine List.pairwise_cons.mpr ⟨?_, ih hm'⟩
        intro c hc
        rcases Memory.mem_write hc with rfl | hc
        · simp; omega
        · exact hb c hc

theorem Memory.wf_writeList (vs : List U8) {m : Memory} (hm : Memory.wf m = true) (a : Nat) :
    Memory.wf (Memory.writeList m a vs) = true := by
  induction vs generalizing m a with
  | nil => exact hm
  | cons v vs ih => exact ih (Memory.wf_write hm a v) _

/-- The memory stays below a bound that every written address stays below. -/
theorem Memory.inside_write {m : Memory} {n a : Nat} {v : U8} (hm : ∀ c ∈ m, c.1 < n) (ha : a < n) :
    ∀ c ∈ Memory.write m a v, c.1 < n := by
  intro c hc
  rcases Memory.mem_write hc with rfl | hc
  · exact ha
  · exact hm c hc

theorem Memory.inside_writeList (vs : List U8) {m : Memory} {n a : Nat} (hm : ∀ c ∈ m, c.1 < n)
    (ha : a + vs.length ≤ n) : ∀ c ∈ Memory.writeList m a vs, c.1 < n := by
  induction vs generalizing m a with
  | nil => exact hm
  | cons v vs ih =>
    simp only [List.length_cons] at ha
    exact ih (Memory.inside_write hm (by omega)) (by omega)

/-! ## Addresses: different buffers do not overlap, and a buffer's fields lie inside it -/

theorem lenAddr_lt {n k : Nat} (h : k < n) : lenAddr k < n * bufSize := by
  simp only [lenAddr, bufSize, Config.hdrLen, Config.bufCap, Config.maxLen, Config.metaLen]; omega

theorem dataAddr_add_le {n k i j : Nat} (h : k < n) (hi : i + j ≤ Config.bufCap) :
    dataAddr k i + j ≤ n * bufSize := by
  simp only [dataAddr, bufSize, Config.hdrLen, Config.bufCap, Config.maxLen, Config.metaLen] at *; omega

theorem fieldAddr_lt {n k : Nat} (h : k < n) (f : BufField) : fieldAddr k f < n * bufSize := by
  cases f with
  | hdr i =>
    have := i.isLt
    simp only [fieldAddr, hdrAddr, bufSize, Config.hdrLen, Config.bufCap, Config.maxLen, Config.metaLen]; omega
  | len => exact lenAddr_lt h
  | data i =>
    have := i.isLt
    simp only [fieldAddr, dataAddr, bufSize, Config.hdrLen, Config.bufCap, Config.maxLen, Config.metaLen]; omega

/-- Every field of buffer `k` lies in `k`'s own stretch of BUF. -/
theorem fieldAddr_range (k : Nat) (f : BufField) : k * bufSize ≤ fieldAddr k f ∧ fieldAddr k f < (k + 1) * bufSize := by
  refine ⟨?_, fieldAddr_lt (Nat.lt_succ_self k) f⟩
  cases f <;> simp only [fieldAddr, hdrAddr, lenAddr, dataAddr] <;> omega

end Sys2Proof.Machine
end

