-- ==== Sys2Proof/Laws/Procedures.lean ====
section
/-! SUPPORT. For each shared operation, once, everything it can do: what a statement's proof cites instead of unfolding
the operation. -/

namespace Sys2Proof.Machine

/-! ## Reaching an instance -/

theorem onEvent_none {hnd : U8} {s : State} (h : s.devs[hnd.toNat]? = none) (rule : Nat → Context → Res) :
    onEvent hnd s rule = .next s := by simp [onEvent, h]

theorem onEvent_uninitialized {hnd : U8} {s : State} {d : Context} (h : s.devs[hnd.toNat]? = some d)
    (hi : d.initialized = false) (rule : Nat → Context → Res) : onEvent hnd s rule = .next s := by
  simp [onEvent, h, hi]

theorem onEvent_initialized {hnd : U8} {s : State} {d : Context} (h : s.devs[hnd.toNat]? = some d)
    (hi : d.initialized = true) (rule : Nat → Context → Res) : onEvent hnd s rule = rule hnd.toNat d := by
  simp [onEvent, h, hi]

/-- What an event can do: nothing, or its rule on an initialised instance. -/
theorem onEvent_eq_next {hnd : U8} {s t : State} {rule : Nat → Context → Res} (h : onEvent hnd s rule = .next t) :
    t = s ∨ ∃ d, s.devs[hnd.toNat]? = some d ∧ d.initialized = true ∧ rule hnd.toNat d = .next t := by
  unfold onEvent at h
  split at h
  · cases h; exact .inl rfl
  · rename_i d hd
    split at h
    · exact .inr ⟨d, hd, ‹_›, h⟩
    · cases h; exact .inl rfl

theorem onCommand_none {opc hnd : U8} {s : State} (h : s.devs[hnd.toNat]? = none) (rule : Nat → Context → Res) :
    onCommand opc hnd s rule = .next (s.respond opc hnd .errBadHandle 0#32) := by simp [onCommand, h]

theorem onCommand_some {opc hnd : U8} {s : State} {d : Context} (h : s.devs[hnd.toNat]? = some d)
    (rule : Nat → Context → Res) : onCommand opc hnd s rule = rule hnd.toNat d := by simp [onCommand, h]

/-- What a command can do: a refusal for want of the instance, or its rule. -/
theorem onCommand_eq_next {opc hnd : U8} {s t : State} {rule : Nat → Context → Res}
    (h : onCommand opc hnd s rule = .next t) :
    (s.devs[hnd.toNat]? = none ∧ t = s.respond opc hnd .errBadHandle 0#32) ∨
      ∃ d, s.devs[hnd.toNat]? = some d ∧ rule hnd.toNat d = .next t := by
  unfold onCommand at h
  split at h
  · rename_i hn; cases h; exact .inl ⟨hn, rfl⟩
  · rename_i d hd; exact .inr ⟨d, hd, h⟩

/-! ## Slots and addresses -/

theorem slotRef_eq_some {p : Params} {o : Option Nat} {k : Nat} : slotRef p o = some k ↔ o = some k ∧ k < p.nBuf := by
  cases o with
  | none => simp [slotRef]
  | some j =>
    simp only [slotRef]
    split <;> simp <;> intro h <;> (subst h) <;> simp_all

theorem slotRef_of_lt {p : Params} {o : Option Nat} {k : Nat} (h : o = some k) (hk : k < p.nBuf) :
    slotRef p o = some k := slotRef_eq_some.mpr ⟨h, hk⟩

/-! ## The chip's answers -/

@[simp] theorem Context.peek_length (d : Context) (h n : Nat) : (d.peek h n).length = n := by
  simp [Context.peek]; omega

/-- With a tape long enough, the answers are the tape's. -/
theorem Context.peek_of_tape {d : Context} {n : Nat} {l rest : List U8} (ha : d.answers = l ++ rest)
    (hl : l.length = n) (h : Nat) : d.peek h n = l := by
  subst hl
  simp [Context.peek, ha]

theorem Context.peekByte_of_tape {d : Context} {b : U8} {rest : List U8} (ha : d.answers = b :: rest) (h : Nat) :
    d.peekByte h = b := by
  simp [Context.peekByte, Context.peek, ha]

theorem Context.burstRead_pos {d : Context} {n : Nat} (hn : n ≠ 0) (h : Nat) (r : ChipReg) :
    d.burstRead h r n = { d with
      answers := d.answers.drop n, reads := d.reads + (n - d.answers.length)
      bus := d.bus ++ [.burstRead r (d.peek h n)] } := by
  simp [Context.burstRead, hn]

@[simp] theorem Context.fifoWrite_nil (d : Context) : d.fifoWrite [] = d := by simp [Context.fifoWrite]

theorem Context.fifoWrite_ne_nil {d : Context} {bytes : List U8} (h : bytes ≠ []) :
    d.fifoWrite bytes = { d with bus := d.bus ++ [.burstWrite .fifo bytes] } := by
  simp [Context.fifoWrite, h]

/-- Reading consecutive bytes, seen as reading each data byte of a buffer. -/
theorem Memory.readList_data (m : Memory) (k i n : Nat) :
    Memory.readList m (dataAddr k i) n = (List.range n).map fun j => Memory.read m (dataAddr k (i + j)) := by
  simp [Memory.readList, dataAddr, Nat.add_assoc]

/-! ## The status word -/

/-- The flags of `st_is2` in the status word. -/
theorem statusWord_is2 (dev is1 is2 : U8) {i : Nat} (h : i < 8) :
    (statusWord dev is1 is2).getLsbD i = is2.getLsbD i := by
  unfold statusWord; rw [BitVec.getLsbD_append, if_pos h]

/-- The flags of `st_is1` in the status word. -/
theorem statusWord_is1 (dev is1 is2 : U8) {i : Nat} (h : i < 8) :
    (statusWord dev is1 is2).getLsbD (8 + i) = is1.getLsbD i := by
  unfold statusWord
  rw [BitVec.getLsbD_append, if_neg (by omega), Nat.add_sub_cancel_left, BitVec.getLsbD_append, if_pos h]

/-- The flags of `st_dev` in the status word. -/
theorem statusWord_dev (dev is1 is2 : U8) {i : Nat} (h : i < 8) :
    (statusWord dev is1 is2).getLsbD (16 + i) = dev.getLsbD i := by
  unfold statusWord
  rw [BitVec.getLsbD_append, if_neg (by omega), BitVec.getLsbD_append, if_neg (by omega)]
  congr 1; omega

@[simp] theorem Context.enterDispatcher_status (d : Context) (dev is1 is2 : U8) :
    (d.enterDispatcher dev is1 is2).status = statusWord dev is1 is2 := rfl

/-! ## The dispatcher -/

/-- One interrupt of an initialised instance without the power-on-reset flag (spec/40_link_state_machine.md R122). -/
theorem dispatch_of_initialized {s : State} {hnd dev is1 is2 : U8} {d : Context} (hd : s.devs[hnd.toNat]? = some d)
    (hi : d.initialized = true) (hpor : is2.getLsbD 0 = false) :
    dispatch hnd dev is1 is2 s =
      let d1 := { d.enterDispatcher dev is1 is2 with txtimeoutReq := false }
      if isUnrecognised d.mode then .next (s.setDev hnd.toNat (rxarm s.params d1))
      else if d.txtimeoutReq && d.mode == txData then .next (s.setDev hnd.toNat (txfail d1))
      else runEvents (decodeStatus hnd (statusWord dev is1 is2)) (s.setDev hnd.toNat d1) := by
  have hb : ∀ r : Res, bindRes r leaveDispatcher = r := fun r => by cases r <;> rfl
  have h0 : (statusWord dev is1 is2).getLsbD bitPor = false := by
    rw [statusWord_is2 _ _ _ (by decide)]; exact hpor
  simp only [dispatch, hd, hi, Bool.true_eq_false, if_false, hb, dispatchByMode, Context.enterDispatcher_status, h0,
    Bool.false_eq_true, Context.enterDispatcher_mode, Context.enterDispatcher_txtimeoutReq]
  rfl

/-- The events of one status word are events of its instance, none of them power-on reset. -/
theorem mem_decodeStatus {hnd : U8} {S : StatusWord} (h : S.getLsbD 0 = false) {i : Instr}
    (hi : i ∈ decodeStatus hnd S) : i ∈ (orderedEvents hnd).map Prod.snd := by
  simp only [decodeStatus, bitPor, h, Bool.false_eq_true, if_false, List.mem_filterMap] at hi
  obtain ⟨e, he, hi⟩ := hi
  split at hi <;> simp at hi
  exact List.mem_map.mpr ⟨e, he, hi⟩

theorem State.setDev_self {s : State} {h : Nat} {d : Context} (hd : s.devs[h]? = some d) : s.setDev h d = s := by
  have : s.devs.set h d = s.devs := by
    obtain ⟨hl, hg⟩ := List.getElem?_eq_some_iff.mp hd
    rw [← hg]; exact List.set_getElem_self hl
  simp [State.setDev, this]

/-! ## The link state machine -/

/-- RXFAIL in one update (spec/41_rx_pipeline.md R172). -/
theorem rxfail_eq (d : Context) :
    rxfail d = { d with errorCount := d.errorCount + 1#32, mode := rxError, sigLink := true } := rfl

/-- TXFAIL in one update (spec/42_tx_pipeline.md R185). -/
theorem txfail_eq (d : Context) : txfail d = { d with mode := txError, sigLink := true } := rfl

/-- LATCH in one update: the two latches, three answers, two transfers (spec/41_rx_pipeline.md R164). -/
theorem latch_eq (p : Params) (h : Nat) (d : Context) :
    latch p h d = { d with
      latAfc := (latch p h d).latAfc, latRssi := (latch p h d).latRssi
      answers := (latch p h d).answers, reads := (latch p h d).reads, bus := (latch p h d).bus } := by
  cases d; rfl

theorem latch_bus (p : Params) (h : Nat) (d : Context) : ∃ ops, ops.length = 2 ∧ (latch p h d).bus = d.bus ++ ops :=
  ⟨[.burstRead .afc (d.peek h 2), .read .rssi ((d.burstRead h .afc 2).peekByte h)], rfl, by
    simp [latch, Context.regRead, Context.burstRead]⟩

/-- RXARM in one update: the four registers and eight register writes (spec/40_link_state_machine.md R140). -/
theorem rxarm_frame (p : Params) (d : Context) :
    rxarm p d = { d with
      ien1 := (rxarm p d).ien1, ien2 := (rxarm p d).ien2, rxWr := 0#9, mode := rxWaitPreamble
      bus := (rxarm p d).bus } := rfl

theorem rxarm_bus_length (p : Params) (d : Context) : (rxarm p d).bus.length = d.bus.length + 8 := by
  simp [rxarm, Context.regWrites, rxarmWrites, fifoClearWrites]

/-! ## The RX pipeline -/

/-- Everything the almost-full drain can do (spec/41_rx_pipeline.md R162). -/
theorem rxDrain_eq_next {h : Nat} {d : Context} {s t : State} (ht : rxDrain h d s = .next t) :
    (drainFails (d.rxWr.toNat + s.params.rxWm) (d.peekByte h).toNat d.pkvalid = true ∧
      t = s.setDev h (rxfail (d.regRead h .rxlen))) ∨
    (drainFails (d.rxWr.toNat + s.params.rxWm) (d.peekByte h).toNat d.pkvalid = false ∧
      ∃ k, d.rxActive = some k ∧ k < s.params.nBuf ∧
        t = { s.setDev h { (d.regRead h .rxlen).burstRead h .fifo s.params.rxWm with
                rxWr := BitVec.ofNat 9 (d.rxWr.toNat + s.params.rxWm) } with
              buf := Memory.writeList s.buf (dataAddr k d.rxWr.toNat)
                ((d.regRead h .rxlen).peek h s.params.rxWm) }) := by
  unfold rxDrain at ht
  dsimp only at ht
  split at ht
  · cases ht; exact .inl ⟨‹_›, rfl⟩
  · rename_i hf
    split at ht
    · cases ht
    · rename_i k hk
      obtain ⟨hk, hlt⟩ := slotRef_eq_some.mp hk
      cases ht
      exact .inr ⟨by simpa using hf, k, hk, hlt, rfl⟩

/-- The drain completes where the active slot names a buffer. -/
theorem rxDrain_completes {h k : Nat} {d : Context} {s : State} (hk : d.rxActive = some k) (hlt : k < s.params.nBuf) :
    ∃ t, rxDrain h d s = .next t := by
  unfold rxDrain
  dsimp only
  rw [slotRef_of_lt hk hlt]
  split <;> exact ⟨_, rfl⟩

/-- A drain that does not fail stays within the declared length, so within a buffer. -/
theorem drainFails_false {proj len : Nat} {pkvalid : Bool} (h : drainFails proj len pkvalid = false) :
    proj ≤ len ∧ (proj = len → pkvalid = true) := by
  simp only [drainFails, Bool.or_eq_false_iff, decide_eq_false_iff_not, Bool.and_eq_false_iff, Bool.not_eq_false'] at h
  obtain ⟨h1, h2⟩ := h
  refine ⟨by omega, fun he => ?_⟩
  rcases h2 with h2 | h2
  · exact absurd he h2
  · exact h2

theorem dataAddr_add (k i j : Nat) : dataAddr k (i + j) = dataAddr k i + j := by
  unfold dataAddr; rw [← Nat.add_assoc]

theorem lenAddr_lt_dataAddr (k i : Nat) : lenAddr k < dataAddr k i := by
  unfold lenAddr dataAddr; generalize k * bufSize = b; omega

/-- TAG's stores leave every byte alone but three (spec/41_rx_pipeline.md R168). -/
theorem tagBuffer_outside (m : Memory) (k len : Nat) (rssi afc : U8) (a : Nat) (h1 : a ≠ lenAddr k)
    (h2 : a < dataAddr k len ∨ dataAddr k len + 2 ≤ a) :
    Memory.read (tagBuffer m k len rssi afc) a = Memory.read m a := by
  unfold tagBuffer
  rw [Memory.read_writeList_outside _ _ _ _ h2, Memory.read_write_ne _ _ _ _ h1]

theorem tagBuffer_len (m : Memory) (k len : Nat) (rssi afc : U8) :
    Memory.read (tagBuffer m k len rssi afc) (lenAddr k) = BitVec.ofNat 8 len := by
  unfold tagBuffer
  rw [Memory.read_writeList_outside _ _ _ _ (.inl (lenAddr_lt_dataAddr k len)), Memory.read_write_same]

theorem tagBuffer_rssi (m : Memory) (k len : Nat) (rssi afc : U8) :
    Memory.read (tagBuffer m k len rssi afc) (dataAddr k len) = rssi := by
  unfold tagBuffer
  generalize dataAddr k len = b
  exact Memory.read_writeList_inside [rssi, afc] _ b 0 (by simp)

theorem tagBuffer_afc (m : Memory) (k len : Nat) (rssi afc : U8) :
    Memory.read (tagBuffer m k len rssi afc) (dataAddr k len + 1) = afc := by
  unfold tagBuffer
  generalize dataAddr k len = b
  exact Memory.read_writeList_inside [rssi, afc] _ b 1 (by simp)

/-- The buffer after packet valid: the rest of the payload, the length, the two metadata bytes. -/
def finishBuffer (m : Memory) (k wr len : Nat) (bytes : List U8) (rssi afc : U8) : Memory :=
  tagBuffer (Memory.writeList m (dataAddr k wr) bytes) k len rssi afc

/-- Everything packet valid can do in RX_DATA (spec/41_rx_pipeline.md R167). -/
theorem rxFinish_eq_next {h : Nat} {d : Context} {s t : State} (ht : rxFinish h d s = .next t) :
    ((d.peekByte h).toNat < d.rxWr.toNat ∧ t = s.setDev h (rxfail (d.regRead h .rxlen))) ∨
    (d.rxWr.toNat ≤ (d.peekByte h).toNat ∧
      ∃ k, d.rxActive = some k ∧ k < s.params.nBuf ∧
        t = { s.setDev h ({ promoteOrDiscard { (d.regRead h .rxlen).burstRead h .fifo
                  ((d.peekByte h).toNat - d.rxWr.toNat) with rssiLast := d.latRssi } with
                mode := rxComplete }.signalLink) with
              buf := finishBuffer s.buf k d.rxWr.toNat (d.peekByte h).toNat
                ((d.regRead h .rxlen).peek h ((d.peekByte h).toNat - d.rxWr.toNat)) d.latRssi d.latAfc }) := by
  unfold rxFinish at ht
  dsimp only at ht
  split at ht
  · cases ht; exact .inl ⟨‹_›, rfl⟩
  · rename_i hf
    split at ht
    · cases ht
    · rename_i k hk
      obtain ⟨hk, hlt⟩ := slotRef_eq_some.mp hk
      cases ht
      exact .inr ⟨by omega, k, hk, hlt, rfl⟩

/-- Packet valid completes where the active slot names a buffer. -/
theorem rxFinish_completes {h k : Nat} {d : Context} {s : State} (hk : d.rxActive = some k)
    (hlt : k < s.params.nBuf) : ∃ t, rxFinish h d s = .next t := by
  unfold rxFinish
  dsimp only
  rw [slotRef_of_lt hk hlt]
  split <;> exact ⟨_, rfl⟩

/-! ## The TX pipeline -/

/-- Everything TXSTART can do (spec/42_tx_pipeline.md R181). -/
theorem txstart_eq_next {h : Nat} {d : Context} {s t : State} (ht : txstart h d s = .next t) :
    ∃ k, d.txq = some k ∧ k < s.params.nBuf ∧
      t = s.setDev h { d with
        txPkt := d.txq, txq := none
        txRd := BitVec.ofNat 9 (min (Memory.read s.buf (lenAddr k)).toNat Config.fifoCap)
        txWr := BitVec.ofNat 9 (Memory.read s.buf (lenAddr k)).toNat
        ien1 := ien1Tx, ien2 := ien2Tx, mode := txData
        bus := (((d.regWrites (txstartWrites s.params (Memory.readList s.buf (hdrAddr k 0) Config.hdrLen)
            (Memory.read s.buf (lenAddr k)))).fifoWrite (Memory.readList s.buf (dataAddr k 0)
            (min (Memory.read s.buf (lenAddr k)).toNat Config.fifoCap))).regWrites (txkeyWrites s.params)).bus } := by
  unfold txstart at ht
  split at ht
  · cases ht
  · rename_i k hk
    obtain ⟨hk, hlt⟩ := slotRef_eq_some.mp hk
    cases ht
    refine ⟨k, hk, hlt, ?_⟩
    cases d; rfl

theorem txstart_completes {h k : Nat} {d : Context} {s : State} (hk : d.txq = some k) (hlt : k < s.params.nBuf) :
    ∃ t, txstart h d s = .next t := by
  simp [txstart, slotRef_of_lt hk hlt]

/-- Everything the top-up can do (spec/42_tx_pipeline.md R183). -/
theorem txAlmostEmpty_eq_next {h : Nat} {d : Context} {s t : State} (ht : txAlmostEmpty h d s = .next t) :
    (min (d.txWr.toNat - d.txRd.toNat) (txTopup s.params) = 0 ∧ t = s) ∨
    (0 < min (d.txWr.toNat - d.txRd.toNat) (txTopup s.params) ∧
      ∃ k, d.txPkt = some k ∧ k < s.params.nBuf ∧
        t = s.setDev h { d.fifoWrite (Memory.readList s.buf (dataAddr k d.txRd.toNat)
                (min (d.txWr.toNat - d.txRd.toNat) (txTopup s.params))) with
              txRd := BitVec.ofNat 9 (d.txRd.toNat + min (d.txWr.toNat - d.txRd.toNat) (txTopup s.params)) }) := by
  unfold txAlmostEmpty at ht
  dsimp only at ht
  split at ht
  · cases ht; exact .inl ⟨‹_›, rfl⟩
  · split at ht
    · cases ht
    · rename_i hn k hk
      obtain ⟨hk, hlt⟩ := slotRef_eq_some.mp hk
      split at ht
      · cases ht
      · cases ht
        exact .inr ⟨by omega, k, hk, hlt, rfl⟩

theorem txAlmostEmpty_completes {h k : Nat} {d : Context} {s : State} (hk : d.txPkt = some k)
    (hlt : k < s.params.nBuf) (hw : d.txWr.toNat ≤ Config.bufCap) : ∃ t, txAlmostEmpty h d s = .next t := by
  unfold txAlmostEmpty
  dsimp only
  split
  · exact ⟨_, rfl⟩
  · rw [slotRef_of_lt hk hlt]
    dsimp only
    split
    · omega
    · exact ⟨_, rfl⟩

/-! ## The bridge -/

/-- Everything NEXT can do (spec/43_bridge_api.md R215). -/
theorem wakeNext_eq_next {h : Nat} {d : Context} {s t : State} (ht : wakeNext h d s = .next t) :
    (d.txq = none ∧ t = s.setDev h (rxarm s.params d)) ∨ (d.txq ≠ none ∧ txstart h d s = .next t) := by
  unfold wakeNext at ht
  split at ht
  · cases ht; exact .inl ⟨‹_›, rfl⟩
  · exact .inr ⟨‹_›, ht⟩

/-- WAKE's branch in one update: only these four registers can change (spec/43_bridge_api.md R214). -/
theorem wakeDeliver_frame (d : Context) :
    wakeDeliver d = { d with
      txPkt := (wakeDeliver d).txPkt, txSuccess := (wakeDeliver d).txSuccess
      sigTxdone := (wakeDeliver d).sigTxdone, rxCompleted := (wakeDeliver d).rxCompleted } := by
  unfold wakeDeliver
  split_ifs <;> rfl

/-! ## PHY units -/

/-- PHY units write `phy` and the bus record, nothing else (spec/70_reset_and_hazards.md R327). -/
theorem applyPhyOps_frame (ops : List PhyOp) (d : Context) :
    applyPhyOps d ops = { d with phy := (applyPhyOps d ops).phy, bus := (applyPhyOps d ops).bus } := by
  induction ops generalizing d with
  | nil => rfl
  | cons op ops ih =>
    change applyPhyOps (applyPhyOp d op) ops = _
    rw [ih (applyPhyOp d op)]
    cases op <;> rfl

@[simp] theorem applyPhyOps_nil (d : Context) : applyPhyOps d [] = d := rfl

theorem applyPhyOps_cons (d : Context) (op : PhyOp) (ops : List PhyOp) :
    applyPhyOps d (op :: ops) = applyPhyOps (applyPhyOp d op) ops := rfl

theorem applyPhyOps_append (d : Context) (a b : List PhyOp) :
    applyPhyOps d (a ++ b) = applyPhyOps (applyPhyOps d a) b := by
  simp [applyPhyOps, List.foldl_append]

/-- A run of register writes among the units. -/
theorem applyPhyOps_transfers (d : Context) (ws : List (ChipReg × U8)) :
    applyPhyOps d (ws.map fun w => .transfer w.1 w.2) = d.regWrites ws := by
  induction ws generalizing d with
  | nil => simp [Context.regWrites]
  | cons w ws ih =>
    rw [List.map_cons, applyPhyOps_cons, ih]
    simp [applyPhyOp, Context.regWrites]

end Sys2Proof.Machine
end

