-- ==== Sys2Proof/Laws/Events.lean ====
section
/-! SUPPORT. What any event other than power-on reset can do to its instance and to the buffers, once for all eight. -/

namespace Sys2Proof.Machine

/-- What an event of spec/30_encoding.md R101 other than EV_POR can do to its Device Context. -/
structure EventEffect (d e : Context) : Prop where
  /-- the registers no event writes -/
  frame : e = { d with
    mode := e.mode, errorCount := e.errorCount, sigLink := e.sigLink
    rxActive := e.rxActive, rxNext := e.rxNext, rxCompleted := e.rxCompleted, rxWr := e.rxWr
    latRssi := e.latRssi, latAfc := e.latAfc, rssiLast := e.rssiLast, txRd := e.txRd
    answers := e.answers, reads := e.reads, bus := e.bus }
  signal : d.sigLink = true → e.sigLink = true
  moves : e.mode = d.mode ∨ (dispatcherMove d.mode e.mode = true ∧ isUnrecognised d.mode = false)
  terminal : isTerminal e.mode = true → e.mode ≠ d.mode → e.sigLink = true
  /-- in a mode the event's row does not list, nothing -/
  ignored : isTerminal d.mode = true → e = d
  counted : e.errorCount = d.errorCount ∨ (e.errorCount = d.errorCount + 1#32 ∧ e.mode = rxError ∧ d.mode ≠ rxError)
  pending : d.rxCompleted ≠ none → e.rxCompleted = d.rxCompleted

/-- An event that changes nothing. -/
theorem EventEffect.refl (d : Context) : EventEffect d d :=
  ⟨rfl, id, .inl rfl, fun _ h => absurd rfl h, fun _ => rfl, .inl rfl, fun _ => rfl⟩

/-- What the modes an event changes are. -/
theorem rx_moves : ∀ m : BitVec 4, isRxInProgress m = true →
    dispatcherMove m rxError = true ∧ isUnrecognised m = false ∧ isTerminal m = false ∧ m ≠ rxError := by decide

/-- A FIFO fault has an event's effect. -/
theorem fifoFault_effect (d : Context) : EventEffect d (fifoFault d) := by
  unfold fifoFault
  split
  · rename_i h
    obtain ⟨h1, h2, h3, h4⟩ := rx_moves _ h
    exact ⟨by cases d; rfl, fun _ => by simp, .inr ⟨by simpa using h1, h2⟩, fun _ _ => by simp, by simp [h3],
      .inr ⟨by simp, by simp, h4⟩, fun _ => by simp⟩
  · split
    · rename_i h
      exact ⟨by cases d; rfl, fun _ => by simp, .inr ⟨by rw [h]; simp; decide, by rw [h]; decide⟩, fun _ _ => by simp,
        by rw [h]; intro h; exact absurd h (by decide), .inl (by simp), fun _ => by simp⟩
    · exact .refl d

/-- RXFAIL after a length read has an event's effect. -/
theorem rxfail_effect {d : Context} (hm : d.mode = rxData) (h : Nat) : EventEffect d (rxfail (d.regRead h .rxlen)) :=
  ⟨by cases d; rfl, fun _ => by simp, .inr ⟨by rw [hm]; simp; decide, by rw [hm]; decide⟩, fun _ _ => by simp,
    by rw [hm]; intro h; exact absurd h (by decide), .inr ⟨by simp, by simp, by rw [hm]; decide⟩, fun _ => by simp⟩

/-- An update of bytes read that keeps `mode`, in a mode that is not terminal, has an event's effect. -/
theorem EventEffect.of_read {d e : Context} (h : isTerminal d.mode = false)
    (he : e = { d with rxWr := e.rxWr, txRd := e.txRd, answers := e.answers, reads := e.reads, bus := e.bus }) :
    EventEffect d e := by
  rw [he]
  exact ⟨rfl, id, .inl rfl, fun _ h => absurd rfl h, fun h' => by simp [h] at h', .inl rfl, fun _ => rfl⟩

/-- The state an event leaves: its instance and the BUF memory may differ. -/
theorem event_effect {hnd : U8} {s t : State} {d : Context} {i : Instr} (hd : s.devs[hnd.toNat]? = some d)
    (hmem : i ∈ (orderedEvents hnd).map Prod.snd) (ht : exec i s = .next t) :
    ∃ e b, t = { s.setDev hnd.toNat e with buf := b } ∧ EventEffect d e := by
  have hsame : ∀ u, u = s → ∃ e b, u = { s.setDev hnd.toNat e with buf := b } ∧ EventEffect d e := by
    rintro u rfl
    exact ⟨d, u.buf, by rw [State.setDev_self hd], .refl d⟩
  have hset : ∀ u e, u = s.setDev hnd.toNat e → EventEffect d e →
      ∃ e b, u = { s.setDev hnd.toNat e with buf := b } ∧ EventEffect d e := by
    rintro u e rfl he
    exact ⟨e, s.buf, rfl, he⟩
  simp only [orderedEvents, List.map_cons, List.map_nil, List.mem_cons, List.not_mem_nil, or_false] at hmem
  rcases hmem with rfl | rfl | rfl | rfl | rfl | rfl | rfl | rfl <;>
    simp only [exec, execEvFfovfl, execEvFfunfl, execEvPreaval, execEvSwdet, execEvRxffafull, execEvTxffaem,
      execEvPkvalid, execEvPksent] at ht <;>
    rcases onEvent_eq_next ht with h | ⟨d', hd', -, h⟩ <;>
    (try exact hsame _ h) <;> (cases hd.symm.trans hd')
  · cases h; exact hset _ _ rfl (fifoFault_effect d)
  · cases h; exact hset _ _ rfl (fifoFault_effect d)
  · cases h
    split
    · rename_i hm
      refine hset _ _ rfl ⟨rfl, id, .inr ?_, ?_, ?_, .inl rfl, fun _ => rfl⟩
      · rw [hm]; exact ⟨rfl, rfl⟩
      · intro h; exact absurd (show isTerminal rxWaitSync = true from h) (by decide)
      · rw [hm]; intro h; exact absurd h (by decide)
    · exact hsame _ rfl
  · cases h
    split
    · rename_i hm
      refine hset _ _ rfl ⟨by cases d; rfl, fun h => by simpa using h, .inr ?_, ?_, ?_, .inl (by simp), fun _ => by simp⟩
      · rw [hm]; exact ⟨rfl, rfl⟩
      · intro h; exact absurd (show isTerminal rxData = true from h) (by decide)
      · rw [hm]; intro h; exact absurd h (by decide)
    · exact hsame _ rfl
  · split at h
    · rename_i hm
      cases h
      refine hset _ _ rfl (.of_read (by rcases hm with hm | hm <;> rw [hm] <;> decide) (by cases d; rfl))
    · split at h
      · rename_i hm
        rcases rxDrain_eq_next h with ⟨-, rfl⟩ | ⟨-, k, -, -, rfl⟩
        · exact hset _ _ rfl (rxfail_effect hm _)
        · exact ⟨_, _, rfl, .of_read (by rw [hm]; decide) (by cases d; rfl)⟩
      · cases h; exact hsame _ rfl
  · split at h
    · rename_i hm
      rcases txAlmostEmpty_eq_next h with ⟨-, rfl⟩ | ⟨-, k, -, -, rfl⟩
      · exact hsame _ rfl
      · exact hset _ _ rfl (.of_read (by rw [hm]; decide) (by cases d; rfl))
    · cases h; exact hsame _ rfl
  · split at h
    · rename_i hm
      rcases rxFinish_eq_next h with ⟨-, rfl⟩ | ⟨-, k, -, -, rfl⟩
      · exact hset _ _ rfl (rxfail_effect hm _)
      · refine ⟨_, _, rfl, ?_, fun _ => by simp, .inr ⟨by rw [hm]; simp; decide, by rw [hm]; decide⟩, fun _ _ => by simp,
          by rw [hm]; intro h; exact absurd h (by decide), .inl (by simp), ?_⟩
        · unfold promoteOrDiscard; split <;> (cases d; rfl)
        · intro hc
          unfold promoteOrDiscard
          rw [if_neg (by simp at hc ⊢; tauto)]
          simp
    · cases h; exact hsame _ rfl
  · cases h
    split
    · rename_i hm
      refine hset _ _ rfl ⟨by cases d; rfl, fun _ => by simp, .inr ?_, fun _ _ => by simp, ?_, .inl (by simp),
        fun _ => by simp⟩
      · rw [hm]; simp; decide
      · rw [hm]; intro h; exact absurd h (by decide)
    · exact hsame _ rfl

/-! ## Several events -/

/-- The moves of one invocation chain (spec/40_link_state_machine.md R126). -/
theorem dispatcherMove_trans : ∀ a b c : BitVec 4, dispatcherMove a b = true → dispatcherMove b c = true →
    isUnrecognised a = false → dispatcherMove a c = true := by decide

theorem EventEffect.trans {a b c : Context} (hab : EventEffect a b) (hbc : EventEffect b c) : EventEffect a c := by
  refine ⟨?_, fun h => hbc.signal (hab.signal h), ?_, ?_, ?_, ?_, ?_⟩
  · rw [hbc.frame, hab.frame]
  · rcases hab.moves with h1 | ⟨h1, h1'⟩ <;> rcases hbc.moves with h2 | ⟨h2, h2'⟩
    · exact .inl (h2.trans h1)
    · exact .inr (h1 ▸ ⟨h2, h2'⟩)
    · exact .inr ⟨h2 ▸ h1, h1'⟩
    · exact .inr ⟨dispatcherMove_trans _ _ _ h1 h2 h1', h1'⟩
  · intro ht hne
    by_cases h : c.mode = b.mode
    · exact hbc.signal (hab.terminal (h ▸ ht) (h ▸ hne))
    · exact hbc.terminal ht h
  · intro h
    have := hab.ignored h
    subst this
    exact hbc.ignored h
  · rcases hab.counted with h1 | ⟨h1, h1', h1''⟩
    · rcases hbc.counted with h2 | ⟨h2, h2', h2''⟩
      · exact .inl (h2.trans h1)
      · refine .inr ⟨by rw [h2, h1], h2', fun h => ?_⟩
        have := hab.ignored (by rw [h]; decide)
        subst this
        exact h2'' h
    · have := hbc.ignored (by rw [h1']; decide)
      subst this
      exact .inr ⟨h1, h1', h1''⟩
  · intro h
    rw [← hab.pending h]
    exact hbc.pending (by rw [hab.pending h]; exact h)

/-- The state the events of one status word leave: their instance and the BUF memory may differ. -/
theorem runEvents_effect {hnd : U8} {l : List Instr} (hl : ∀ i ∈ l, i ∈ (orderedEvents hnd).map Prod.snd) {s t : State}
    {d : Context} (hd : s.devs[hnd.toNat]? = some d) (ht : runEvents l s = .next t) :
    ∃ e b, t = { s.setDev hnd.toNat e with buf := b } ∧ EventEffect d e := by
  induction l generalizing s d with
  | nil =>
    cases ht
    exact ⟨d, t.buf, by rw [State.setDev_self hd], .refl d⟩
  | cons i l ih =>
    obtain ⟨u, hu, ht⟩ := bindRes_eq_next.mp ht
    obtain ⟨e, b, rfl, he⟩ := event_effect hd (hl i (by simp)) hu
    obtain ⟨e', b', rfl, he'⟩ := ih (fun j hj => hl j (by simp [hj]))
      (s := { s.setDev hnd.toNat e with buf := b }) (State.setDev_get_same s _ _ e hd) ht
    exact ⟨e', b', by simp [State.setDev], he.trans he'⟩

end Sys2Proof.Machine
end

