-- ==== Sys2Proof/Laws/Invariant.lean ====
section
/-! SUPPORT. How the invariant of the machine is kept: one lemma for an update of one instance with the pool, and what the
slots of an update are. -/

namespace Sys2Proof.Machine

/-- A Device Context of a state that meets the invariant. -/
theorem State.Inv.ok {s : State} (hs : s.Inv) {h : Nat} {d : Context} (hd : s.devs[h]? = some d) : d.Ok s.params :=
  hs.contexts d (List.mem_of_getElem? hd)

theorem slots_eq (d : Context) : d.slots = d.rxActive.toList ++ (d.rxNext.toList ++ d.rxCompleted.toList) := by
  unfold Context.slots
  cases d.rxActive <;> cases d.rxNext <;> cases d.rxCompleted <;> rfl

/-- Two Device Contexts with the same RX slots. -/
theorem slots_congr {d e : Context} (h1 : e.rxActive = d.rxActive) (h2 : e.rxNext = d.rxNext)
    (h3 : e.rxCompleted = d.rxCompleted) : e.slots = d.slots := by
  simp [slots_eq, h1, h2, h3]

/-- Replacing one Device Context, seen on the buffers of all slots and the pool. -/
theorem buffers_set {devs : List Context} {h : Nat} {d e : Context} (hd : devs[h]? = some d) {P Q : List Nat}
    (hsub : (e.slots ++ Q).Subperm (d.slots ++ P)) :
    ((devs.set h e).flatMap Context.slots ++ Q).Subperm (devs.flatMap Context.slots ++ P) := by
  obtain ⟨hlt, hget⟩ := List.getElem?_eq_some_iff.mp hd
  have h1 : devs = devs.take h ++ d :: devs.drop (h + 1) := by
    rw [← hget, List.cons_getElem_drop_succ, List.take_append_drop]
  have h2 : devs.set h e = devs.take h ++ e :: devs.drop (h + 1) := List.set_eq_take_append_cons_drop .. |>.trans (by simp [hlt])
  have key : ∀ (x : Context) (R : List Nat),
      ((devs.take h ++ x :: devs.drop (h + 1)).flatMap Context.slots ++ R).Perm
        ((x.slots ++ R) ++ ((devs.take h).flatMap Context.slots ++ (devs.drop (h + 1)).flatMap Context.slots)) := by
    intro x R
    simp only [List.flatMap_append, List.flatMap_cons, List.append_assoc]
    refine (List.perm_append_comm_assoc _ _ _).trans ?_
    refine List.Perm.append_left _ ?_
    rw [← List.append_assoc]
    exact List.perm_append_comm
  rw [h2]
  refine (key e Q).subperm.trans ?_
  conv_rhs => rw [h1]
  refine List.Subperm.trans ?_ (key d P).symm.subperm
  exact (List.subperm_append_right _).mpr hsub

/-- The invariant after an update of one instance that may also change the pool and the BUF memory. -/
theorem State.Inv.update {s t : State} {h : Nat} {d e : Context} (hs : s.Inv) (hd : s.devs[h]? = some d)
    (hdevs : t.devs = s.devs.set h e) (hp : t.params = s.params) (hok : (∀ k ∈ e.slots, k < s.params.nBuf) → e.Ok s.params)
    (hsub : (e.slots ++ t.poolFree).Subperm (d.slots ++ s.poolFree))
    (hwf : Memory.wf t.buf = true) (hin : ∀ c ∈ t.buf, c.1 < s.params.nBuf * bufSize)
    (hinp : ∀ x ∈ t.inputs, x.ok s.params = true) : t.Inv := by
  have hold : ∀ k ∈ d.slots ++ s.poolFree, k < s.params.nBuf := by
    intro k hk
    rcases List.mem_append.mp hk with hk | hk
    · exact (hs.ok hd).slots_lt k hk
    · exact hs.pool_lt k hk
  have hnew : ∀ k ∈ e.slots ++ t.poolFree, k < s.params.nBuf := fun k hk => hold k (hsub.subset hk)
  refine ⟨hp ▸ hs.params_wf, ?_, ?_, ?_, ?_, hwf, hp ▸ hin, hp ▸ hinp⟩
  · rw [hdevs, hp, List.length_set]; exact hs.instances
  · intro x hx
    rw [hp]
    rw [hdevs] at hx
    rcases List.mem_or_eq_of_mem_set hx with hx | hx
    · exact hs.contexts x hx
    · subst hx; exact hok fun k hk => hnew k (by simp [hk])
  · rw [hdevs]
    obtain ⟨l, hl, hsl⟩ := buffers_set hd hsub
    exact hl.nodup_iff.mp (hs.buffers_once.sublist hsl)
  · intro k hk
    rw [hp]
    exact hnew k (by simp [hk])

/-- The invariant after an update of one instance that keeps its slots. -/
theorem State.Inv.setDev {s : State} {h : Nat} {d e : Context} (hs : s.Inv) (hd : s.devs[h]? = some d)
    (hok : e.Ok s.params) (h1 : e.rxActive = d.rxActive) (h2 : e.rxNext = d.rxNext)
    (h3 : e.rxCompleted = d.rxCompleted) : (s.setDev h e).Inv :=
  hs.update (e := e) hd rfl rfl (fun _ => hok) (by rw [slots_congr h1 h2 h3]; exact List.Subperm.refl _) hs.buf_wf
    hs.buf_inside hs.inputs_ok

/-- A response changes nothing the invariant looks at. -/
theorem State.Inv.respond {s : State} (hs : s.Inv) (opc hnd : U8) (st : Status) (v : U32) :
    (s.respond opc hnd st v).Inv :=
  ⟨hs.params_wf, hs.instances, hs.contexts, hs.buffers_once, hs.pool_lt, hs.buf_wf, hs.buf_inside, hs.inputs_ok⟩

/-- Consuming an input keeps the invariant. -/
theorem State.Inv.consume {s : State} (hs : s.Inv) {x : Input} {rest : List Input} (hx : s.inputs = x :: rest) :
    State.Inv { s with inputs := rest } :=
  ⟨hs.params_wf, hs.instances, hs.contexts, hs.buffers_once, hs.pool_lt, hs.buf_wf, hs.buf_inside,
    fun y hy => hs.inputs_ok y (by rw [hx]; exact List.mem_cons_of_mem _ hy)⟩

/-! ## The pool -/

/-- The pool's answer is one of its free buffers. -/
theorem State.poolAnswer_mem {s : State} {k : Nat} (h : s.poolAnswer = some k) : k ∈ s.poolFree := by
  unfold State.poolAnswer at h
  split at h
  · cases h
  · exact List.mem_of_getElem? h

/-- PoolGet moves the answer out of the pool. -/
theorem State.poolTaken_perm (s : State) : (s.poolAnswer.toList ++ s.poolTaken.poolFree).Perm s.poolFree := by
  rw [State.poolTaken_poolFree]
  cases h : s.poolAnswer with
  | none => simp
  | some k => exact (List.perm_cons_erase (State.poolAnswer_mem h)).symm

theorem insertBuffer_perm (k : Nat) (l : List Nat) : (insertBuffer k l).Perm (k :: l) := by
  induction l with
  | nil => exact List.Perm.refl _
  | cons j l ih =>
    unfold insertBuffer
    split
    · exact List.Perm.refl _
    · exact (List.Perm.cons j ih).trans (List.Perm.swap k j l)

end Sys2Proof.Machine
end

