-- ==== Sys2Proof/Laws/PerInstr.lean ====
section
/-! SUPPORT. What holds of every instruction, one lemma per constructor: the first word of its encoding is a word of its
row of spec/opcode_table.json (mask and match). -/

namespace Sys2Proof.Laws

/-- Mask and match of an instruction's row of the opcode table. -/
def EncodingMatchesTable.row : Instr → Nat × Nat
  | .init _ => (0xFF00FFFF, 0x01000000)
  | .send _ _ _ => (0xFF00FFFF, 0x02000000)
  | .receive _ _ => (0xFF00FFFF, 0x03000000)
  | .getDeviceId _ => (0xFF00FFFF, 0x04000000)
  | .getRssi _ => (0xFF00FFFF, 0x05000000)
  | .getResetCount _ => (0xFF00FFFF, 0x06000000)
  | .setDatarate _ _ => (0xFF00FFFF, 0x10000000)
  | .setCarrier _ _ => (0xFF00FFFF, 0x11000000)
  | .getCarrier _ => (0xFF00FFFF, 0x12000000)
  | .setTxpower _ _ => (0xFF00FFFF, 0x13000000)
  | .forceReset _ => (0xFF00FFFF, 0x20000000)
  | .evFfovfl _ => (0x800000, 0x800000)
  | .evFfunfl _ => (0x400000, 0x400000)
  | .evTxffaem _ => (0x002000, 0x002000)
  | .evRxffafull _ => (0x001000, 0x001000)
  | .evPksent _ => (0x000400, 0x000400)
  | .evPkvalid _ => (0x000200, 0x000200)
  | .evSwdet _ => (0x000080, 0x000080)
  | .evPreaval _ => (0x000040, 0x000040)
  | .evPor _ => (0x000001, 0x000001)

/-- The word the table's mask and match are about: W0 of a frame, the status word S. -/
def EncodingMatchesTable.word : Code → Nat
  | .frame f => f.w0.toNat
  | .status s => s.toNat

/-- The first word of the encoding, masked, is the row's match. -/
def EncodingMatchesTable.Statement (i : Instr) : Prop :=
  EncodingMatchesTable.word (encode i) &&& (EncodingMatchesTable.row i).1 = (EncodingMatchesTable.row i).2

namespace EncodingMatchesTable

/-- W0 of an operation of the table under the opcode mask: the handle bits are free. -/
theorem word0_masked (opc : U8) (hopc : opc ∈ [0x01#8, 0x02#8, 0x03#8, 0x04#8, 0x05#8, 0x06#8, 0x10#8, 0x11#8,
    0x12#8, 0x13#8, 0x20#8]) (h : U8) :
    (word0 opc h).toNat &&& 0xFF00FFFF = opc.toNat * 0x1000000 := by
  simp only [List.mem_cons, List.not_mem_nil, or_false] at hopc
  rcases hopc with rfl | rfl | rfl | rfl | rfl | rfl | rfl | rfl | rfl | rfl | rfl <;> revert h <;> decide +kernel

end EncodingMatchesTable

theorem EncodingMatchesTable.init (h : U8) : EncodingMatchesTable.Statement (.init h) :=
  word0_masked 0x01#8 (by decide) h
theorem EncodingMatchesTable.send (h : U8) (p t : U32) : EncodingMatchesTable.Statement (.send h p t) :=
  word0_masked 0x02#8 (by decide) h
theorem EncodingMatchesTable.receive (h : U8) (t : U32) : EncodingMatchesTable.Statement (.receive h t) :=
  word0_masked 0x03#8 (by decide) h
theorem EncodingMatchesTable.getDeviceId (h : U8) : EncodingMatchesTable.Statement (.getDeviceId h) :=
  word0_masked 0x04#8 (by decide) h
theorem EncodingMatchesTable.getRssi (h : U8) : EncodingMatchesTable.Statement (.getRssi h) :=
  word0_masked 0x05#8 (by decide) h
theorem EncodingMatchesTable.getResetCount (h : U8) : EncodingMatchesTable.Statement (.getResetCount h) :=
  word0_masked 0x06#8 (by decide) h
theorem EncodingMatchesTable.setDatarate (h : U8) (b : U32) : EncodingMatchesTable.Statement (.setDatarate h b) :=
  word0_masked 0x10#8 (by decide) h
theorem EncodingMatchesTable.setCarrier (h : U8) (b : U32) : EncodingMatchesTable.Statement (.setCarrier h b) :=
  word0_masked 0x11#8 (by decide) h
theorem EncodingMatchesTable.getCarrier (h : U8) : EncodingMatchesTable.Statement (.getCarrier h) :=
  word0_masked 0x12#8 (by decide) h
theorem EncodingMatchesTable.setTxpower (h l : U8) : EncodingMatchesTable.Statement (.setTxpower h l) :=
  word0_masked 0x13#8 (by decide) h
theorem EncodingMatchesTable.forceReset (h : U8) : EncodingMatchesTable.Statement (.forceReset h) :=
  word0_masked 0x20#8 (by decide) h
theorem EncodingMatchesTable.evFfovfl (h : U8) : EncodingMatchesTable.Statement (.evFfovfl h) := by
  simp [Statement, word, row, encode]
theorem EncodingMatchesTable.evFfunfl (h : U8) : EncodingMatchesTable.Statement (.evFfunfl h) := by
  simp [Statement, word, row, encode]
theorem EncodingMatchesTable.evTxffaem (h : U8) : EncodingMatchesTable.Statement (.evTxffaem h) := by
  simp [Statement, word, row, encode]
theorem EncodingMatchesTable.evRxffafull (h : U8) : EncodingMatchesTable.Statement (.evRxffafull h) := by
  simp [Statement, word, row, encode]
theorem EncodingMatchesTable.evPksent (h : U8) : EncodingMatchesTable.Statement (.evPksent h) := by
  simp [Statement, word, row, encode]
theorem EncodingMatchesTable.evPkvalid (h : U8) : EncodingMatchesTable.Statement (.evPkvalid h) := by
  simp [Statement, word, row, encode]
theorem EncodingMatchesTable.evSwdet (h : U8) : EncodingMatchesTable.Statement (.evSwdet h) := by
  simp [Statement, word, row, encode]
theorem EncodingMatchesTable.evPreaval (h : U8) : EncodingMatchesTable.Statement (.evPreaval h) := by
  simp [Statement, word, row, encode]
theorem EncodingMatchesTable.evPor (h : U8) : EncodingMatchesTable.Statement (.evPor h) := by
  simp [Statement, word, row, encode]

end Sys2Proof.Laws
end

