-- ==== Sys2Proof/Tests/Slice0.lean ====
section
/-! SUPPORT. Tests. Expected results are the spec's own vectors (spec/95_test_vectors.md, cited as V<n>) and words written
out from spec/30_encoding.md; the last part shows, for every statement with hypotheses, states that meet them. -/

namespace Sys2Proof.Tests

-- One theorem after the other: elaborated all at once, their kernel evaluations wait in too many threads.
set_option Elab.async false

open Sys2Proof Sys2Proof.Machine

/-! ## Helpers -/

/-- A device after bring-up (spec/95_test_vectors.md section 2: initialized, step 625) in a mode. -/
def up (m : BitVec 4) : Context :=
  { Context.reset with
    mode := m, initialized := true, rxActive := some 0
    phy := { Context.reset.phy with freqStepQ := 625#16 }
    cfg := { Context.reset.cfg with minFreq := 430000000#32, maxFreq := 440000000#32 } }

/-- REFCFG with the one Device Context `d`, buffers 1 and 2 in the pool. -/
def one (d : Context) : State := { State.reset with devs := [d], poolFree := [1, 2] }

/-- Instance 0 after a result. -/
def dev (r : Res) : Option Context :=
  match r with
  | .next s => s.devs[0]?
  | _ => none

/-- What a result put out. -/
def outOf (r : Res) : List Output :=
  match r with
  | .next s => s.out
  | _ => []

/-- A listed byte of BUF after a result. -/
def byteOf (r : Res) (a : Nat) : Option U8 :=
  match r with
  | .next s => Memory.get? s.buf a
  | _ => none

/-- The device the chip answers with these bytes. -/
def answering (d : Context) (l : List U8) : Context := { d with answers := l }

/-! ## Well-formedness refuses -/

theorem test_wf_handle : Instr.wf refcfg (.getRssi 1#8) = false := by decide
theorem test_wf_packet_number : Instr.wf refcfg (.send 0#8 4#32 0#32) = false := by decide
theorem test_wf_packet_none : Instr.wf { refcfg with nBuf := 0xFFFFFFFF } (.send 0#8 0xFFFFFFFF#32 0#32) = false := by
  decide +kernel
theorem test_wf_ok : Instr.wf refcfg (.send 0#8 3#32 500#32) = true := by decide
theorem test_wf_params : refcfg.wf = true := by decide +kernel
theorem test_wf_params_rxWm : Params.wf { refcfg with rxWm := 65 } = false := by decide +kernel
theorem test_wf_params_txLoWm : Params.wf { refcfg with txLoWm := 63 } = false := by decide +kernel
theorem test_wf_params_nDev : Params.wf { refcfg with nDev := 0 } = false := by decide +kernel
theorem test_wf_params_nBuf : Params.wf { refcfg with nBuf := 1 } = false := by decide +kernel
theorem test_wf_params_order : Params.wf { refcfg with phyRest := [testRow2, testRow1] } = false := by decide +kernel
theorem test_wf_params_row9600 : Params.wf { refcfg with phyRest := [testRow2] } = false := by decide +kernel
theorem test_wf_params_nCr : Params.wf { refcfg with nCr := 5 } = false := by decide +kernel
theorem test_wf_params_whiten : Params.wf { refcfg with whitenMask := 0x03#8 } = false := by decide +kernel
theorem test_wf_params_txpow : Params.wf { refcfg with txpowEnum := List.replicate 8 0#8 } = false := by decide +kernel
theorem test_wf_params_range : Params.wf { refcfg with freqLoLimit := 930000001#32 } = false := by decide +kernel
theorem test_wf_params_afcW : Params.wf { refcfg with afcW := 17 } = false := by decide +kernel
theorem test_wf_params_opmode :
    Params.wf { refcfg with chipVal := { refcfg.chipVal with opTxOn := 0x02#8 } } = false := by decide +kernel

/-! ## Decoding: one word per constructor (R91 to R93, R101; the frames are V1 to V11) -/

theorem test_decode_init : decodeTableWord 32 0x01000000 = some (.init 0#8) := by decide
theorem test_decode_send :
    decodeTableWord 96 0x000001F4_00000003_02000000 = some (.send 0#8 3#32 500#32) := by decide
theorem test_decode_receive : decodeTableWord 64 0x000003E8_03000000 = some (.receive 0#8 1000#32) := by decide
theorem test_decode_getDeviceId : decodeTableWord 32 0x04010000 = some (.getDeviceId 1#8) := by decide
theorem test_decode_getRssi : decodeTableWord 32 0x05000000 = some (.getRssi 0#8) := by decide
theorem test_decode_getResetCount : decodeTableWord 32 0x06000000 = some (.getResetCount 0#8) := by decide
theorem test_decode_setDatarate : decodeTableWord 64 0x00002580_10000000 = some (.setDatarate 0#8 9600#32) := by decide
theorem test_decode_setCarrier :
    decodeTableWord 64 0x19CF0E40_11000000 = some (.setCarrier 0#8 433000000#32) := by decide
theorem test_decode_getCarrier : decodeTableWord 32 0x12000000 = some (.getCarrier 0#8) := by decide
theorem test_decode_setTxpower : decodeTableWord 64 0x00000107_13000000 = some (.setTxpower 0#8 7#8) := by decide
theorem test_decode_forceReset : decodeTableWord 32 0x20000000 = some (.forceReset 0#8) := by decide
theorem test_decode_evFfovfl : decodeTableWord 24 0b100000000000000000000000 = some (.evFfovfl 0#8) := by decide
theorem test_decode_evFfunfl : decodeTableWord 24 0b010000000000000000000000 = some (.evFfunfl 0#8) := by decide
theorem test_decode_evTxffaem : decodeTableWord 24 0b000000000010000000000000 = some (.evTxffaem 0#8) := by decide
theorem test_decode_evRxffafull : decodeTableWord 24 0b000000000001000000000000 = some (.evRxffafull 0#8) := by decide
theorem test_decode_evPksent : decodeTableWord 24 0b000000000000010000000000 = some (.evPksent 0#8) := by decide
theorem test_decode_evPkvalid : decodeTableWord 24 0b000000000000001000000000 = some (.evPkvalid 0#8) := by decide
theorem test_decode_evSwdet : decodeTableWord 24 0b000000000000000010000000 = some (.evSwdet 0#8) := by decide
theorem test_decode_evPreaval : decodeTableWord 24 0b000000000000000001000000 = some (.evPreaval 0#8) := by decide
theorem test_decode_evPor : decodeTableWord 24 0b000000000000000000000001 = some (.evPor 0#8) := by decide

/-- V13, V14, V15: RSV not 0, an unknown OPC, OPC 0x20 on the command port. -/
theorem test_decode_rejects :
    decodeFrame .command ⟨0x04000001#32, 0#32, 0#32⟩ = .error .reservedBits ∧
    decodeFrame .command ⟨0x07000000#32, 0#32, 0#32⟩ = .error .unknownOpcode ∧
    decodeFrame .command ⟨0x20000000#32, 0#32, 0#32⟩ = .error .wrongPort := ⟨rfl, rfl, rfl⟩

/-- Several flags at once (V29d: 401200): underflow, almost-full, packet valid, in this order. -/
theorem test_decode_status_order :
    decodeStatus 0#8 0x401200#24 = [.evFfunfl 0#8, .evRxffafull 0#8, .evPkvalid 0#8] := by decide

/-! ## One instruction -/

/-- V1: INIT on a chip that identifies itself answers 01000000 00000000. -/
theorem test_init_ok :
    outOf (exec (.init 0#8) (one (answering { up 0#4 with initialized := false } [0, 0, 0, 0x08, 0x06]))) =
      [.response 0x01000000#32 0#32] := by decide +kernel
/-- V47: DEVTYPE 0x07. -/
theorem test_init_silicon :
    outOf (exec (.init 0#8) (one (answering Context.reset [0, 0, 0, 0x07, 0x06]))) =
      [.response 0x01000100#32 0#32] := by decide +kernel
/-- V16: `SEND p4` with N_BUF = 4. -/
theorem test_send_bad_packet :
    outOf (exec (.send 0#8 4#32 10#32) (one (up 0#4))) = [.response 0x02000500#32 0#32] := by decide +kernel
/-- P2 step 2: `send_wait` 1, `txq` ref(3), `sig_link` 1. -/
theorem test_send_issue :
    (dev (exec (.send 0#8 3#32 500#32) (one (up 0#4)))).map (fun d => (d.sendWait, d.txq, d.sigLink, d.sendTimer)) =
      some (true, some 3, true, 500#32) := by decide +kernel
/-- V46b: RECEIVE while one is outstanding. -/
theorem test_receive_busy :
    outOf (exec (.receive 0#8 10#32) (one { up 0#4 with recvWait := true })) =
      [.response 0x03000400#32 0xFFFFFFFF#32] := by decide +kernel
/-- V44. -/
theorem test_receive_notInit :
    outOf (exec (.receive 0#8 10#32) (one Context.reset)) = [.response 0x03000300#32 0xFFFFFFFF#32] := by decide +kernel
/-- V45: after hardware reset. -/
theorem test_getRssi :
    outOf (exec (.getRssi 0#8) State.reset) = [.response 0x05000000#32 0xFFFFFF81#32] := by decide +kernel
theorem test_getDeviceId :
    outOf (exec (.getDeviceId 0#8) State.reset) = [.response 0x04000000#32 0#32] := by decide +kernel
theorem test_getResetCount :
    outOf (exec (.getResetCount 0#8) State.reset) = [.response 0x06000000#32 0#32] := by decide +kernel
theorem test_getCarrier :
    outOf (exec (.getCarrier 0#8) State.reset) = [.response 0x12000000#32 240000000#32] := by decide +kernel
/-- V53. -/
theorem test_setDatarate_9600 :
    (dev (exec (.setDatarate 0#8 9600#32) (one (up 0#4)))).map (fun d => (d.phy.row, d.phy.byteTimeout, d.bus)) =
      some (1, 834#32, [.write .ifbw 0x3B#8, .write .afcGear 0x21#8, .write .crGear 0x22#8,
        .write (.crOsr 0) 0x23#8, .write (.crOsr 1) 0x24#8, .write (.crOsr 2) 0x25#8,
        .write (.crOsr 3) 0x26#8, .write (.crOsr 4) 0x27#8, .write (.crOsr 5) 0x28#8,
        .write .afcLimit 0x29#8, .write .txdr1 0x2A#8, .write .txdr0 0x2B#8,
        .write .modctl1 0x2D#8, .write .fdev 0x2D#8]) := by decide +kernel
/-- V57: clamped to the table maximum. -/
theorem test_setDatarate_max :
    outOf (exec (.setDatarate 0#8 4294967295#32) (one (up 0#4))) = [.response 0x10000000#32 57600#32] := by decide +kernel
/-- V61. -/
theorem test_setCarrier_433 :
    (dev (exec (.setCarrier 0#8 433000100#32) (one (up 0#4)))).map (fun d => (d.phy.carrier, d.phy.freqStepQ, d.bus)) =
      some (433000100#32, 625#16,
        [.write .bandsel 0x53#8, .write .carrier1 0x4B#8, .write .carrier0 0x00#8]) := by decide +kernel
/-- V66: the high band. -/
theorem test_setCarrier_868 :
    (dev (exec (.setCarrier 0#8 868300000#32)
      (one { up 0#4 with cfg := ⟨860000000#32, 870000000#32, 0#32, 0#32, 0#8, 0#8, 0#32⟩ }))).map
        (fun d => (d.phy.freqStepQ, d.bus)) =
      some (1250#16, [.write .bandsel 0x73#8, .write .carrier1 0x67#8, .write .carrier0 0xC0#8]) := by decide +kernel
/-- R9 puts no bound on HIGH_BAND_MULT: a negative one is a legal parameter, chosen at 480 MHz and not below (R250 step 2). -/
theorem test_bandMult_negative :
    let p := { refcfg with highBandMult := -3 }
    p.wf = true ∧ bandMult p 480000000#32 = -3 ∧ bandMult p 479999999#32 = 1 := by decide +kernel
/-- V10: `SETPOW 9` answers 7. -/
theorem test_setTxpower_9 :
    outOf (exec (.setTxpower 0#8 9#8) (one (up 0#4))) = [.response 0x13000000#32 7#32] := by decide +kernel
/-- V48d: the count wraps. -/
theorem test_forceReset_wraps :
    outOf (exec (.forceReset 0#8) (one (answering { up 0#4 with resetCount := 0xFFFF#16 } [0, 0, 0, 0x08, 0x06]))) =
      [.response 0x20000000#32 0#32] := by decide +kernel
/-- V48: an undelivered completed buffer becomes the spare. -/
theorem test_forceReset_recycles :
    (dev (exec (.forceReset 0#8) (one (answering { up 0#4 with rxActive := some 1, rxCompleted := some 0 }
      [0, 0, 0, 0x08, 0x06])))).map (fun d => (d.rxActive, d.rxNext, d.rxCompleted)) =
      some (some 1, some 0, none) := by decide +kernel
/-- V29c: `mode` 1. -/
theorem test_evFfovfl :
    (dev (exec (.evFfovfl 0#8) (one (up 1#4)))).map (fun d => (d.mode, d.errorCount, d.sigLink)) =
      some (4#4, 1#32, true) := by decide +kernel
/-- V34: `mode` 5, the fault is not counted. -/
theorem test_evFfunfl :
    (dev (exec (.evFfunfl 0#8) (one (up 5#4)))).map (fun d => (d.mode, d.errorCount, d.sigLink)) =
      some (7#4, 0#32, true) := by decide +kernel
/-- V30: 61 bytes, `tx_rd` 125. -/
theorem test_evTxffaem :
    (dev (exec (.evTxffaem 0#8) (one { up 5#4 with txPkt := some 3, txRd := 64#9, txWr := 200#9 }))).map
      (fun d => (d.mode, d.txRd, (fifoBytes d.bus).length)) = some (5#4, 125#9, 61) := by decide +kernel
/-- V24: 32 bytes to `data[32..63]`, `rx_wr` 64. -/
theorem test_evRxffafull_drains :
    let r := exec (.evRxffafull 0#8) (one (answering { up 2#4 with rxWr := 32#9 }
      (100#8 :: (List.range 32).map (BitVec.ofNat 8))))
    (dev r).map (fun d => (d.mode, d.rxWr)) = some (2#4, 64#9) ∧
      byteOf r (dataAddr 0 32) = some 0#8 ∧ byteOf r (dataAddr 0 63) = some 31#8 ∧
      byteOf r (dataAddr 0 64) = none := by decide +kernel
/-- V26: the declared length reached without PKVALID. -/
theorem test_evRxffafull_fails :
    (dev (exec (.evRxffafull 0#8) (one (answering { up 2#4 with rxWr := 32#9 } [64])))).map
      (fun d => (d.mode, d.errorCount, d.sigLink)) = some (4#4, 1#32, true) := by decide +kernel
/-- V33: with bytes still unwritten. -/
theorem test_evPksent :
    (dev (exec (.evPksent 0#8) (one { up 5#4 with txPkt := some 3, txRd := 64#9, txWr := 100#9 }))).map
      (fun d => (d.mode, d.sigLink, d.txRd)) = some (6#4, true, 64#9) := by decide +kernel
/-- V28: an empty packet; the metadata at `data[0]`, `data[1]`. -/
theorem test_evPkvalid_empty :
    let r := exec (.evPkvalid 0#8) (one (answering { up 2#4 with latRssi := 0xCC#8, latAfc := 0x64#8 } [0]))
    (dev r).map (fun d => (d.mode, d.rssiLast)) = some (3#4, 0xCC#8) ∧
      byteOf r (lenAddr 0) = some 0#8 ∧ byteOf r (dataAddr 0 0) = some 0xCC#8 ∧
      byteOf r (dataAddr 0 1) = some 0x64#8 := by decide +kernel
/-- V29: `rx_wr` past the declared length. -/
theorem test_evPkvalid_short :
    (dev (exec (.evPkvalid 0#8) (one (answering { up 2#4 with rxWr := 64#9 } [40])))).map
      (fun d => (d.mode, d.errorCount, d.rxWr)) = some (4#4, 1#32, 64#9) := by decide +kernel
/-- V20: AFC FF,C0; RSSI 8C. -/
theorem test_evSwdet :
    (dev (exec (.evSwdet 0#8) (one (answering (up 1#4) [0xFF, 0xC0, 0x8C])))).map
      (fun d => (d.mode, d.latAfc, d.latRssi.toInt)) = some (2#4, 0x64#8, -52) := by decide +kernel
/-- V74: AFC 80,00. -/
theorem test_evSwdet_afc :
    (dev (exec (.evSwdet 0#8) (one (answering (up 1#4) [0x80, 0x00, 0x64])))).map (fun d => (d.latAfc, d.latRssi)) =
      some (0x80#8, 0xB8#8) := by decide +kernel
/-- V18, V21: honoured in mode 0 only. -/
theorem test_evPreaval :
    (dev (exec (.evPreaval 0#8) (one (up 0#4)))).map (·.mode) = some 1#4 ∧
    (dev (exec (.evPreaval 0#8) (one (up 5#4)))).map (·.mode) = some 5#4 := by decide +kernel
/-- V29h: `mode` as it was. -/
theorem test_evPor :
    (dev (exec (.evPor 0#8) (one (up 2#4)))).map (fun d => (d.initialized, d.mode)) = some (false, 2#4) := by
  decide +kernel

/-! ## One step -/

/-- V12, V16b: the handle is checked first. -/
theorem test_step_bad_handle :
    outOf (step { one (up 0#4) with inputs := [.command ⟨0x07010001#32, 0#32, 0#32⟩] }) =
      [.response 0x07010800#32 0#32] := by decide +kernel
/-- V20: two flags in one status word. -/
theorem test_step_two_flags :
    (dev (step { one (answering (up 0#4) [0xFF, 0xC0, 0x8C]) with inputs := [.irq 0#8 0x00#8 0x00#8 0xC0#8] })).map
      (fun d => (d.mode, d.latRssi, d.stIs2)) = some (2#4, 0xCC#8, 0xC0#8) := by decide +kernel
/-- V41: woken at once in RX_ERROR. -/
theorem test_step_wake :
    let r := step { one { up 4#4 with recvWait := true, sigLink := true } with inputs := [.resume 0#8 .receive] }
    (dev r).map (fun d => (d.mode, d.recvWait, d.bus.length)) = some (0#4, false, 8) ∧
      outOf r = [.response 0x03000000#32 0xFFFFFFFF#32] := by decide +kernel
/-- P6 step 5: the timed-out SEND leaves TX_DATA. -/
theorem test_step_send_timeout :
    let r := step { one { answering (up 5#4) [0, 0, 0] with sendWait := true, txPkt := some 3, sendPkt := some 3 } with
      inputs := [.resume 0#8 .send] }
    (dev r).map (fun d => (d.mode, d.sendWait, d.txtimeoutReq)) = some (7#4, false, false) ∧
      outOf r = [.response 0x02000600#32 0#32] := by decide +kernel

/-! ## The hypotheses of the statements are met

`Met P`: some state has a Device Context for which `P` holds; one conjunct per clause of the statement. -/

/-- A state, an instance and its Device Context meet `P`. -/
def Met (P : State → U8 → Context → Prop) : Prop :=
  ∃ (s : State) (hnd : U8) (d : Context), s.devs[hnd.toNat]? = some d ∧ P s hnd d

/-- The state with the one Device Context `d` meets what `d` meets. -/
theorem met {P : State → U8 → Context → Prop} (d : Context) (h : P (one d) 0#8 d) : Met P := ⟨one d, 0#8, d, rfl, h⟩

theorem test_met_DecodeOfEncode :
    (opcOf (.evPor 255#8) = none ∧ opcOf (.evFfovfl 0#8) = none) ∧ opcOf (.send 255#8 0xFFFFFFFF#32 0#32) ≠ none := by decide

theorem test_met_DecodedFrameMatchesEncoding :
    decodeFrame .command ⟨0x02FF0000#32, 0xFFFFFFFF#32, 0xFFFFFFFF#32⟩ =
      .ok (.send 0xFF#8 0xFFFFFFFF#32 0xFFFFFFFF#32) ∧
    decodeFrame .command ⟨0x03000000#32, 0#32, 5#32⟩ = .ok (.receive 0#8 0#32) ∧
    decodeFrame .command ⟨0x10000000#32, 9600#32, 0#32⟩ = .ok (.setDatarate 0#8 9600#32) ∧
    decodeFrame .command ⟨0x11000000#32, 0xFFFFFFFF#32, 0#32⟩ = .ok (.setCarrier 0#8 0xFFFFFFFF#32) ∧
    decodeFrame .command ⟨0x13000000#32, 0x1FF#32, 0#32⟩ = .ok (.setTxpower 0#8 0xFF#8) ∧
    decodeFrame .supervisor ⟨0x20000000#32, 7#32, 7#32⟩ = .ok (.forceReset 0#8) := ⟨rfl, rfl, rfl, rfl, rfl, rfl⟩

theorem test_met_IgnoredStatusBitsDoNotMatter :
    ∀ n ∈ [0, 6, 7, 9, 10, 12, 13, 22, 23], (0x3F893E#24).getLsbD n = (0x000000#24).getLsbD n := by
  decide

theorem test_met_StepRunsDecodedCommand :
    let f : Frame := ⟨0x02000000#32, 3#32, 500#32⟩
    let s := { one (up 0#4) with inputs := [frameInput .command f] }
    s.inputs = [frameInput .command f] ∧ f.hnd.toNat < s.params.nDev ∧
      decodeFrame .command f = .ok (.send 0#8 3#32 500#32) := ⟨rfl, by decide, rfl⟩

theorem test_met_StepRunsStatusWordEvents :
    let s := { one (up 0#4) with inputs := [.irq 0#8 0x00#8 0x00#8 0x40#8] }
    s.inputs = [.irq 0#8 0x00#8 0x00#8 0x40#8] ∧ s.devs[(0#8 : U8).toNat]? = some (up 0#4) ∧
      (up 0#4).initialized = true ∧ (up 0#4).txtimeoutReq = false ∧ isUnrecognised (up 0#4).mode = false ∧
      isUnrecognised (up 7#4).mode = false ∧
      decodeStatus 0#8 (statusWord 0x00#8 0x00#8 0x40#8) = [.evPreaval 0#8] :=
  ⟨rfl, rfl, rfl, rfl, rfl, rfl, by decide⟩

/-- A turn; no agent enabled; one; two; 256 instances at most. -/
theorem test_met_StepRunsAgents :
    let two : Context := { up 0#4 with recvWait := true, sigLink := true, txtimeoutReq := true }
    ({ one (up 0#4) with inputs := [.resume 0#8 .send] }).inputs = [.resume 0#8 .send] ∧
    ((one (up 0#4)).inputs = [] ∧ enabledUnits (one (up 0#4)) = []) ∧
    enabledUnits (one { up 0#4 with sendWait := true }) = [(0#8, .send)] ∧
    2 ≤ (enabledUnits (one two)).length ∧ (one two).devs.length ≤ 256 := by decide +kernel

theorem test_met_IllegalFramesAreOnlyAnswered :
    (one (up 0#4)).devs.length = (one (up 0#4)).params.nDev ∧
    (refcfg.nDev ≤ (Frame.hnd ⟨0x07010001#32, 0#32, 0#32⟩).toNat) ∧
    ((Frame.hnd ⟨0x04000001#32, 0#32, 0#32⟩).toNat < refcfg.nDev ∧ Frame.rsv ⟨0x04000001#32, 0#32, 0#32⟩ ≠ 0#16) ∧
    (Frame.rsv ⟨0x07000000#32, 0#32, 0#32⟩ = 0#16 ∧ Frame.opc ⟨0x07000000#32, 0#32, 0#32⟩ ∉
      [0x01#8, 0x02#8, 0x03#8, 0x04#8, 0x05#8, 0x06#8, 0x10#8, 0x11#8, 0x12#8, 0x13#8, 0x20#8]) ∧
    (Frame.rsv ⟨0x20000000#32, 0#32, 0#32⟩ = 0#16 ∧ Frame.opc ⟨0x20000000#32, 0#32, 0#32⟩ = 0x20#8) ∧
    (Frame.opc ⟨0x02000000#32, 4#32, 0#32⟩ = 0x02#8 ∧ refcfg.nBuf ≤ (4#32).toNat) := by decide

theorem test_met_ReadoutsAnswerAndWriteNothing : Met fun _ _ d => d.initialized = false := met Context.reset rfl

theorem test_met_SendOperation :
    ((0xFFFFFFFF#32 : U32) = 0xFFFFFFFF#32 ∧ refcfg.nBuf ≤ (4#32).toNat) ∧
    ((3#32 : U32) ≠ 0xFFFFFFFF#32 ∧ (3#32).toNat < refcfg.nBuf) ∧
    Met (fun _ _ d => d.initialized = false) ∧
    Met (fun _ _ d => d.initialized = true ∧ d.sendWait = true) ∧
    Met (fun _ _ d => d.initialized = true ∧ d.sendWait = false) ∧
    Met (fun _ _ d => d.sendWait = true ∧ d.sigTxdone = true) ∧
    Met (fun s hnd d => d.sendWait = true ∧ d.sigTxdone = false ∧ d.sendTimer = 0#32 ∧
      ∃ u e, sendAbort hnd d s = .next u ∧ u.devs[hnd.toNat]? = some e) ∧
    Met (fun _ _ d => d.sendWait = true ∧ d.sigTxdone = false ∧ d.sendTimer ≠ 0#32) :=
  ⟨⟨rfl, by decide⟩, ⟨by decide, by decide⟩, met Context.reset rfl, met { up 0#4 with sendWait := true } ⟨rfl, rfl⟩,
    met (up 0#4) ⟨rfl, rfl⟩, met { up 0#4 with sendWait := true, sigTxdone := true } ⟨rfl, rfl⟩,
    met { up 0#4 with sendWait := true, txq := some 3, sendPkt := some 3 } ⟨rfl, rfl, rfl, _, _, rfl, rfl⟩,
    met { up 0#4 with sendWait := true, sendTimer := 1#32 } ⟨rfl, rfl, by decide⟩⟩

/-- A device with the SEND of buffer 3 outstanding and three bytes on the chip's tape. -/
def sending (m : BitVec 4) (txq txPkt : Option Nat) (is2 : U8) : Context :=
  { up m with sendWait := true, sendPkt := some 3, txq := txq, txPkt := txPkt, answers := [0, 0, is2] }

theorem test_met_SendAbortLeavesTxData :
    Met (fun _ _ d => d.sendPkt = some 3 ∧ d.answers = [0, 0, 0] ∧ d.txq = some 3) ∧
    Met (fun _ _ d => d.sendPkt = some 3 ∧ d.answers = [0, 0, 0] ∧ d.txq ≠ some 3 ∧ d.txPkt = some 3 ∧ d.mode = txData ∧
      d.initialized = true ∧ (0#8).getLsbD 0 = false) ∧
    Met (fun _ _ d => d.sendPkt = some 3 ∧ d.answers = [0, 0, 1] ∧ d.txq ≠ some 3 ∧ d.txPkt = some 3 ∧ d.mode = txData ∧
      d.initialized = true ∧ (1#8).getLsbD 0 = true) ∧
    Met (fun _ _ d => d.sendPkt = some 3 ∧ d.answers = [0, 0, 0] ∧ d.txq ≠ some 3 ∧ d.txPkt = some 3 ∧ d.mode = txData ∧
      d.initialized = false) ∧
    Met (fun _ _ d => d.sendPkt = some 3 ∧ d.answers = [0, 0, 0] ∧ d.txq ≠ some 3 ∧
      ¬(d.txPkt = some 3 ∧ d.mode = txData)) :=
  ⟨met (sending 0#4 (some 3) none 0) ⟨rfl, rfl, rfl⟩,
    met (sending 5#4 none (some 3) 0) ⟨rfl, rfl, by decide, rfl, rfl, rfl, rfl⟩,
    met (sending 5#4 none (some 3) 1) ⟨rfl, rfl, by decide, rfl, rfl, rfl, rfl⟩,
    met { sending 5#4 none (some 3) 0 with initialized := false } ⟨rfl, rfl, by decide, rfl, rfl, rfl⟩,
    met (sending 6#4 none (some 3) 0) ⟨rfl, rfl, by decide, by decide⟩⟩

/-- A device with a RECEIVE outstanding. -/
def waiting (m : BitVec 4) (sigLink : Bool) : Context := { up m with recvWait := true, sigLink := sigLink }

theorem test_met_ReceiveOperation :
    Met (fun _ _ d => d.initialized = false) ∧
    Met (fun _ _ d => d.initialized = true ∧ d.recvWait = true) ∧
    Met (fun _ _ d => d.initialized = true ∧ d.recvWait = false ∧ d.rxNext ≠ none) ∧
    Met (fun _ _ d => d.initialized = true ∧ d.recvWait = false ∧ d.rxNext = none) ∧
    Met (fun _ _ d => d.recvWait = true ∧ d.sigLink = false ∧ d.recvTimer = 0#32) ∧
    Met (fun _ _ d => d.recvWait = true ∧ d.sigLink = false ∧ d.recvTimer ≠ 0#32) ∧
    Met (fun _ _ d => d.recvWait = true ∧ d.sigLink = true ∧ d.initialized = false) ∧
    Met (fun s hnd d => d.recvWait = true ∧ d.sigLink = true ∧ d.initialized = true ∧
      ∃ u, wakeNext hnd.toNat { wakeDeliver d.takeLink with recvWait := false } s = .next u) :=
  ⟨met Context.reset rfl, met (waiting 0#4 false) ⟨rfl, rfl⟩, met { up 0#4 with rxNext := some 1 } ⟨rfl, rfl, by decide⟩,
    met (up 0#4) ⟨rfl, rfl, rfl⟩, met (waiting 0#4 false) ⟨rfl, rfl, rfl⟩,
    met { waiting 0#4 false with recvTimer := 1#32 } ⟨rfl, rfl, by decide⟩,
    met { waiting 0#4 true with initialized := false } ⟨rfl, rfl, rfl⟩, met (waiting 4#4 true) ⟨rfl, rfl, rfl, _, rfl⟩⟩

theorem test_met_WakeOperation :
    Met (fun _ _ d => d.recvWait = true ∧ d.sigLink = true ∧ d.initialized = true ∧ d.txq = none) ∧
    Met (fun s _ d => d.recvWait = true ∧ d.sigLink = true ∧ d.initialized = true ∧ d.txq = some 3 ∧ 3 < s.params.nBuf) :=
  ⟨met (waiting 3#4 true) ⟨rfl, rfl, rfl, rfl⟩,
    met { waiting 7#4 true with txq := some 3 } ⟨rfl, rfl, rfl, rfl, by decide⟩⟩

theorem test_met_WakeStartsQueuedPacket :
    Met (fun s _ d => d.recvWait = true ∧ d.sigLink = true ∧ d.initialized = true ∧ d.txq = some 3 ∧ 3 < s.params.nBuf) :=
  met { waiting 7#4 true with txq := some 3 } ⟨rfl, rfl, rfl, rfl, by decide⟩

theorem test_met_TxstartRule : Met (fun s _ d => d.txq = some 3 ∧ 3 < s.params.nBuf) :=
  met { up 0#4 with txq := some 3 } ⟨rfl, by decide⟩

theorem test_met_PreambleRule :
    Met (fun _ _ d => d.initialized = true ∧ d.mode = 0#4) ∧ Met (fun _ _ d => d.initialized = true ∧ d.mode ≠ 0#4) :=
  ⟨met (up 0#4) ⟨rfl, rfl⟩, met (up 15#4) ⟨rfl, by decide⟩⟩

/-- AFC_W is 10 in REFCFG; the expression at its two bounds as well. -/
theorem test_met_SyncDetectRule :
    Met (fun _ _ d => d.initialized = true ∧ d.answers = [0xFF, 0xC0, 0x8C] ∧ d.mode = 1#4) ∧
    Met (fun _ _ d => d.initialized = true ∧ d.answers = [0xFF, 0xC0, 0x8C] ∧ d.mode ≠ 1#4) ∧
    Met (fun s _ d => d.initialized = true ∧ d.answers = [0xFF, 0xC0, 0x8C] ∧
      1 ≤ s.params.afcW ∧ s.params.afcW ≤ 16) ∧
    afcTicks { refcfg with afcW := 1 } 0x80#8 0x00#8 = -1 ∧
    afcTicks { refcfg with afcW := 16 } 0x80#8 0x00#8 = -32768 :=
  ⟨met (answering (up 1#4) [0xFF, 0xC0, 0x8C]) ⟨rfl, rfl, rfl⟩,
    met (answering (up 0#4) [0xFF, 0xC0, 0x8C]) ⟨rfl, rfl, by decide⟩,
    met (answering (up 1#4) [0xFF, 0xC0, 0x8C]) ⟨rfl, rfl, by decide, by decide⟩, by decide +kernel, by decide +kernel⟩

theorem test_met_FifoFaultRule :
    Met (fun _ _ d => d.initialized = true ∧ (d.mode = 0#4 ∨ d.mode = 1#4 ∨ d.mode = 2#4)) ∧
    Met (fun _ _ d => d.initialized = true ∧ d.mode = 5#4) ∧
    Met (fun _ _ d => d.initialized = true ∧ d.mode ≠ 0#4 ∧ d.mode ≠ 1#4 ∧ d.mode ≠ 2#4 ∧ d.mode ≠ 5#4) :=
  ⟨met (up 2#4) ⟨rfl, by decide⟩, met (up 5#4) ⟨rfl, rfl⟩, met (up 3#4) ⟨rfl, by decide, by decide, by decide, by decide⟩⟩

theorem test_met_AlmostFullDiscardsBeforeSync :
    Met (fun s _ d => d.initialized = true ∧ 1 ≤ s.params.rxWm ∧ (d.mode = 0#4 ∨ d.mode = 1#4)) ∧
    Met (fun s _ d => d.initialized = true ∧ 1 ≤ s.params.rxWm ∧ d.mode ≠ 0#4 ∧ d.mode ≠ 1#4 ∧ d.mode ≠ 2#4) :=
  ⟨met (up 1#4) ⟨rfl, by decide, by decide⟩, met (up 3#4) ⟨rfl, by decide, by decide, by decide, by decide⟩⟩

/-- A device in RX_DATA whose chip answers a length byte; PKVALID in the latched status word or not. -/
def receiving (rxWr : Cursor) (len : U8) (pkvalid : Bool) : Context :=
  { up 2#4 with rxWr := rxWr, answers := [len], stIs1 := if pkvalid then 0x12#8 else 0x10#8 }

/-- `proj` is 64 in each case: V25, V26, V24, V27. -/
theorem test_met_AlmostFullDrainsInData :
    Met (fun s _ d => d.initialized = true ∧ d.mode = 2#4 ∧ d.answers = [63#8] ∧ 1 ≤ s.params.rxWm ∧
      (63#8).toNat < d.rxWr.toNat + s.params.rxWm) ∧
    Met (fun s _ d => d.initialized = true ∧ d.mode = 2#4 ∧ d.answers = [64#8] ∧ 1 ≤ s.params.rxWm ∧
      d.rxWr.toNat + s.params.rxWm = (64#8).toNat ∧ d.status.getLsbD 9 = false) ∧
    Met (fun s _ d => d.initialized = true ∧ d.mode = 2#4 ∧ d.answers = [65#8] ∧ 1 ≤ s.params.rxWm ∧
      d.rxWr.toNat + s.params.rxWm ≤ (65#8).toNat ∧
      (d.rxWr.toNat + s.params.rxWm = (65#8).toNat → d.status.getLsbD 9 = true) ∧ d.rxActive = some 0 ∧
      0 < s.params.nBuf) ∧
    Met (fun s _ d => d.initialized = true ∧ d.mode = 2#4 ∧ d.answers = [64#8] ∧ 1 ≤ s.params.rxWm ∧
      d.rxWr.toNat + s.params.rxWm ≤ (64#8).toNat ∧
      (d.rxWr.toNat + s.params.rxWm = (64#8).toNat → d.status.getLsbD 9 = true) ∧ d.rxActive = some 0 ∧
      0 < s.params.nBuf) :=
  ⟨met (receiving 32#9 63#8 false) ⟨rfl, rfl, rfl, by decide, by decide⟩,
    met (receiving 32#9 64#8 false) ⟨rfl, rfl, rfl, by decide, rfl, rfl⟩,
    met (receiving 32#9 65#8 false) ⟨rfl, rfl, rfl, by decide, by decide, by decide, rfl, by decide⟩,
    met (receiving 32#9 64#8 true) ⟨rfl, rfl, rfl, by decide, by decide, fun _ => rfl, rfl, by decide⟩⟩

theorem test_met_PacketValidIgnoredOutsideData : Met (fun _ _ d => d.mode ≠ 2#4) := met (up 1#4) (by decide)

theorem test_met_PacketValidCompletes :
    Met (fun _ _ d => d.initialized = true ∧ d.mode = 2#4 ∧ d.answers = [63#8] ∧ (63#8).toNat < d.rxWr.toNat) ∧
    Met (fun s _ d => d.initialized = true ∧ d.mode = 2#4 ∧ d.answers = [64#8] ∧ d.rxWr.toNat ≤ (64#8).toNat ∧
      d.rxActive = some 0 ∧ 0 < s.params.nBuf ∧ d.rxNext ≠ none ∧ d.rxCompleted = none) ∧
    Met (fun s _ d => d.initialized = true ∧ d.mode = 2#4 ∧ d.answers = [255#8] ∧ d.rxWr.toNat ≤ (255#8).toNat ∧
      d.rxActive = some 0 ∧ 0 < s.params.nBuf ∧ (d.rxNext = none ∨ d.rxCompleted ≠ none)) :=
  ⟨met (receiving 64#9 63#8 true) ⟨rfl, rfl, rfl, by decide⟩,
    met { receiving 64#9 64#8 true with rxNext := some 1 } ⟨rfl, rfl, rfl, by decide, rfl, by decide, by decide, rfl⟩,
    met (receiving 0#9 255#8 true) ⟨rfl, rfl, rfl, by decide, rfl, by decide, .inl rfl⟩⟩

/-- A device in TX_DATA with buffer 3. -/
def transmitting (rd wr : Cursor) : Context := { up 5#4 with txPkt := some 3, txRd := rd, txWr := wr }

theorem test_met_AlmostEmptyTopsUp :
    Met (fun s _ d => d.initialized = true ∧ d.mode = 5#4 ∧
      min (d.txWr.toNat - d.txRd.toNat) (64 - s.params.txLoWm - 1) = 0) ∧
    Met (fun s _ d => d.initialized = true ∧ d.mode = 5#4 ∧
      0 < min (d.txWr.toNat - d.txRd.toNat) (64 - s.params.txLoWm - 1) ∧ d.txWr.toNat ≤ 255 ∧ d.txPkt = some 3 ∧
      3 < s.params.nBuf) ∧
    Met (fun _ _ d => d.initialized = true ∧ d.mode ≠ 5#4) :=
  ⟨met (transmitting 10#9 10#9) ⟨rfl, rfl, rfl⟩,
    met (transmitting 254#9 255#9) ⟨rfl, rfl, by decide, by decide, rfl, by decide⟩, met (up 6#4) ⟨rfl, by decide⟩⟩

theorem test_met_PacketSentRule :
    Met (fun _ _ d => d.initialized = true ∧ d.mode = 5#4) ∧ Met (fun _ _ d => d.initialized = true ∧ d.mode ≠ 5#4) :=
  ⟨met (up 5#4) ⟨rfl, rfl⟩, met (up 6#4) ⟨rfl, by decide⟩⟩

theorem test_met_PowerOnResetObserved :
    Met (fun _ _ d => d.initialized = true) ∧ (0x01#8).getLsbD 0 = true ∧ (0xFF#8).getLsbD 0 = true :=
  ⟨met (up 15#4) rfl, rfl, rfl⟩

theorem test_met_UninitializedIgnoresInterrupts :
    let s := { one Context.reset with inputs := [.irq 0#8 0xFF#8 0xFF#8 0xFF#8] }
    s.inputs = [.irq 0#8 0xFF#8 0xFF#8 0xFF#8] ∧ s.devs[(0#8 : U8).toNat]? = some Context.reset ∧
      Context.reset.initialized = false := ⟨rfl, rfl, rfl⟩

theorem test_met_TerminalModeIgnoresFlags :
    Met (fun _ _ d => d.initialized = true ∧ isTerminal d.mode = true ∧ (0xFE#8).getLsbD 0 = false) :=
  met (up 3#4) ⟨rfl, rfl, rfl⟩

theorem test_met_UnrecognisedModeRecovers :
    Met (fun _ _ d => d.initialized = true ∧ 8 ≤ d.mode.toNat ∧ (0xFE#8).getLsbD 0 = false) :=
  met (up 8#4) ⟨rfl, by decide, rfl⟩

theorem test_met_TimeoutRequestForcesTxError :
    Met (fun _ _ d => d.initialized = true ∧ (0xFE#8).getLsbD 0 = false ∧ d.mode = txData) ∧
    Met (fun _ _ d => d.initialized = true ∧ (0xFE#8).getLsbD 0 = false ∧ d.mode ≠ txData) :=
  ⟨met (up 5#4) ⟨rfl, rfl, rfl⟩, met (up 6#4) ⟨rfl, rfl, by decide⟩⟩

theorem test_met_HandlersActInFixedOrder :
    Met (fun _ _ d => d.initialized = true ∧ d.txtimeoutReq = false ∧ isRxInProgress d.mode = true) ∧
    Met (fun _ _ d => d.initialized = true ∧ d.txtimeoutReq = false ∧ d.mode = txData) ∧
    ((statusWord 0x80#8 0x12#8 0xC0#8).getLsbD 23 = true ∧ (0xC0#8).getLsbD 0 = false) ∧
    ((statusWord 0x40#8 0x24#8 0x00#8).getLsbD 22 = true ∧ (0x00#8).getLsbD 0 = false) ∧
    ((statusWord 0x00#8 0x12#8 0xC0#8).getLsbD 23 = false ∧ (statusWord 0x00#8 0x12#8 0xC0#8).getLsbD 22 = false) ∧
    ((statusWord 0x00#8 0x24#8 0x00#8).getLsbD 23 = false ∧ (statusWord 0x00#8 0x24#8 0x00#8).getLsbD 22 = false) :=
  ⟨met (up 2#4) ⟨rfl, rfl, rfl⟩, met (up 5#4) ⟨rfl, rfl, rfl⟩, by decide, by decide, by decide, by decide⟩

theorem test_met_TerminalEntrySignals :
    Met (fun s hnd d => ∃ t e, dispatch hnd 0x80#8 0x00#8 0x00#8 s = .next t ∧ t.devs[hnd.toNat]? = some e ∧
      isTerminal e.mode = true ∧ e.mode ≠ d.mode) :=
  met (up 0#4) ⟨_, _, rfl, rfl, rfl, by decide⟩

theorem test_met_DispatcherWorkIsBounded :
    Met (fun s hnd _ => ∃ t e, dispatch hnd 0x80#8 0x00#8 0x00#8 s = .next t ∧ t.devs[hnd.toNat]? = some e) :=
  met (up 0#4) ⟨_, _, rfl, rfl⟩

/-- A device whose chip identifies itself. -/
def probing : Context := answering (up 0#4) [0, 0, 0, 0x08, 0x06]

theorem test_met_BringupSuccessTable :
    (one probing).params.wf = true ∧ (one probing).devs[0]? = some probing ∧
    (∃ t, bringup 0 probing (one probing) = (.ok, t)) ∧ probing.rxActive ≠ none ∧
    ∃ t, bringup 0 { probing with rxActive := none } { one probing with poolPicks := [some 0] } = (.ok, t) :=
  ⟨by decide +kernel, rfl, ⟨_, rfl⟩, by decide, _, rfl⟩

/-- Wrong silicon; a range just outside on each side; no buffer; all in order. -/
theorem test_met_BringupFailureChecks :
    probing.answers = [0, 0, 0, 0x08, 0x06] ∧
    ¬((0x07#8 : U8) = refcfg.expectDevType ∧ (0x06#8 : U8) = refcfg.expectDevVer) ∧
    ((0x08#8 : U8) = refcfg.expectDevType ∧ (0x06#8 : U8) = refcfg.expectDevVer) ∧
    ¬(refcfg.freqLoLimit ≤ 239999999#32) ∧ ¬((930000001#32 : U32) ≤ refcfg.freqHiLimit) ∧
    (refcfg.freqLoLimit ≤ probing.cfg.minFreq ∧ probing.cfg.minFreq ≤ probing.cfg.maxFreq ∧
      probing.cfg.maxFreq ≤ refcfg.freqHiLimit) ∧
    ({ probing with rxActive := none }).rxActive = none ∧
    ({ one probing with poolPicks := [none] }).poolAnswer = none ∧ probing.rxActive ≠ none := by decide +kernel

theorem test_met_InitOperation :
    Met (fun _ _ d => d.sendWait = true ∨ d.recvWait = true) ∧
    Met (fun s hnd d => d.sendWait = false ∧ d.recvWait = false ∧
      (bringup hnd.toNat (initContext s.settings d) s).1 = .ok) ∧
    Met (fun s hnd d => d.sendWait = false ∧ d.recvWait = false ∧
      (bringup hnd.toNat (initContext s.settings d) s).1 ≠ .ok) :=
  ⟨met (waiting 0#4 false) (.inr rfl), met probing ⟨rfl, rfl, rfl⟩,
    met (answering (up 0#4) [0, 0, 0, 0x07, 0x06]) ⟨rfl, rfl, by decide +kernel⟩⟩

theorem test_met_InitBringsTheDeviceUp :
    Met (fun s _ d => d.sendWait = false ∧ d.recvWait = false ∧ d.answers = [0, 0, 0, 0x08, 0x06] ∧
      (0x08#8 : U8) = s.params.expectDevType ∧ (0x06#8 : U8) = s.params.expectDevVer ∧
      s.params.freqLoLimit ≤ s.settings.minFreq ∧ s.settings.minFreq ≤ s.settings.maxFreq ∧
      s.settings.maxFreq ≤ s.params.freqHiLimit ∧ (d.rxActive ≠ none ∨ s.poolAnswer ≠ none)) :=
  met probing ⟨rfl, rfl, rfl, rfl, rfl, by decide, by decide, by decide, .inl (by decide)⟩

theorem test_met_ForceResetOperation :
    Met (fun _ _ d => d.rxCompleted ≠ none ∧ d.rxNext = none ∧ d.sendWait = true) ∧
    Met (fun _ _ d => d.rxCompleted = some 0 ∧ d.rxNext ≠ none ∧ d.rxActive ≠ none ∧ d.sendWait = false) :=
  ⟨met { up 0#4 with rxActive := some 1, rxCompleted := some 0, sendWait := true } ⟨by decide, rfl, rfl⟩,
    met { up 0#4 with rxActive := some 1, rxCompleted := some 0, rxNext := some 2 } ⟨rfl, by decide, by decide, rfl⟩⟩

theorem test_met_ForceResetBringsTheDeviceUp :
    Met (fun s _ d => d.answers = [0, 0, 0, 0x08, 0x06] ∧ (0x08#8 : U8) = s.params.expectDevType ∧
      (0x06#8 : U8) = s.params.expectDevVer ∧ s.params.freqLoLimit ≤ d.cfg.minFreq ∧ d.cfg.minFreq ≤ d.cfg.maxFreq ∧
      d.cfg.maxFreq ≤ s.params.freqHiLimit ∧ d.rxActive ≠ none) :=
  met probing ⟨rfl, rfl, rfl, by decide, by decide, by decide, by decide⟩

theorem test_met_RowSelection :
    refcfg.wf = true ∧ (∃ r ∈ refcfg.phyTable, 57600#32 ≤ r.bitrate) ∧ ∀ r ∈ refcfg.phyTable, r.bitrate < 57601#32 := by
  decide +kernel

/-- SetDatarateOperation, SetCarrierOperation, SetTxpowerOperation, PreemptedPhyCommandResumes. -/
theorem test_met_PhyOperations :
    Met (fun _ _ d => d.initialized = false) ∧
    Met (fun s hnd d => d.initialized = true ∧ d.preempts = [] ∧ d.phyJobs = [] ∧
      (∃ t, exec (.setDatarate hnd 9600#32) s = .next t) ∧ (∃ t, exec (.setCarrier hnd 0#32) s = .next t) ∧
      ∃ t, exec (.setTxpower hnd 9#8) s = .next t) :=
  ⟨met Context.reset rfl, met (up 0#4) ⟨rfl, rfl, rfl, ⟨_, rfl⟩, ⟨_, rfl⟩, ⟨_, rfl⟩⟩⟩

/-- PhyCommandsWriteOnlyPhy: a command preempted after two units (one transfer done), and the rest of it going on in an
uninitialised device. -/
theorem test_met_PhyCommandsWriteOnlyPhy :
    Met (fun s hnd d => d.preempts = [2] ∧ ∃ t e, exec (.setCarrier hnd 433000000#32) s = .next t ∧
      t.devs[hnd.toNat]? = some e ∧ e.phyJobs.length = 1 ∧ e.preempts = [] ∧ t.out = []) ∧
    Met (fun s hnd d => d.initialized = false ∧ d.phyJobs = [⟨0x13#8, 0#8, 3#32, [.transfer .txpower 7#8, .setTxpow 3#3]⟩] ∧
      ∃ t e, runAgent hnd (.phy 0) s = .next t ∧ t.devs[hnd.toNat]? = some e ∧ e.phyJobs = [] ∧ e.phy.txpow = 3#3) :=
  ⟨met { up 0#4 with preempts := [2] } ⟨rfl, _, _, rfl, rfl, rfl, rfl, rfl⟩,
    met { Context.reset with phyJobs := [⟨0x13#8, 0#8, 3#32, [.transfer .txpower 7#8, .setTxpow 3#3]⟩] }
      ⟨rfl, rfl, _, _, rfl, rfl, rfl, rfl⟩⟩

theorem test_met_ReferenceConversionLaw :
    (refcfg.freqConv = .refcfg ∧ refcfg.highBandMult = 2 ∧ refcfg.freqLoLimit = 240000000#32 ∧
      refcfg.freqHiLimit = 930000000#32 ∧ refcfg.freqLoLimit ≤ 480000000#32 ∧ 480000000#32 ≤ refcfg.freqHiLimit) ∧
    refcfg.rssiConv = .refcfg ∧ refcfg.afcConv = .refcfg ∧ (0 : Int) ≤ 511 ∧ (-512 : Int) ≤ 0 := by
  decide

/-- REFCFG with the limits at one frequency: there the law is one computation. -/
def oneFrequency : Params := { refcfg with freqLoLimit := 433000100#32, freqHiLimit := 433000100#32 }

theorem oneFrequency_law : FreqLaw oneFrequency := by
  intro f h1 h2
  rw [show f = 433000100#32 from BitVec.le_antisymm h2 h1]
  decide +kernel

/-- CarrierRoundTrip: 100 Hz below, 4 x 100 <= 625 (V61). -/
theorem test_met_CarrierRoundTrip :
    Met (fun s _ d => d.initialized = true ∧ d.preempts = [] ∧ FreqLaw s.params ∧
      s.params.freqLoLimit ≤ d.cfg.minFreq ∧ d.cfg.minFreq ≤ d.cfg.maxFreq ∧ d.cfg.maxFreq ≤ s.params.freqHiLimit) :=
  let d := { up 0#4 with cfg := ⟨433000100#32, 433000100#32, 0#32, 0#32, 0#8, 0#8, 0#32⟩ }
  ⟨{ one d with params := oneFrequency }, 0#8, d, rfl, rfl, rfl, oneFrequency_law, by decide, by decide, by decide⟩

theorem test_met_TickCountsDown :
    ({ one (up 0#4) with inputs := [.tick] }).inputs = [.tick] ∧
    Met (fun _ _ d => d.sendWait = true ∧ d.recvWait = true) ∧
    Met (fun _ _ d => d.sendWait = false ∧ d.recvWait = false ∧ d.sendTimer = 5#32) :=
  ⟨rfl, met { waiting 0#4 false with sendWait := true } ⟨rfl, rfl⟩, met { up 0#4 with sendTimer := 5#32 } ⟨rfl, rfl, rfl⟩⟩

theorem test_met_SupervisorPortAccess :
    ({ one (up 0#4) with inputs := [.supRead 0#8 .mode] }).inputs = [.supRead 0#8 .mode] ∧
    ({ one (up 0#4) with inputs := [.supWrite 0#8 7#32] }).inputs = [.supWrite 0#8 7#32] ∧ Met (fun _ _ _ => True) :=
  ⟨rfl, rfl, met (up 0#4) trivial⟩

theorem test_met_HostStoreReadsBack :
    ({ one (up 0#4) with inputs := [.bufStore 3 (.data 256) 1#8] }).inputs = [.bufStore 3 (.data 256) 1#8] ∧
      3 < (one (up 0#4)).params.nBuf := by decide

/-! ### States of the invariant -/

/-- One instance with every buffer in one place keeps the invariant's part about buffers. -/
theorem inv_one {d : Context} {x : Input} (hd : d.Ok refcfg) (hb : (d.slots ++ [1, 2]).Nodup)
    (hx : x.ok refcfg = true) : State.Inv { one d with inputs := [x] } where
  params_wf := test_wf_params
  instances := rfl
  contexts := by
    intro e he
    rw [List.mem_singleton.mp he]
    exact hd
  buffers_once := by simpa [one] using hb
  pool_lt := by
    have h : ∀ k ∈ [1, 2], k < 4 := by decide
    exact h
  buf_wf := rfl
  buf_inside := by intro c hc; cases hc
  inputs_ok := by
    intro y hy
    rw [List.mem_singleton.mp hy]
    exact hx

/-- StepKeepsInvariant, StepAlwaysCompletes, ModeChangesOnlyByTheTable (an interrupt, mode 0 to 1). -/
theorem test_met_invariant_step :
    let s := { one (up 0#4) with inputs := [.irq 0#8 0x00#8 0x00#8 0x40#8] }
    s.Inv ∧ s.devs[0]? = some (up 0#4) ∧
      ∃ t e, step s = .next t ∧ t.devs[0]? = some e ∧ e.mode ≠ (up 0#4).mode :=
  ⟨inv_one ⟨rfl, by decide, by decide, by decide, by decide, by decide, by decide, by decide, rfl⟩ (by decide) rfl, rfl,
    _, _, rfl, rfl, by decide⟩

/-- ModeChangesOnlyByTheTable, the other three agents: the timed-out SEND, the woken sequencer, a successful INIT. -/
theorem test_met_ModeChangesOnlyByTheTable :
    let d1 := { sending 5#4 none (some 3) 0 with txRd := 0#9 }
    let s1 := { one d1 with inputs := [.resume 0#8 .send] }
    let d2 := waiting 4#4 true
    let s2 := { one d2 with inputs := [.resume 0#8 .receive] }
    let d3 := { probing with mode := 4#4 }
    let s3 := { one d3 with inputs := [.command ⟨0x01000000#32, 0#32, 0#32⟩] }
    (s1.Inv ∧ (dev (step s1)).map Context.mode = some txError) ∧
    (s2.Inv ∧ (dev (step s2)).map Context.mode = some rxWaitPreamble) ∧
    (s3.Inv ∧ (dev (step s3)).map Context.mode = some rxWaitPreamble) :=
  ⟨⟨inv_one ⟨rfl, by decide, by decide, by decide, by decide, by decide, by decide, by decide, rfl⟩ (by decide) rfl,
      by decide +kernel⟩,
    ⟨inv_one ⟨rfl, by decide, by decide, by decide, by decide, by decide, by decide, by decide, rfl⟩ (by decide) rfl,
      by decide +kernel⟩,
    ⟨inv_one ⟨rfl, by decide, by decide, by decide, by decide, by decide, by decide, by decide, rfl⟩ (by decide) rfl,
      by decide +kernel⟩⟩

/-- CompletedBufferIsolation: a packet-valid interrupt while buffer 3 is pending. -/
theorem test_met_CompletedBufferIsolation :
    let d := { receiving 0#9 5#8 false with rxCompleted := some 3 }
    let s := { one d with inputs := [.irq 0#8 0x00#8 0x02#8 0x00#8] }
    s.Inv ∧ (∃ t, step s = .next t) ∧ (∀ k' f' v rest, s.inputs ≠ .bufStore k' f' v :: rest) ∧ d ∈ s.devs ∧
      d.rxCompleted = some 3 :=
  ⟨inv_one ⟨rfl, by decide, by decide, by decide, by decide, by decide, by decide, by decide, rfl⟩ (by decide) rfl,
    ⟨_, rfl⟩, by intro k' f' v rest h; simp at h, List.mem_singleton.mpr rfl, rfl⟩

/-- InstancesAreIndependent: an instruction, an interrupt and an agent of instance 0 beside instance 1. -/
theorem test_met_InstancesAreIndependent :
    let s := { one (up 0#4) with devs := [up 0#4, up 5#4] }
    Instr.hnd (.evPreaval 0#8) = 0#8 ∧ (1 ≠ (0#8 : U8).toNat) ∧ (∃ t, exec (.evPreaval 0#8) s = .next t) ∧
      (∃ t, dispatch 0#8 0x00#8 0x00#8 0x40#8 s = .next t) ∧ ∃ t, runAgent 0#8 .receive s = .next t :=
  ⟨rfl, by decide, ⟨_, rfl⟩, ⟨_, rfl⟩, _, rfl⟩

theorem test_met_ParametersAreNeverWritten :
    (∃ t, step { one (up 0#4) with inputs := [.tick] } = .next t) ∧
      ∀ r rest, ({ one (up 0#4) with inputs := [.tick] }).inputs ≠ .settings r :: rest :=
  ⟨⟨_, rfl⟩, by intro r rest h; simp at h⟩

/-- PayloadFidelity: one almost-full interrupt and packet valid deliver 33 bytes; and a packet of one byte. -/
theorem test_met_PayloadFidelity :
    Met (fun s _ d => d.initialized = true ∧ d.mode = rxData ∧ d.txtimeoutReq = false ∧ d.rxWr = 0#9 ∧
      d.rxActive = some 0 ∧ 0 < s.params.nBuf ∧ 1 ≤ s.params.rxWm ∧
      (∀ b ∈ [List.replicate 32 7#8], b.length = s.params.rxWm) ∧ ([9#8] : List U8) ≠ [] ∧
      (33#8).toNat = [List.replicate 32 7#8].length * s.params.rxWm + [9#8].length ∧
      d.answers = ([List.replicate 32 7#8].flatMap fun b => 33#8 :: b) ++ (33#8 :: [9#8]) ++ []) ∧
    Met (fun s _ d => d.initialized = true ∧ d.mode = rxData ∧ d.rxWr = 0#9 ∧ d.rxNext ≠ none ∧ d.rxCompleted = none ∧
      (1#8).toNat = ([] : List (List U8)).length * s.params.rxWm + [9#8].length ∧
      d.answers = (([] : List (List U8)).flatMap fun b => 1#8 :: b) ++ (1#8 :: [9#8]) ++ []) :=
  ⟨met (answering (up 2#4) (33#8 :: List.replicate 32 7#8 ++ [33#8, 9#8]))
      ⟨rfl, rfl, rfl, rfl, rfl, by decide, by decide, by decide, by decide, rfl, rfl⟩,
    met (answering { up 2#4 with rxNext := some 1 } [1#8, 9#8]) ⟨rfl, rfl, rfl, by decide, rfl, rfl, rfl⟩⟩

/-- PayloadFidelity, the two other shapes: 32 bytes with packet valid in the one almost-full word, and length 0. -/
theorem test_met_PayloadFidelity_words :
    let b := List.replicate 32 7#8
    let d1 := answering (up 2#4) (32#8 :: b ++ [32#8])
    let s1 := { one d1 with inputs := [.irq 0#8 0x00#8 0x12#8 0x00#8] }
    let d0 := answering (up 2#4) [0#8]
    let s0 := { one d0 with inputs := [.irq 0#8 0x00#8 0x02#8 0x00#8] }
    ((32#8).toNat = [b].length * s1.params.rxWm + ([] : List U8).length ∧ [b] ≠ [] ∧
      d1.answers = ([b].flatMap fun b => 32#8 :: b) ++ (32#8 :: []) ++ [] ∧
      s1.inputs = ((List.replicate ([b].length - 1) 0x10#8 ++ [0x12#8]).map fun w => .irq 0#8 0x00#8 w 0x00#8) ++ [] ∧
      (dev (runSteps 1 s1)).map (fun e => (e.mode, e.rxWr)) = some (rxComplete, 0#9)) ∧
    (d0.answers = (([] : List (List U8)).flatMap fun b => 0#8 :: b) ++ (0#8 :: []) ++ [] ∧
      s0.inputs = ((List.replicate 0 0x10#8 ++ [0x02#8]).map fun w => .irq 0#8 0x00#8 w 0x00#8) ++ [] ∧
      (dev (runSteps 1 s0)).map (fun e => (e.mode, e.rxWr)) = some (rxComplete, 0#9)) := by decide +kernel

/-- TransmitSequence: 65 bytes need one top-up, 255 need four, 10 none (spec/95_test_vectors.md section 2.3). -/
theorem test_met_TransmitSequence :
    ∀ c ∈ [((64#9 : Cursor), (65#9 : Cursor), 1), (64#9, 255#9, 4), (10#9, 10#9, 0)],
      let d := transmitting c.1 c.2.1
      d.initialized = true ∧ d.mode = txData ∧ d.txtimeoutReq = false ∧ d.txPkt = some 3 ∧ 3 < refcfg.nBuf ∧
      refcfg.txLoWm ≤ 62 ∧ d.txWr.toNat ≤ 255 ∧ d.txRd.toNat = min d.txWr.toNat 64 ∧
      c.2.2 = (d.txWr.toNat - 64 + (64 - refcfg.txLoWm - 1) - 1) / (64 - refcfg.txLoWm - 1) := by decide +kernel

end Sys2Proof.Tests
end

