-- ==== Sys2Proof/Proofs/FixedPart.lean ====
section
/-! PROOF. What no step but the settings store's own change writes: the parameters, the number of instances, the serial
number and the settings record (spec/00_scope.md R9, spec/43_bridge_api.md R205). `State.fixed` reads these four off a
state; every update and procedure keeps it, and from this every meaning that may also stop with a fault. -/

namespace Sys2Proof.Machine

/-- The part of a state that only the settings store may change. -/
def State.fixed (s : State) : Params × Nat × Nat × Settings := (s.params, s.devs.length, s.serial, s.settings)

theorem State.fixed_eq_iff {s t : State} :
    t.fixed = s.fixed ↔ t.params = s.params ∧ t.devs.length = s.devs.length ∧ t.serial = s.serial ∧
      t.settings = s.settings := by
  simp [State.fixed]

/-! ## Updates of the state -/

@[simp] theorem State.setDev_fixed (s : State) (h : Nat) (d : Context) : (s.setDev h d).fixed = s.fixed := by
  simp [State.fixed]
@[simp] theorem State.respond_fixed (s : State) (opc hnd : U8) (st : Status) (v : U32) :
    (s.respond opc hnd st v).fixed = s.fixed := rfl
@[simp] theorem State.poolTaken_fixed (s : State) : s.poolTaken.fixed = s.fixed := rfl
@[simp] theorem State.poolRelease_fixed (s : State) (k : Nat) : (s.poolRelease k).fixed = s.fixed := rfl

/-! ## Procedures that always give a next state -/

@[simp] theorem runPhy_fixed (h : Nat) (job : PhyJob) (d : Context) (s : State) :
    (runPhy h job d s).fixed = s.fixed := by
  unfold runPhy
  split
  · simp
  · split <;> simp

@[simp] theorem resumePhy_fixed (h j : Nat) (d : Context) (s : State) : (resumePhy h j d s).fixed = s.fixed := by
  unfold resumePhy
  split <;> simp

@[simp] theorem bringupPool_fixed (d : Context) (s : State) : (bringupPool d s).fixed = s.fixed := by
  unfold bringupPool
  split <;> simp

@[simp] theorem bringup_fixed (h : Nat) (d : Context) (s : State) : (bringup h d s).2.fixed = s.fixed := by
  unfold bringup
  dsimp only
  split_ifs <;> simp

@[simp] theorem recyclePool_fixed (d : Context) (s : State) : (recyclePool d s).fixed = s.fixed := by
  unfold recyclePool
  split
  · split <;> simp
  · rfl

@[simp] theorem wakeStranded_fixed (h : Nat) (was : Bool) (s : State) : (wakeStranded h was s).fixed = s.fixed := by
  unfold wakeStranded
  split
  · rfl
  · split <;> simp

@[simp] theorem endSend_fixed (h : Nat) (s : State) : (endSend h s).fixed = s.fixed := by
  unfold endSend
  split <;> simp

@[simp] theorem supervisorRead_fixed (h : Nat) (r : SupReg) (s : State) : (supervisorRead h r s).fixed = s.fixed := by
  unfold supervisorRead
  split <;> rfl

@[simp] theorem supervisorWrite_fixed (h : Nat) (v : U32) (s : State) : (supervisorWrite h v s).fixed = s.fixed := by
  unfold supervisorWrite
  split <;> simp

/-! ## Results -/

/-- A next state, where the result has one, has the fixed part of `s`. -/
def KeepsFixed (s : State) (r : Res) : Prop := ∀ t, r = .next t → t.fixed = s.fixed

@[simp] theorem keepsFixed_next {s t : State} : KeepsFixed s (.next t) ↔ t.fixed = s.fixed :=
  ⟨fun h => h t rfl, fun h u hu => by cases hu; exact h⟩

@[simp] theorem keepsFixed_fault (s : State) (e : Fault) : KeepsFixed s (.fault e) := fun _ h => by cases h

theorem KeepsFixed.congr {s u : State} {r : Res} (hr : KeepsFixed u r) (hu : u.fixed = s.fixed) : KeepsFixed s r :=
  fun t ht => (hr t ht).trans hu

theorem KeepsFixed.bindRes {s : State} {r : Res} {f : State → Res} (hr : KeepsFixed s r)
    (hf : ∀ u, KeepsFixed u (f u)) : KeepsFixed s (bindRes r f) := by
  intro t ht
  obtain ⟨u, hu, ht⟩ := bindRes_eq_next.mp ht
  exact (hf u t ht).trans (hr u hu)

theorem onEvent_keepsFixed {hnd : U8} {s : State} {rule : Nat → Context → Res}
    (hrule : ∀ h d, KeepsFixed s (rule h d)) : KeepsFixed s (onEvent hnd s rule) := by
  intro t ht
  obtain rfl | ⟨d, -, -, ht⟩ := onEvent_eq_next ht
  · rfl
  · exact hrule _ _ t ht

theorem onCommand_keepsFixed {opc hnd : U8} {s : State} {rule : Nat → Context → Res}
    (hrule : ∀ h d, KeepsFixed s (rule h d)) : KeepsFixed s (onCommand opc hnd s rule) := by
  intro t ht
  obtain ⟨-, rfl⟩ | ⟨d, -, ht⟩ := onCommand_eq_next ht
  · simp
  · exact hrule _ _ t ht

/-! ## The pipelines -/

theorem rxDrain_keepsFixed (h : Nat) (d : Context) (s : State) : KeepsFixed s (rxDrain h d s) := by
  intro t ht
  obtain ⟨-, rfl⟩ | ⟨-, k, -, -, rfl⟩ := rxDrain_eq_next ht
  · simp
  · exact s.setDev_fixed _ _

theorem rxFinish_keepsFixed (h : Nat) (d : Context) (s : State) : KeepsFixed s (rxFinish h d s) := by
  intro t ht
  obtain ⟨-, rfl⟩ | ⟨-, k, -, -, rfl⟩ := rxFinish_eq_next ht
  · simp
  · exact s.setDev_fixed _ _

theorem txstart_keepsFixed (h : Nat) (d : Context) (s : State) : KeepsFixed s (txstart h d s) := by
  intro t ht
  obtain ⟨k, -, -, rfl⟩ := txstart_eq_next ht
  simp

theorem txAlmostEmpty_keepsFixed (h : Nat) (d : Context) (s : State) : KeepsFixed s (txAlmostEmpty h d s) := by
  intro t ht
  obtain ⟨-, rfl⟩ | ⟨-, k, -, -, rfl⟩ := txAlmostEmpty_eq_next ht
  · rfl
  · simp

theorem wakeNext_keepsFixed (h : Nat) (d : Context) (s : State) : KeepsFixed s (wakeNext h d s) := by
  intro t ht
  obtain ⟨-, rfl⟩ | ⟨-, ht⟩ := wakeNext_eq_next ht
  · simp
  · exact txstart_keepsFixed _ _ _ t ht

/-! ## The instructions -/

/-- Every instruction, command or event, keeps the fixed part. -/
theorem exec_keepsFixed (i : Instr) (s : State) : KeepsFixed s (exec i s) := by
  cases i with
  | init | setDatarate | setCarrier | setTxpower =>
    simp only [exec, execInit, execSetDatarate, execSetCarrier, execSetTxpower]
    refine onCommand_keepsFixed fun h d => keepsFixed_next.mpr ?_
    split <;> simp
  | send =>
    simp only [exec, execSend]
    refine onCommand_keepsFixed fun h d => keepsFixed_next.mpr ?_
    split
    · simp
    · split_ifs <;> simp
  | receive =>
    simp only [exec, execReceive]
    refine onCommand_keepsFixed fun h d => keepsFixed_next.mpr ?_
    split_ifs <;> simp
  | getDeviceId | getRssi | getResetCount | getCarrier | forceReset =>
    simp only [exec, execGetDeviceId, execGetRssi, execGetResetCount, execGetCarrier, execForceReset]
    exact onCommand_keepsFixed fun h d => by simp
  | evFfovfl | evFfunfl | evPor =>
    simp only [exec, execEvFfovfl, execEvFfunfl, execEvPor]
    exact onEvent_keepsFixed fun h d => by simp
  | evPreaval | evSwdet | evPksent =>
    simp only [exec, execEvPreaval, execEvSwdet, execEvPksent]
    refine onEvent_keepsFixed fun h d => keepsFixed_next.mpr ?_
    split <;> simp
  | evTxffaem =>
    simp only [exec, execEvTxffaem]
    refine onEvent_keepsFixed fun h d => ?_
    split
    · exact txAlmostEmpty_keepsFixed h d s
    · simp
  | evRxffafull =>
    simp only [exec, execEvRxffafull]
    refine onEvent_keepsFixed fun h d => ?_
    split_ifs
    · simp [rxDiscardDrain]
    · exact rxDrain_keepsFixed h d s
    · simp
  | evPkvalid =>
    simp only [exec, execEvPkvalid]
    refine onEvent_keepsFixed fun h d => ?_
    split
    · exact rxFinish_keepsFixed h d s
    · simp

/-! ## The dispatcher -/

theorem runEvents_keepsFixed (l : List Instr) (s : State) : KeepsFixed s (runEvents l s) := by
  induction l generalizing s with
  | nil => exact keepsFixed_next.mpr rfl
  | cons i l ih => exact (exec_keepsFixed i s).bindRes ih

theorem dispatchByMode_keepsFixed (hnd : U8) (d : Context) (s : State) : KeepsFixed s (dispatchByMode hnd d s) := by
  unfold dispatchByMode
  dsimp only
  split_ifs
  · exact (runEvents_keepsFixed _ _).congr (s.setDev_fixed _ _)
  · simp
  · simp
  · exact (runEvents_keepsFixed _ _).congr (s.setDev_fixed _ _)

theorem dispatch_keepsFixed (hnd dev is1 is2 : U8) (s : State) : KeepsFixed s (dispatch hnd dev is1 is2 s) := by
  unfold dispatch
  split
  · simp
  · split
    · simp
    · exact (dispatchByMode_keepsFixed _ _ s).bindRes fun u => by simp

theorem dispatchOwn_keepsFixed (hnd : U8) (s : State) : KeepsFixed s (dispatchOwn hnd s) := by
  unfold dispatchOwn
  split
  · simp
  · split
    · simp
    · exact (dispatch_keepsFixed _ _ _ _ _).congr (s.setDev_fixed _ _)

/-! ## The agents -/

theorem sendAbort_keepsFixed (hnd : U8) (d : Context) (s : State) : KeepsFixed s (sendAbort hnd d s) := by
  unfold sendAbort
  split_ifs
  · simp
  · exact (dispatchOwn_keepsFixed _ _).congr (s.setDev_fixed _ _)
  · simp

theorem sendComplete_keepsFixed (hnd : U8) (d : Context) (s : State) : KeepsFixed s (sendComplete hnd d s) := by
  unfold sendComplete
  dsimp only
  split
  · simp
  · split
    · simp
    · split
      · exact (sendAbort_keepsFixed hnd d s).bindRes fun u => by simp
      · simp

theorem receiveWoken_keepsFixed (hnd : U8) (h : Nat) (d : Context) (s : State) :
    KeepsFixed s (receiveWoken hnd h d s) := by
  unfold receiveWoken
  split
  · simp
  · exact (wakeNext_keepsFixed _ _ s).bindRes fun u => by simp

theorem receiveComplete_keepsFixed (hnd : U8) (d : Context) (s : State) : KeepsFixed s (receiveComplete hnd d s) := by
  unfold receiveComplete
  split_ifs
  · simp
  · exact receiveWoken_keepsFixed _ _ _ s
  · simp
  · simp

theorem runAgent_keepsFixed (hnd : U8) (a : Agent) (s : State) : KeepsFixed s (runAgent hnd a s) := by
  unfold runAgent
  split
  · simp
  · cases a with
    | send => exact sendComplete_keepsFixed _ _ s
    | receive => exact receiveComplete_keepsFixed _ _ s
    | dispatcher =>
      dsimp only
      split
      · exact dispatchOwn_keepsFixed _ s
      · simp
    | phy j => simp

theorem runOwnAgents_keepsFixed (s : State) : KeepsFixed s (runOwnAgents s) := by
  unfold runOwnAgents
  split
  · simp
  · exact runAgent_keepsFixed _ _ s
  · exact (runAgent_keepsFixed _ _ _).congr rfl

/-! ## One step -/

theorem runFrame_keepsFixed (port : Port) (f : Frame) (s : State) : KeepsFixed s (runFrame port f s) := by
  unfold runFrame
  split
  · simp
  · split
    · simp
    · exact exec_keepsFixed _ s

theorem hostStore_keepsFixed (k : Nat) (f : BufField) (v : U8) (s : State) : KeepsFixed s (hostStore k f v s) := by
  unfold hostStore
  split
  · exact keepsFixed_next.mpr rfl
  · simp

/-- Every input keeps the fixed part, but for the settings record where the settings store presents a new one. -/
theorem runInput_keepsFixed (x : Input) (s : State) :
    (∃ r, x = .settings r ∧ runInput x s = .next { s with settings := r }) ∨ KeepsFixed s (runInput x s) := by
  cases x with
  | settings r => exact .inl ⟨r, rfl, rfl⟩
  | command f => exact .inr (runFrame_keepsFixed .command f s)
  | supervisor f => exact .inr (runFrame_keepsFixed .supervisor f s)
  | irq hnd dev is1 is2 => exact .inr (dispatch_keepsFixed hnd dev is1 is2 s)
  | tick => exact .inr (by simp [runInput, State.fixed])
  | resume hnd a => exact .inr (runAgent_keepsFixed hnd a s)
  | supRead hnd r => exact .inr (keepsFixed_next.mpr (supervisorRead_fixed _ r s))
  | supWrite hnd v => exact .inr (keepsFixed_next.mpr (supervisorWrite_fixed _ v s))
  | bufStore k f v => exact .inr (hostStore_keepsFixed k f v s)
  | poolTake k => exact .inr (keepsFixed_next.mpr rfl)
  | poolReturn k =>
    refine .inr (keepsFixed_next.mpr ?_)
    split <;> simp

/-- Everything a step can do to the fixed part: nothing, or what the settings store presents. -/
theorem step_fixed {s t : State} (ht : step s = .next t) :
    (∃ r rest, s.inputs = .settings r :: rest ∧ t = { s with inputs := rest, settings := r }) ∨ t.fixed = s.fixed := by
  unfold step at ht
  split at ht
  case h_1 => exact .inr (runOwnAgents_keepsFixed s t ht)
  case h_2 x rest hx =>
    obtain ⟨r, rfl, hr⟩ | hk := runInput_keepsFixed x { s with inputs := rest }
    · cases hr.symm.trans ht
      exact .inl ⟨r, rest, hx, rfl⟩
    · exact .inr (hk t ht)

/-- Settles O58: of the fixed part only the settings record changes, and only where the settings store presents one. -/
theorem parametersAreNeverWritten : Obligations.ParametersAreNeverWritten := by
  intro s t ht
  obtain ⟨r, rest, hin, rfl⟩ | hfix := step_fixed ht
  · exact ⟨rfl, rfl, rfl, fun hno => absurd hin (hno r rest)⟩
  · obtain ⟨hparams, hdevs, hserial, hsettings⟩ := State.fixed_eq_iff.mp hfix
    exact ⟨hparams, hdevs, hserial, fun _ => hsettings⟩

end Sys2Proof.Machine
end

