-- ==== Sys2Proof/Proofs/InvariantKept.lean ====
section
/-! PROOF. The invariant holds at reset and every step keeps it (spec/10_state.md R21, R24, R28, R45). A rule changes one
Device Context, so its proof has two halves: the new Device Context is still `Context.Ok` (one lemma per kind of update),
and the buffers of the slots and the pool are a part of what they were (counted, buffer by buffer).

Several rules are handed a Device Context `d` that the state does not hold yet, and store over the one it holds: they do
the same from the state that holds `d`. The lemmas `bringup_setDev`, `dispatchByMode_setDev`, `txstart_setDev` and
`wakeNext_setDev` say so; with them each rule's lemma is about a state that meets the invariant and holds `d`. -/

namespace Sys2Proof.Machine

/-! ## Reset -/

theorem mem_reset_devs {d : Context} (hd : d ∈ State.reset.devs) : d = Context.reset := List.eq_of_mem_replicate hd

/-- Settles O51: the one kind of Device Context there is at reset, register by register. -/
theorem resetTable : Obligations.ResetTable := by
  refine ⟨List.cons_ne_nil _ _, fun d hd => ?_⟩
  obtain rfl := mem_reset_devs hd
  decide

theorem refcfg_wf : refcfg.wf = true := by decide

theorem reset_ok (p : Params) : Context.reset.Ok p where
  mode_recognised := rfl
  active_of_initialized h := nomatch h
  rxWr_le := Nat.zero_le _
  tx_in_flight h := absurd h (by decide)
  txWr_le := Nat.zero_le _
  slots_lt _ h := nomatch h
  txq_lt _ h := nomatch h
  txPkt_lt _ h := nomatch h
  no_timeout := rfl

/-- Settles O52: no buffer is in a slot, each is in the pool once, and nothing is pending. -/
theorem resetMeetsInvariant : Obligations.ResetMeetsInvariant where
  params_wf := refcfg_wf
  instances := List.length_replicate
  contexts _ hd := mem_reset_devs hd ▸ reset_ok _
  buffers_once := List.nodup_range
  pool_lt _ hk := List.mem_range.mp hk
  buf_wf := rfl
  buf_inside _ hc := nomatch hc
  inputs_ok _ hx := nomatch hx

/-! ## Updates of a Device Context that keep it Ok -/

/-- The registers the invariant reads. -/
def Context.checked (d : Context) :
    BitVec 4 × Bool × Bool × (Option Nat × Option Nat × Option Nat × Cursor) ×
      (Option Nat × Option Nat × Cursor × Cursor) :=
  (d.mode, d.initialized, d.txtimeoutReq, (d.rxActive, d.rxNext, d.rxCompleted, d.rxWr),
    (d.txq, d.txPkt, d.txRd, d.txWr))

section
variable {p : Params} {d e : Context}

theorem rxSlots_of_checked (he : e.checked = d.checked) :
    e.rxActive = d.rxActive ∧ e.rxNext = d.rxNext ∧ e.rxCompleted = d.rxCompleted := by
  simp only [Context.checked, Prod.mk.injEq] at he
  obtain ⟨-, -, -, ⟨hactive, hnext, hcompleted, -⟩, -⟩ := he
  exact ⟨hactive, hnext, hcompleted⟩

theorem slots_of_checked (he : e.checked = d.checked) : e.slots = d.slots := by
  obtain ⟨hactive, hnext, hcompleted⟩ := rxSlots_of_checked he
  exact slots_congr hactive hnext hcompleted

theorem Context.Ok.congr (hd : d.Ok p) (he : e.checked = d.checked) : e.Ok p := by
  have hslots := slots_of_checked he
  simp only [Context.checked, Prod.mk.injEq] at he
  obtain ⟨hmode, hinit, hreq, ⟨hactive, -, -, hrx⟩, htxq, hpkt, hrd, hwr⟩ := he
  constructor
  · rw [hmode]; exact hd.mode_recognised
  · rw [hinit, hactive]; exact hd.active_of_initialized
  · rw [hrx]; exact hd.rxWr_le
  · rw [hmode, hpkt, hrd, hwr]; exact hd.tx_in_flight
  · rw [hwr]; exact hd.txWr_le
  · rw [hslots]; exact hd.slots_lt
  · rw [htxq]; exact hd.txq_lt
  · rw [hpkt]; exact hd.txPkt_lt
  · rw [hreq]; exact hd.no_timeout

/-- Any mode but TX_DATA asks nothing of the packet in flight. -/
theorem Context.Ok.setMode (hd : d.Ok p) {m : BitVec 4} (hm : isUnrecognised m = false) (hne : m ≠ txData) :
    Context.Ok p { d with mode := m } :=
  { hd with mode_recognised := hm, tx_in_flight := fun h => absurd h hne }

theorem Context.Ok.setRxWr (hd : d.Ok p) {w : Cursor} (hw : w.toNat ≤ Config.maxLen) :
    Context.Ok p { d with rxWr := w } :=
  { hd with rxWr_le := hw }

theorem Context.Ok.setTxRd (hd : d.Ok p) {r : Cursor} (hr : r.toNat ≤ d.txWr.toNat) :
    Context.Ok p { d with txRd := r } :=
  { hd with tx_in_flight := fun h => ⟨(hd.tx_in_flight h).1, hr⟩ }

theorem Context.Ok.setTxq (hd : d.Ok p) {q : Option Nat} (hq : ∀ k, q = some k → k < p.nBuf) :
    Context.Ok p { d with txq := q } :=
  { hd with txq_lt := hq }

theorem Context.Ok.clearTxPkt (hd : d.Ok p) (hm : d.mode ≠ txData) : Context.Ok p { d with txPkt := none } :=
  { hd with tx_in_flight := fun h => absurd h hm, txPkt_lt := fun _ h => nomatch h }

theorem Context.Ok.uninitialize (hd : d.Ok p) : Context.Ok p { d with initialized := false } :=
  { hd with active_of_initialized := fun h => nomatch h }

theorem Context.Ok.setSlots (hd : d.Ok p) {active next completed : Option Nat}
    (ha : d.initialized = true → active ≠ none)
    (hs : ∀ k ∈ Context.slots { d with rxActive := active, rxNext := next, rxCompleted := completed }, k < p.nBuf) :
    Context.Ok p { d with rxActive := active, rxNext := next, rxCompleted := completed } :=
  { hd with active_of_initialized := ha, slots_lt := hs }

/-- TXSTART's registers (spec/42_tx_pipeline.md R181): the pre-load is no longer than the packet. -/
theorem Context.Ok.startTx (hd : d.Ok p) {k rd : Nat} (hq : d.txq = some k) (len : U8) (hrd : rd ≤ len.toNat) :
    Context.Ok p { d with
      txPkt := d.txq, txq := none, txRd := BitVec.ofNat 9 rd, txWr := BitVec.ofNat 9 len.toNat, mode := txData } := by
  have hlen := len.isLt
  have hwr : (BitVec.ofNat 9 len.toNat).toNat = len.toNat := by simp only [BitVec.toNat_ofNat]; omega
  have hrd' : (BitVec.ofNat 9 rd).toNat = rd := by simp only [BitVec.toNat_ofNat]; omega
  exact { hd with
    mode_recognised := rfl
    tx_in_flight := fun _ => ⟨by simp [hq], by rw [hrd', hwr]; exact hrd⟩
    txWr_le := by rw [hwr]; simp only [Config.maxLen]; omega
    txq_lt := fun _ h => nomatch h
    txPkt_lt := hd.txq_lt }

/-! ## The procedures on a Device Context -/

theorem Context.Ok.rxarm (hd : d.Ok p) : (rxarm p d).Ok p :=
  ((hd.setRxWr (w := 0#9) (Nat.zero_le _)).setMode (m := rxWaitPreamble) rfl (by decide)).congr rfl

/-- PROMOTE and DISCARD leave the same buffers in the slots (spec/41_rx_pipeline.md R169, R170). -/
theorem promoteOrDiscard_slots_perm (d : Context) : (promoteOrDiscard d).slots.Perm d.slots := by
  unfold promoteOrDiscard
  split
  case isTrue h =>
    rw [slots_eq, slots_eq, h.2]
    simpa using List.perm_append_comm
  case isFalse => exact .refl _

theorem Context.Ok.promoteOrDiscard (hd : d.Ok p) : (promoteOrDiscard d).Ok p := by
  have hslots : ∀ k ∈ (Machine.promoteOrDiscard d).slots, k < p.nBuf :=
    fun k hk => hd.slots_lt k ((promoteOrDiscard_slots_perm d).subset hk)
  unfold Machine.promoteOrDiscard at hslots ⊢
  split at hslots
  case isTrue h =>
    rw [if_pos h]
    exact (hd.setSlots (fun _ => h.1) hslots).setRxWr (Nat.zero_le _)
  case isFalse h =>
    rw [if_neg h]
    exact hd.setRxWr (Nat.zero_le _)

/-- WAKE's branch on the registers of the invariant: the packet in flight is over, the completed buffer is delivered, or
nothing (spec/43_bridge_api.md R214). -/
theorem wakeDeliver_checked (d : Context) :
    ((wakeDeliver d).checked = Context.checked { d with txPkt := none } ∧ d.mode ≠ txData) ∨
    (wakeDeliver d).checked = Context.checked { d with rxCompleted := none } ∨
    (wakeDeliver d).checked = d.checked := by
  unfold wakeDeliver
  split_ifs with hdone hq hfail hq hrx
  · exact .inl ⟨rfl, by rw [hdone]; decide⟩
  · exact .inl ⟨rfl, by rw [hdone]; decide⟩
  · exact .inl ⟨rfl, by rw [hfail]; decide⟩
  · exact .inl ⟨rfl, by rw [hfail]; decide⟩
  · exact .inr (.inl rfl)
  · exact .inr (.inr rfl)

/-- Without the completed buffer the slots hold the two others. -/
theorem slots_clearCompleted_sublist (d : Context) :
    (Context.slots { d with rxCompleted := none }).Sublist d.slots := by
  rw [slots_eq, slots_eq]
  exact (List.Sublist.refl _).append ((List.Sublist.refl _).append (List.nil_sublist _))

theorem wakeDeliver_slots_sublist (d : Context) : (wakeDeliver d).slots.Sublist d.slots := by
  obtain ⟨h, -⟩ | h | h := wakeDeliver_checked d
  · rw [slots_of_checked h]; exact .refl _
  · rw [slots_of_checked h]; exact slots_clearCompleted_sublist d
  · rw [slots_of_checked h]

theorem Context.Ok.wakeDeliver (hd : d.Ok p) : (wakeDeliver d).Ok p := by
  obtain ⟨h, hm⟩ | h | h := wakeDeliver_checked d
  · exact (hd.clearTxPkt hm).congr h
  · refine (hd.setSlots hd.active_of_initialized fun k hk => ?_).congr h
    exact hd.slots_lt k ((slots_clearCompleted_sublist d).subset hk)
  · exact hd.congr h

end

/-! ## Updates of the state that keep the invariant -/

theorem State.Inv.setDev_of_checked {s : State} {h : Nat} {d e : Context} (hs : s.Inv) (hd : s.devs[h]? = some d)
    (he : e.checked = d.checked) : (s.setDev h e).Inv :=
  hs.update (e := e) hd rfl rfl (fun _ => (hs.ok hd).congr he) (by rw [slots_of_checked he]; exact .refl _) hs.buf_wf
    hs.buf_inside hs.inputs_ok

/-- A device that goes to another mode than TX_DATA, and else keeps what the invariant reads. -/
theorem State.Inv.setMode {s : State} {h : Nat} {d e : Context} (hs : s.Inv) (hd : s.devs[h]? = some d) {m : BitVec 4}
    (he : e.checked = Context.checked { d with mode := m }) (hm : isUnrecognised m = false) (hne : m ≠ txData) :
    (s.setDev h e).Inv := by
  have hok : e.Ok s.params := ((hs.ok hd).setMode hm hne).congr he
  obtain ⟨hactive, hnext, hcompleted⟩ := rxSlots_of_checked he
  exact hs.setDev hd hok hactive hnext hcompleted

theorem State.Inv.setBuf {s : State} (hs : s.Inv) {b : Memory} (hwf : Memory.wf b = true)
    (hin : ∀ c ∈ b, c.1 < s.params.nBuf * bufSize) : State.Inv { s with buf := b } :=
  { hs with buf_wf := hwf, buf_inside := hin }

/-- An update of one device and the pool, with the buffers counted one by one. -/
theorem State.Inv.moveBuffers {s t : State} {h : Nat} {d e : Context} (hs : s.Inv) (hd : s.devs[h]? = some d)
    (hdevs : t.devs = s.devs.set h e) (hfix : t.params = s.params ∧ t.buf = s.buf ∧ t.inputs = s.inputs)
    (hok : (∀ k ∈ e.slots, k < s.params.nBuf) → e.Ok s.params)
    (hcount : ∀ k, e.slots.count k + t.poolFree.count k ≤ d.slots.count k + s.poolFree.count k) : t.Inv := by
  obtain ⟨hp, hb, hi⟩ := hfix
  refine hs.update hd hdevs hp hok ?_ (hb ▸ hs.buf_wf) (hb ▸ hs.buf_inside) (hi ▸ hs.inputs_ok)
  exact List.subperm_ext_iff.mpr fun k _ => by simpa only [List.count_append] using hcount k

theorem slots_count (d : Context) (k : Nat) :
    d.slots.count k = d.rxActive.toList.count k + d.rxNext.toList.count k + d.rxCompleted.toList.count k := by
  rw [slots_eq, List.count_append, List.count_append, Nat.add_assoc]

theorem poolTaken_count (s : State) (k : Nat) :
    s.poolAnswer.toList.count k + s.poolTaken.poolFree.count k = s.poolFree.count k := by
  rw [← List.count_append]; exact s.poolTaken_perm.count_eq k

theorem insertBuffer_count (j : Nat) (l : List Nat) (k : Nat) :
    (insertBuffer j l).count k = [j].count k + l.count k := by
  rw [← List.count_append]; exact (insertBuffer_perm j l).count_eq k

/-! ## Results -/

/-- A next state, where the result has one, meets the invariant. -/
def KeepsInv (r : Res) : Prop := ∀ t, r = .next t → t.Inv

@[simp] theorem keepsInv_next {t : State} : KeepsInv (.next t) ↔ t.Inv :=
  ⟨fun h => h t rfl, fun h u hu => by cases hu; exact h⟩

theorem KeepsInv.bindRes {r : Res} {f : State → Res} (hr : KeepsInv r) (hf : ∀ u : State, u.Inv → KeepsInv (f u)) :
    KeepsInv (bindRes r f) := by
  intro t ht
  obtain ⟨u, hu, ht⟩ := bindRes_eq_next.mp ht
  exact hf u (hr u hu) t ht

theorem onEvent_keepsInv {hnd : U8} {s : State} (hs : s.Inv) {rule : Nat → Context → Res}
    (hrule : ∀ d, s.devs[hnd.toNat]? = some d → KeepsInv (rule hnd.toNat d)) : KeepsInv (onEvent hnd s rule) := by
  intro t ht
  obtain rfl | ⟨d, hd, -, ht⟩ := onEvent_eq_next ht
  · exact hs
  · exact hrule d hd t ht

theorem onCommand_keepsInv {opc hnd : U8} {s : State} (hs : s.Inv) {rule : Nat → Context → Res}
    (hrule : ∀ d, s.devs[hnd.toNat]? = some d → KeepsInv (rule hnd.toNat d)) :
    KeepsInv (onCommand opc hnd s rule) := by
  intro t ht
  obtain ⟨-, rfl⟩ | ⟨d, hd, ht⟩ := onCommand_eq_next ht
  · exact hs.respond _ _ _ _
  · exact hrule d hd t ht

section
variable {s : State} {h : Nat} {d : Context}

/-! ## The link state machine -/

theorem fifoFault_inv (hs : s.Inv) (hd : s.devs[h]? = some d) : (s.setDev h (fifoFault d)).Inv := by
  unfold fifoFault
  split
  · exact hs.setMode hd (m := rxError) rfl rfl (by decide)
  · split
    · exact hs.setMode hd (m := txError) rfl rfl (by decide)
    · exact hs.setDev_of_checked hd rfl

theorem rxarm_inv (hs : s.Inv) (hd : s.devs[h]? = some d) : (s.setDev h (rxarm s.params d)).Inv :=
  hs.setDev hd (hs.ok hd).rxarm (rxarm_rxActive _ _) (rxarm_rxNext _ _) (rxarm_rxCompleted _ _)

/-! ## The RX pipeline -/

theorem rxDrain_keepsInv (hs : s.Inv) (hd : s.devs[h]? = some d) : KeepsInv (rxDrain h d s) := by
  intro t ht
  have hok := hs.ok hd
  obtain ⟨-, rfl⟩ | ⟨hfit, k, -, hk, rfl⟩ := rxDrain_eq_next ht
  · exact hs.setMode hd (m := rxError) rfl rfl (by decide)
  · obtain ⟨hle, -⟩ := drainFails_false hfit
    have hlen := (d.peekByte h).isLt
    have hdev : (s.setDev h { (d.regRead h .rxlen).burstRead h .fifo s.params.rxWm with
        rxWr := BitVec.ofNat 9 (d.rxWr.toNat + s.params.rxWm) }).Inv := by
      refine hs.setDev hd ((hok.setRxWr ?_).congr rfl) rfl rfl rfl
      simp only [BitVec.toNat_ofNat, Config.maxLen]
      omega
    refine hdev.setBuf (Memory.wf_writeList _ hs.buf_wf _) (Memory.inside_writeList _ hs.buf_inside ?_)
    rw [Context.peek_length]
    exact dataAddr_add_le hk (by simp only [Config.bufCap, Config.maxLen, Config.metaLen]; omega)

theorem finishBuffer_wf {m : Memory} (hm : Memory.wf m = true) (k wr len : Nat) (bytes : List U8) (rssi afc : U8) :
    Memory.wf (finishBuffer m k wr len bytes rssi afc) = true :=
  Memory.wf_writeList _ (Memory.wf_write (Memory.wf_writeList _ hm _) _ _) _

/-- The bytes packet valid stores lie in the active buffer (spec/41_rx_pipeline.md R168). -/
theorem finishBuffer_inside {m : Memory} {n k wr len : Nat} (hm : ∀ c ∈ m, c.1 < n * bufSize) (hk : k < n)
    {bytes : List U8} (hfit : wr + bytes.length ≤ len) (hlen : len ≤ Config.maxLen) (rssi afc : U8) :
    ∀ c ∈ finishBuffer m k wr len bytes rssi afc, c.1 < n * bufSize := by
  have hdata : dataAddr k wr + bytes.length ≤ n * bufSize :=
    dataAddr_add_le hk (by simp only [Config.bufCap]; omega)
  have hmeta : dataAddr k len + [rssi, afc].length ≤ n * bufSize :=
    dataAddr_add_le hk (by simpa [Config.bufCap, Config.metaLen] using hlen)
  exact Memory.inside_writeList _ (Memory.inside_write (Memory.inside_writeList _ hm hdata) (lenAddr_lt hk)) hmeta

/-- The slot rotation at the end of a packet (spec/41_rx_pipeline.md R167), after transfers that left `d` as `e`. -/
theorem State.Inv.completeRx (hs : s.Inv) (hd : s.devs[h]? = some d) {e : Context} (he : e.checked = d.checked) :
    (s.setDev h ({ promoteOrDiscard e with mode := rxComplete }.signalLink)).Inv := by
  have hok : (promoteOrDiscard e).Ok s.params := ((hs.ok hd).congr he).promoteOrDiscard
  refine hs.moveBuffers hd rfl ⟨rfl, rfl, rfl⟩ (fun _ => (hok.setMode (m := rxComplete) rfl (by decide)).congr rfl)
    fun k => Nat.add_le_add_right ?_ _
  rw [← slots_of_checked he]
  exact ((promoteOrDiscard_slots_perm e).count_eq k).le

theorem rxFinish_keepsInv (hs : s.Inv) (hd : s.devs[h]? = some d) : KeepsInv (rxFinish h d s) := by
  intro t ht
  obtain ⟨-, rfl⟩ | ⟨hle, k, -, hk, rfl⟩ := rxFinish_eq_next ht
  · exact hs.setMode hd (m := rxError) rfl rfl (by decide)
  · have hlen := (d.peekByte h).isLt
    refine State.Inv.setBuf (s := s.setDev h _) (hs.completeRx hd ?_) (finishBuffer_wf hs.buf_wf _ _ _ _ _ _)
      (finishBuffer_inside hs.buf_inside hk ?_ ?_ _ _)
    · rfl
    · rw [Context.peek_length]; omega
    · simp only [Config.maxLen]; omega

/-! ## The TX pipeline -/

theorem txstart_keepsInv (hs : s.Inv) (hd : s.devs[h]? = some d) : KeepsInv (txstart h d s) := by
  intro t ht
  obtain ⟨k, hq, -, rfl⟩ := txstart_eq_next ht
  exact hs.setDev hd (((hs.ok hd).startTx hq _ (Nat.min_le_left _ _)).congr rfl) rfl rfl rfl

theorem txAlmostEmpty_keepsInv (hs : s.Inv) (hd : s.devs[h]? = some d) (hm : d.mode = txData) :
    KeepsInv (txAlmostEmpty h d s) := by
  intro t ht
  obtain ⟨-, rfl⟩ | ⟨-, k, -, -, rfl⟩ := txAlmostEmpty_eq_next ht
  · exact hs
  · obtain ⟨-, hrd⟩ := (hs.ok hd).tx_in_flight hm
    have hwr := (hs.ok hd).txWr_le
    refine hs.setDev hd (((hs.ok hd).setTxRd ?_).congr rfl) rfl rfl rfl
    simp only [BitVec.toNat_ofNat, Config.maxLen] at hwr ⊢
    omega

/-! ## PHY commands -/

theorem applyPhyOps_checked (d : Context) (ops : List PhyOp) : (applyPhyOps d ops).checked = d.checked := by
  rw [applyPhyOps_frame]; rfl

/-- A PHY command from `e`, which differs from the state's Device Context in nothing the invariant reads. -/
theorem runPhy_inv (hs : s.Inv) (hd : s.devs[h]? = some d) {e : Context} (he : e.checked = d.checked) (job : PhyJob) :
    (runPhy h job e s).Inv := by
  have hops : ∀ {x : Context} (ops : List PhyOp), x.checked = e.checked → (applyPhyOps x ops).checked = d.checked :=
    fun ops hx => ((applyPhyOps_checked _ ops).trans hx).trans he
  unfold runPhy
  split
  · exact (hs.setDev_of_checked hd (hops _ rfl)).respond _ _ _ _
  · rename_i n rest _
    have hpreempted : Context.checked { e with preempts := rest } = e.checked := rfl
    split
    · exact (hs.setDev_of_checked hd (hops _ hpreempted)).respond _ _ _ _
    · exact hs.setDev_of_checked hd (hops _ hpreempted)

theorem resumePhy_inv (hs : s.Inv) (hd : s.devs[h]? = some d) (j : Nat) : (resumePhy h j d s).Inv := by
  unfold resumePhy
  split
  · exact hs
  · exact runPhy_inv hs hd (e := { d with phyJobs := d.phyJobs.eraseIdx j }) rfl _

/-! ## Bring-up -/

theorem bringup_setDev (h : Nat) (d e : Context) (s : State) : bringup h d (s.setDev h e) = bringup h d s := by
  have hbuffer : bringupBuffer d (s.setDev h e) = bringupBuffer d s := rfl
  have hpool : bringupPool d (s.setDev h e) = (bringupPool d s).setDev h e := by
    unfold bringupPool
    split <;> rfl
  unfold bringup
  simp only [hbuffer, hpool, State.setDev_setDev, State.setDev_params, State.setDev_serial]

/-- R206 step 6 puts a buffer from the pool into `rx_active`, or leaves both. -/
theorem bringupBuffer_count (d : Context) (s : State) (k : Nat) :
    (bringupBuffer d s).toList.count k + (bringupPool d s).poolFree.count k =
      d.rxActive.toList.count k + s.poolFree.count k := by
  unfold bringupBuffer bringupPool
  split
  case isTrue hnone => rw [poolTaken_count, hnone]; simp
  case isFalse => rfl

theorem rxActive_eq_none_of_bringupBuffer (hb : bringupBuffer d s = none) : d.rxActive = none := by
  unfold bringupBuffer at hb
  split at hb
  · assumption
  · exact hb

theorem bringupPool_frame (d : Context) (s : State) :
    (bringupPool d s).devs = s.devs ∧ (bringupPool d s).params = s.params ∧ (bringupPool d s).buf = s.buf ∧
      (bringupPool d s).inputs = s.inputs := by
  unfold bringupPool
  split <;> exact ⟨rfl, rfl, rfl, rfl⟩

/-- A device that takes R206 step 6's buffer and keeps its two other slots. -/
theorem State.Inv.bringupPool_setDev (hs : s.Inv) (hd : s.devs[h]? = some d) {e : Context}
    (hactive : e.rxActive = bringupBuffer d s) (hnext : e.rxNext = d.rxNext) (hcompleted : e.rxCompleted = d.rxCompleted)
    (hok : (∀ k ∈ e.slots, k < s.params.nBuf) → e.Ok s.params) : ((bringupPool d s).setDev h e).Inv := by
  obtain ⟨hdevs, hrest⟩ := bringupPool_frame d s
  refine hs.moveBuffers hd (by rw [State.setDev_devs, hdevs]) hrest hok fun k => ?_
  have hcount := bringupBuffer_count d s k
  rw [State.setDev_poolFree, slots_count, slots_count, hactive, hnext, hcompleted]
  omega

theorem bringupProbed_checked (p : Params) (h : Nat) (d : Context) :
    (bringupProbed p h d).checked = Context.checked { d with initialized := false } := rfl

/-- What R206 steps 7 to 18 make of the registers the invariant reads. -/
theorem bringupProgram_checked (p : Params) (id : U32) (active : Option Nat) (d : Context) :
    (bringupProgram p id active d).checked = Context.checked { d with
      rxActive := active, txq := none, txPkt := none, txRd := 0#9, txWr := 0#9, txtimeoutReq := false
      rxWr := 0#9, mode := rxWaitPreamble, initialized := true } := by
  unfold bringupProgram
  dsimp only
  rw [applyPhyOps_frame]
  rfl

theorem Context.Ok.bringupProgram {p : Params} {active : Option Nat} (id : U32) (ha : active ≠ none)
    (hs : ∀ k ∈ (bringupProgram p id active d).slots, k < p.nBuf) : (bringupProgram p id active d).Ok p := by
  rw [slots_of_checked (bringupProgram_checked p id active d)] at hs
  refine Context.Ok.congr ?_ (bringupProgram_checked p id active d)
  exact {
    mode_recognised := rfl
    active_of_initialized := fun _ => ha
    rxWr_le := Nat.zero_le _
    tx_in_flight := fun hm => absurd (show rxWaitPreamble = txData from hm) (by decide)
    txWr_le := Nat.zero_le _
    slots_lt := hs
    txq_lt := fun _ hq => nomatch hq
    txPkt_lt := fun _ hq => nomatch hq
    no_timeout := rfl }

/-- BRINGUP keeps the invariant, whatever its status (spec/43_bridge_api.md R206). -/
theorem bringup_inv (hs : s.Inv) (hd : s.devs[h]? = some d) : (bringup h d s).2.Inv := by
  have hprobed : (bringupProbed s.params h d).Ok s.params :=
    (hs.ok hd).uninitialize.congr (bringupProbed_checked s.params h d)
  unfold bringup
  dsimp only
  split_ifs with hsilicon hrange hbuffer
  · exact hs.setDev hd hprobed rfl rfl rfl
  · exact hs.setDev hd hprobed rfl rfl rfl
  · refine hs.bringupPool_setDev hd ?_ rfl rfl fun _ => hprobed
    rw [hbuffer]
    exact rxActive_eq_none_of_bringupBuffer hbuffer
  · obtain ⟨hactive, hnext, hcompleted⟩ := rxSlots_of_checked (bringupProgram_checked s.params
      (Config.hash32 s.serial) (bringupBuffer d s) (bringupProbed s.params h d))
    exact hs.bringupPool_setDev hd hactive hnext hcompleted (Context.Ok.bringupProgram _ hbuffer)

/-! ## INIT and FORCE_RESET -/

theorem recyclePool_frame (d : Context) (s : State) :
    (recyclePool d s).devs = s.devs ∧ (recyclePool d s).params = s.params ∧ (recyclePool d s).buf = s.buf ∧
      (recyclePool d s).inputs = s.inputs := by
  unfold recyclePool
  split
  · split <;> exact ⟨rfl, rfl, rfl, rfl⟩
  · exact ⟨rfl, rfl, rfl, rfl⟩

/-- FORCE_RESET step 2 moves the completed buffer, if any, to the spare slot or to the pool (R219). -/
theorem recycle_count (d : Context) (s : State) (k : Nat) :
    (recycleSlots d).slots.count k + (recyclePool d s).poolFree.count k = d.slots.count k + s.poolFree.count k := by
  rw [slots_count, slots_count]
  unfold recyclePool recycleSlots
  cases hc : d.rxCompleted with
  | none => simp
  | some j =>
    cases hn : d.rxNext with
    | none => simp
    | some i => simp [insertBuffer_count]; omega

/-- FORCE_RESET steps 1 and 2: the count, the slots and the pool (R219). -/
theorem recycle_inv (hs : s.Inv) (hd : s.devs[h]? = some d) (count : U16) :
    ((recyclePool d s).setDev h (recycleSlots { d with resetCount := count })).Inv := by
  obtain ⟨hdevs, hrest⟩ := recyclePool_frame d s
  have hok := hs.ok hd
  exact hs.moveBuffers (e := recycleSlots { d with resetCount := count }) hd (by rw [State.setDev_devs, hdevs]) hrest
    (fun hlt => (hok.setSlots hok.active_of_initialized hlt).congr rfl) fun k => (recycle_count d s k).le

theorem wakeStranded_inv (hs : s.Inv) (was : Bool) : (wakeStranded h was s).Inv := by
  unfold wakeStranded
  split
  · exact hs
  · rename_i d hd
    split
    · exact hs.setDev_of_checked hd rfl
    · exact hs

theorem execInit_keepsInv (hs : s.Inv) (hnd : U8) : KeepsInv (execInit hnd s) := by
  refine onCommand_keepsInv hs fun d hd => keepsInv_next.mpr ?_
  split
  · exact hs.respond _ _ _ _
  · rw [← bringup_setDev _ _ (initContext s.settings d) s]
    have hconfigured : (s.setDev hnd.toNat (initContext s.settings d)).Inv := hs.setDev_of_checked hd rfl
    exact (bringup_inv hconfigured (State.setDev_get_same s _ d _ hd)).respond _ _ _ _

theorem execForceReset_keepsInv (hs : s.Inv) (hnd : U8) : KeepsInv (execForceReset hnd s) := by
  refine onCommand_keepsInv hs fun d hd => keepsInv_next.mpr ?_
  rw [← bringup_setDev _ _ (recycleSlots { d with resetCount := d.resetCount + 1#16 })]
  have hslot := State.setDev_get_same (recyclePool d s) hnd.toNat d
    (recycleSlots { d with resetCount := d.resetCount + 1#16 }) ((recyclePool_frame d s).1 ▸ hd)
  exact (wakeStranded_inv (bringup_inv (recycle_inv hs hd _) hslot) _).respond _ _ _ _

/-! ## SEND, RECEIVE and the other commands -/

/-- A packet operand that is accepted names a buffer (spec/30_encoding.md R92). -/
theorem packetOperand_lt {p : Params} {a : U32} {k : Nat} (hk : packetOperand p a = some k) : k < p.nBuf := by
  unfold packetOperand at hk
  split at hk
  · cases hk
  · split at hk
    · cases hk; assumption
    · cases hk

theorem execSend_keepsInv (hs : s.Inv) (hnd : U8) (packet timeoutMs : U32) :
    KeepsInv (execSend hnd packet timeoutMs s) := by
  refine onCommand_keepsInv hs fun d hd => keepsInv_next.mpr ?_
  split
  · exact hs.respond _ _ _ _
  · rename_i k hk
    split_ifs
    · exact hs.respond _ _ _ _
    · exact hs.respond _ _ _ _
    · refine hs.setDev hd (((hs.ok hd).setTxq (q := some k) fun j hj => ?_).congr rfl) rfl rfl rfl
      cases hj
      exact packetOperand_lt hk

theorem execReceive_keepsInv (hs : s.Inv) (hnd : U8) (timeoutMs : U32) : KeepsInv (execReceive hnd timeoutMs s) := by
  refine onCommand_keepsInv hs fun d hd => keepsInv_next.mpr ?_
  split_ifs with hinit hwait hnext
  · exact hs.respond _ _ _ _
  · exact hs.respond _ _ _ _
  · refine hs.moveBuffers hd rfl ⟨rfl, rfl, rfl⟩
      (fun hlt => ((hs.ok hd).setSlots (hs.ok hd).active_of_initialized hlt).congr rfl) fun k => ?_
    have hcount := poolTaken_count s k
    rw [State.setDev_poolFree, slots_count, slots_count, hnext]
    dsimp only
    omega
  · exact hs.setDev_of_checked hd rfl

/-- SET_DATARATE, SET_CARRIER, SET_TXPOWER: refused, or run as a PHY command. -/
theorem phyCommand_keepsInv (hs : s.Inv) (opc hnd : U8) (job : Context → PhyJob) :
    KeepsInv (onCommand opc hnd s fun h d =>
      .next (if d.initialized then runPhy h (job d) d s else s.respond opc hnd .errNotInit 0#32)) := by
  refine onCommand_keepsInv hs fun d hd => keepsInv_next.mpr ?_
  split
  · exact runPhy_inv hs hd rfl _
  · exact hs.respond _ _ _ _

/-- GET_DEVICE_ID, GET_RSSI, GET_RESET_COUNT, GET_CARRIER: an answer and nothing else. -/
theorem readout_keepsInv (hs : s.Inv) (opc hnd : U8) (value : Context → U32) :
    KeepsInv (onCommand opc hnd s fun _ d => .next (s.respond opc hnd .ok (value d))) :=
  onCommand_keepsInv hs fun _ _ => keepsInv_next.mpr (hs.respond _ _ _ _)

/-! ## Events -/

/-- EV_FFOVFL and EV_FFUNFL. -/
theorem fifoFault_keepsInv (hs : s.Inv) (hnd : U8) :
    KeepsInv (onEvent hnd s fun h d => .next (s.setDev h (fifoFault d))) :=
  onEvent_keepsInv hs fun _ hd => keepsInv_next.mpr (fifoFault_inv hs hd)

/-- EV_PREAVAL, EV_SWDET, EV_PKSENT: in one mode only, to a mode `m'` that is not TX_DATA. -/
theorem modeEvent_keepsInv (hs : s.Inv) (hnd : U8) {m m' : BitVec 4} {f : Nat → Context → Context}
    (hf : ∀ h d, (f h d).checked = Context.checked { d with mode := m' }) (hm : isUnrecognised m' = false)
    (hne : m' ≠ txData) :
    KeepsInv (onEvent hnd s fun h d => .next (if d.mode = m then s.setDev h (f h d) else s)) := by
  refine onEvent_keepsInv hs fun d hd => keepsInv_next.mpr ?_
  split
  · exact hs.setMode hd (hf _ d) hm hne
  · exact hs

theorem execEvRxffafull_keepsInv (hs : s.Inv) (hnd : U8) : KeepsInv (execEvRxffafull hnd s) := by
  refine onEvent_keepsInv hs fun d hd => ?_
  split_ifs
  · exact keepsInv_next.mpr (hs.setDev_of_checked hd rfl)
  · exact rxDrain_keepsInv hs hd
  · exact keepsInv_next.mpr hs

theorem execEvTxffaem_keepsInv (hs : s.Inv) (hnd : U8) : KeepsInv (execEvTxffaem hnd s) := by
  refine onEvent_keepsInv hs fun d hd => ?_
  split
  case isTrue hm => exact txAlmostEmpty_keepsInv hs hd hm
  case isFalse => exact keepsInv_next.mpr hs

theorem execEvPkvalid_keepsInv (hs : s.Inv) (hnd : U8) : KeepsInv (execEvPkvalid hnd s) := by
  refine onEvent_keepsInv hs fun d hd => ?_
  split
  · exact rxFinish_keepsInv hs hd
  · exact keepsInv_next.mpr hs

/-- What EV_POR leaves of a device (spec/40_link_state_machine.md R124). -/
theorem powerOnReset_inv (hs : s.Inv) (hd : s.devs[h]? = some d) :
    (s.setDev h { d with initialized := false, txtimeoutReq := false }).Inv :=
  hs.setDev hd { (hs.ok hd).uninitialize with no_timeout := rfl } rfl rfl rfl

theorem execEvPor_keepsInv (hs : s.Inv) (hnd : U8) : KeepsInv (execEvPor hnd s) :=
  onEvent_keepsInv hs fun _ hd => keepsInv_next.mpr (powerOnReset_inv hs hd)

/-! ## Every instruction -/

theorem exec_keepsInv (hs : s.Inv) (i : Instr) : KeepsInv (exec i s) := by
  cases i with
  | init hnd => exact execInit_keepsInv hs hnd
  | send hnd packet timeoutMs => exact execSend_keepsInv hs hnd packet timeoutMs
  | receive hnd timeoutMs => exact execReceive_keepsInv hs hnd timeoutMs
  | getDeviceId hnd => exact readout_keepsInv hs _ hnd fun d => d.cfg.deviceId
  | getRssi hnd => exact readout_keepsInv hs _ hnd fun d => sext32 d.rssiLast
  | getResetCount hnd => exact readout_keepsInv hs _ hnd fun d => zext32 d.resetCount
  | getCarrier hnd => exact readout_keepsInv hs _ hnd fun d => regsToFreq s.params d.phy.band d.phy.chan
  | setDatarate hnd bps =>
    exact phyCommand_keepsInv hs _ hnd fun _ => ⟨0x10#8, hnd, datarateValue s.params bps, datarateOps s.params bps⟩
  | setCarrier hnd hz =>
    exact phyCommand_keepsInv hs _ hnd fun d => ⟨0x11#8, hnd, carrierValue d.cfg hz, carrierOps s.params d.cfg hz⟩
  | setTxpower hnd level =>
    exact phyCommand_keepsInv hs _ hnd fun _ =>
      ⟨0x13#8, hnd, (saturateLevel level).zeroExtend 32, txpowerOps s.params level⟩
  | forceReset hnd => exact execForceReset_keepsInv hs hnd
  | evFfovfl hnd | evFfunfl hnd => exact fifoFault_keepsInv hs hnd
  | evPreaval hnd =>
    exact modeEvent_keepsInv hs hnd (m := rxWaitPreamble) (m' := rxWaitSync)
      (f := fun _ d => { d with mode := rxWaitSync }) (fun _ _ => rfl) rfl (by decide)
  | evSwdet hnd =>
    exact modeEvent_keepsInv hs hnd (m := rxWaitSync) (m' := rxData)
      (f := fun h d => { latch s.params h d with mode := rxData }) (fun _ _ => rfl) rfl (by decide)
  | evRxffafull hnd => exact execEvRxffafull_keepsInv hs hnd
  | evTxffaem hnd => exact execEvTxffaem_keepsInv hs hnd
  | evPkvalid hnd => exact execEvPkvalid_keepsInv hs hnd
  | evPksent hnd =>
    exact modeEvent_keepsInv hs hnd (m := txData) (m' := txComplete)
      (f := fun _ d => { d with mode := txComplete }.signalLink) (fun _ _ => rfl) rfl (by decide)
  | evPor hnd => exact execEvPor_keepsInv hs hnd

/-! ## The dispatcher -/

theorem runEvents_keepsInv (l : List Instr) (hs : s.Inv) : KeepsInv (runEvents l s) := by
  induction l generalizing s with
  | nil => exact keepsInv_next.mpr hs
  | cons i l ih => exact (exec_keepsInv hs i).bindRes fun _ hu => ih hu

theorem dispatchByMode_setDev (hnd : U8) (d e : Context) (s : State) :
    dispatchByMode hnd d (s.setDev hnd.toNat e) = dispatchByMode hnd d s := by
  unfold dispatchByMode
  simp only [State.setDev_setDev, State.setDev_params]

/-- DISPATCH after the burst, with a timeout request or without one: `s` holds the device with the request taken off. -/
theorem dispatchByMode_keepsInv {hnd : U8} {e : Context} (hs : s.Inv)
    (hd : s.devs[hnd.toNat]? = some { e with txtimeoutReq := false }) (hi : e.initialized = true) :
    KeepsInv (dispatchByMode hnd e s) := by
  unfold dispatchByMode
  dsimp only
  split_ifs with hpor
  · have hrun : runEvents (decodeStatus hnd e.status) (s.setDev hnd.toNat e) =
        .next (s.setDev hnd.toNat { e with initialized := false, txtimeoutReq := false }) := by
      rw [decodeStatus, if_pos hpor]
      simp only [runEvents, exec, execEvPor]
      rw [onEvent_initialized (State.setDev_get_same s _ _ e hd) hi, State.setDev_setDev]
      rfl
    rw [hrun]
    exact keepsInv_next.mpr (powerOnReset_inv (d := { e with txtimeoutReq := false }) hs hd)
  · exact keepsInv_next.mpr (rxarm_inv hs hd)
  · exact keepsInv_next.mpr (hs.setMode hd (m := txError) rfl rfl (by decide))
  · exact runEvents_keepsInv _ (hs.setDev_of_checked hd rfl)

/-- An interrupt of a device that is `d` but for a timeout request: SEND_ABORT raises the request and starts the
dispatcher in the same unit (spec/40_link_state_machine.md R136). -/
theorem dispatch_keepsInv {hnd : U8} (hs : s.Inv) (hd : s.devs[hnd.toNat]? = some d) {e : Context}
    (he : Context.checked { e with txtimeoutReq := false } = d.checked) (dev is1 is2 : U8) :
    KeepsInv (dispatch hnd dev is1 is2 (s.setDev hnd.toNat e)) := by
  unfold dispatch
  rw [State.setDev_get_same s _ d e hd]
  dsimp only
  split
  · rw [State.setDev_setDev]
    exact keepsInv_next.mpr (hs.setDev_of_checked hd he)
  · rename_i hi
    rw [dispatchByMode_setDev, ← dispatchByMode_setDev hnd _
      { e.enterDispatcher dev is1 is2 with txtimeoutReq := false }]
    have hentered : (s.setDev hnd.toNat { e.enterDispatcher dev is1 is2 with txtimeoutReq := false }).Inv :=
      hs.setDev_of_checked hd he
    exact (dispatchByMode_keepsInv hentered (State.setDev_get_same s _ d _ hd) (by simpa using hi)).bindRes
      fun _ hu => keepsInv_next.mpr hu

theorem dispatchOwn_keepsInv {hnd : U8} (hs : s.Inv) (hd : s.devs[hnd.toNat]? = some d) {e : Context}
    (he : Context.checked { e with txtimeoutReq := false } = d.checked) :
    KeepsInv (dispatchOwn hnd (s.setDev hnd.toNat e)) := by
  unfold dispatchOwn
  rw [State.setDev_get_same s _ d e hd]
  dsimp only
  rw [State.setDev_setDev]
  split
  · exact keepsInv_next.mpr (hs.setDev_of_checked hd he)
  · rw [State.setDev_setDev]
    exact dispatch_keepsInv (e := e.drop 3) hs hd he _ _ _

/-- No timeout request is left over between two units, so taking it off changes nothing (R136). -/
theorem Context.Ok.checked_clearRequest {p : Params} (hd : d.Ok p) :
    Context.checked { d with txtimeoutReq := false } = d.checked := by
  simp only [Context.checked, hd.no_timeout]

/-! ## The agents -/

theorem sendAbort_keepsInv {hnd : U8} (hs : s.Inv) (hd : s.devs[hnd.toNat]? = some d) :
    KeepsInv (sendAbort hnd d s) := by
  unfold sendAbort
  split_ifs
  · exact keepsInv_next.mpr (hs.setDev hd ((hs.ok hd).setTxq fun _ hq => nomatch hq) rfl rfl rfl)
  · exact dispatchOwn_keepsInv hs hd (hs.ok hd).checked_clearRequest
  · exact keepsInv_next.mpr hs

theorem endSend_inv (hs : s.Inv) (h : Nat) : (endSend h s).Inv := by
  unfold endSend
  split
  · exact hs
  · rename_i d hd
    exact hs.setDev_of_checked hd rfl

theorem sendComplete_keepsInv {hnd : U8} (hs : s.Inv) (hd : s.devs[hnd.toNat]? = some d) :
    KeepsInv (sendComplete hnd d s) := by
  unfold sendComplete
  dsimp only
  split
  · exact keepsInv_next.mpr hs
  · split
    · have htaken : (s.setDev hnd.toNat d.takeTxdone).Inv := hs.setDev_of_checked hd rfl
      exact keepsInv_next.mpr ((endSend_inv htaken _).respond _ _ _ _)
    · split
      · exact (sendAbort_keepsInv hs hd).bindRes fun _ hu => keepsInv_next.mpr ((endSend_inv hu _).respond _ _ _ _)
      · exact keepsInv_next.mpr hs

theorem txstart_setDev (h : Nat) (d e : Context) (s : State) : txstart h d (s.setDev h e) = txstart h d s := by
  unfold txstart
  simp only [State.setDev_setDev, State.setDev_params, State.setDev_buf]

theorem wakeNext_setDev (h : Nat) (d e : Context) (s : State) : wakeNext h d (s.setDev h e) = wakeNext h d s := by
  unfold wakeNext
  rw [txstart_setDev, State.setDev_setDev, State.setDev_params]

theorem wakeNext_keepsInv (hs : s.Inv) (hd : s.devs[h]? = some d) : KeepsInv (wakeNext h d s) := by
  intro t ht
  obtain ⟨-, rfl⟩ | ⟨-, ht⟩ := wakeNext_eq_next ht
  · exact rxarm_inv hs hd
  · exact txstart_keepsInv hs hd t ht

/-- WAKE's branch, from `e` that differs from the state's Device Context in nothing the invariant reads. -/
theorem wakeDeliver_inv (hs : s.Inv) (hd : s.devs[h]? = some d) {e : Context} (he : e.checked = d.checked) :
    (s.setDev h { wakeDeliver e with recvWait := false }).Inv := by
  have hok : (wakeDeliver e).Ok s.params := ((hs.ok hd).congr he).wakeDeliver
  refine hs.moveBuffers hd rfl ⟨rfl, rfl, rfl⟩ (fun _ => hok.congr rfl) fun k => Nat.add_le_add_right ?_ _
  rw [← slots_of_checked he]
  exact (wakeDeliver_slots_sublist e).count_le k

theorem receiveWoken_keepsInv (hs : s.Inv) (hd : s.devs[h]? = some d) (hnd : U8) :
    KeepsInv (receiveWoken hnd h d s) := by
  unfold receiveWoken
  split
  · have hwoken : (s.setDev h { d.takeLink with recvWait := false }).Inv := hs.setDev_of_checked hd rfl
    exact keepsInv_next.mpr (hwoken.respond _ _ _ _)
  · rw [← wakeNext_setDev h _ { wakeDeliver d.takeLink with recvWait := false }]
    have hdelivered : (s.setDev h { wakeDeliver d.takeLink with recvWait := false }).Inv := wakeDeliver_inv hs hd rfl
    exact (wakeNext_keepsInv hdelivered (State.setDev_get_same s h d _ hd)).bindRes
      fun _ hu => keepsInv_next.mpr (hu.respond _ _ _ _)

theorem receiveComplete_keepsInv {hnd : U8} (hs : s.Inv) (hd : s.devs[hnd.toNat]? = some d) :
    KeepsInv (receiveComplete hnd d s) := by
  unfold receiveComplete
  split_ifs
  · exact keepsInv_next.mpr hs
  · exact receiveWoken_keepsInv hs hd hnd
  · have hended : (s.setDev hnd.toNat { d with recvWait := false }).Inv := hs.setDev_of_checked hd rfl
    exact keepsInv_next.mpr (hended.respond _ _ _ _)
  · exact keepsInv_next.mpr hs

theorem runAgent_keepsInv (hs : s.Inv) (hnd : U8) (a : Agent) : KeepsInv (runAgent hnd a s) := by
  unfold runAgent
  split
  · exact keepsInv_next.mpr hs
  · rename_i d hd
    cases a with
    | send => exact sendComplete_keepsInv hs hd
    | receive => exact receiveComplete_keepsInv hs hd
    | dispatcher =>
      dsimp only
      rw [(hs.ok hd).no_timeout]
      exact keepsInv_next.mpr hs
    | phy j => exact keepsInv_next.mpr (resumePhy_inv hs hd j)

theorem runOwnAgents_keepsInv (hs : s.Inv) : KeepsInv (runOwnAgents s) := by
  unfold runOwnAgents
  split
  · exact keepsInv_next.mpr hs
  · exact runAgent_keepsInv hs _ _
  · exact runAgent_keepsInv (s := { s with turns := s.turns + 1 }) { hs with } _ _

/-! ## Inputs -/

theorem runFrame_keepsInv (hs : s.Inv) (port : Port) (f : Frame) : KeepsInv (runFrame port f s) := by
  unfold runFrame
  split
  · exact keepsInv_next.mpr (hs.respond _ _ _ _)
  · split
    · exact keepsInv_next.mpr (hs.respond _ _ _ _)
    · exact exec_keepsInv hs _

theorem irq_keepsInv (hs : s.Inv) (hnd dev is1 is2 : U8) : KeepsInv (dispatch hnd dev is1 is2 s) := by
  cases hd : s.devs[hnd.toNat]? with
  | none =>
    unfold dispatch
    rw [hd]
    exact keepsInv_next.mpr hs
  | some d =>
    rw [← State.setDev_self hd]
    exact dispatch_keepsInv hs hd (hs.ok hd).checked_clearRequest dev is1 is2

/-- The tick writes timers only. -/
theorem tick_inv (hs : s.Inv) : State.Inv { s with devs := s.devs.map tickContext } :=
  { hs with
    instances := by simpa using hs.instances
    contexts := fun e he => by
      obtain ⟨d, hd, rfl⟩ := List.mem_map.mp he
      exact (hs.contexts d hd).congr rfl
    buffers_once := by
      rw [List.flatMap_map]
      exact hs.buffers_once }

theorem supervisorRead_inv (hs : s.Inv) (h : Nat) (r : SupReg) : (supervisorRead h r s).Inv := by
  unfold supervisorRead
  split
  · exact hs
  · exact { hs with }

theorem supervisorWrite_inv (hs : s.Inv) (h : Nat) (v : U32) : (supervisorWrite h v s).Inv := by
  unfold supervisorWrite
  split
  · exact hs
  · rename_i d hd
    exact hs.setDev_of_checked hd rfl

theorem hostStore_keepsInv (hs : s.Inv) (k : Nat) (f : BufField) (v : U8) : KeepsInv (hostStore k f v s) := by
  unfold hostStore
  split
  case isTrue hk =>
    exact keepsInv_next.mpr
      (hs.setBuf (Memory.wf_write hs.buf_wf _ _) (Memory.inside_write hs.buf_inside (fieldAddr_lt hk f)))
  case isFalse => exact fun _ ht => nomatch ht

theorem poolTake_inv (hs : s.Inv) (k : Nat) : State.Inv { s with poolFree := s.poolFree.erase k } :=
  { hs with
    buffers_once := hs.buffers_once.sublist ((List.Sublist.refl _).append List.erase_sublist)
    pool_lt := fun j hj => hs.pool_lt j (List.mem_of_mem_erase hj) }

theorem heldBy_iff (k : Nat) (d : Context) : heldBy k d = true ↔ k ∈ d.slots := by
  simp [heldBy, slots_eq, or_assoc]

/-- A returned buffer exists and is in no slot and not in the pool (log 6). -/
theorem poolReturn_inv (hs : s.Inv) {k : Nat} (hk : mayReturn k s = true) : (s.poolRelease k).Inv := by
  simp only [mayReturn, Bool.and_eq_true, decide_eq_true_eq, Bool.not_eq_true', List.contains_eq_mem,
    decide_eq_false_iff_not, List.any_eq_false, heldBy_iff] at hk
  obtain ⟨⟨hlt, hpool⟩, hslots⟩ := hk
  have hperm : (s.devs.flatMap Context.slots ++ insertBuffer k s.poolFree).Perm
      (k :: (s.devs.flatMap Context.slots ++ s.poolFree)) :=
    ((insertBuffer_perm k s.poolFree).append_left _).trans List.perm_middle
  have hfresh : k ∉ s.devs.flatMap Context.slots ++ s.poolFree := by
    simp only [List.mem_append, List.mem_flatMap, not_or, not_exists, not_and]
    exact ⟨hslots, hpool⟩
  exact { hs with
    buffers_once := hperm.nodup_iff.mpr (List.nodup_cons.mpr ⟨hfresh, hs.buffers_once⟩)
    pool_lt := fun j hj => by
      obtain rfl | hj := List.mem_cons.mp ((insertBuffer_perm k s.poolFree).subset hj)
      · exact hlt
      · exact hs.pool_lt j hj }

theorem runInput_keepsInv (hs : s.Inv) (x : Input) : KeepsInv (runInput x s) := by
  cases x with
  | command f => exact runFrame_keepsInv hs .command f
  | supervisor f => exact runFrame_keepsInv hs .supervisor f
  | irq hnd dev is1 is2 => exact irq_keepsInv hs hnd dev is1 is2
  | tick => exact keepsInv_next.mpr (tick_inv hs)
  | resume hnd a => exact runAgent_keepsInv hs hnd a
  | supRead hnd r => exact keepsInv_next.mpr (supervisorRead_inv hs _ r)
  | supWrite hnd v => exact keepsInv_next.mpr (supervisorWrite_inv hs _ v)
  | settings r => exact keepsInv_next.mpr { hs with }
  | bufStore k f v => exact hostStore_keepsInv hs k f v
  | poolTake k => exact keepsInv_next.mpr (poolTake_inv hs k)
  | poolReturn k =>
    refine keepsInv_next.mpr ?_
    split
    case isTrue hk => exact poolReturn_inv hs hk
    case isFalse => exact hs

end

/-! ## One step -/

/-- Settles O53: by the agents' own units and by the inputs, each of which keeps the invariant. -/
theorem stepKeepsInvariant : Obligations.StepKeepsInvariant := by
  intro s t hs ht
  unfold step at ht
  split at ht
  case h_1 => exact runOwnAgents_keepsInv hs t ht
  case h_2 x rest hx => exact runInput_keepsInv (hs.consume hx) x t ht

end Sys2Proof.Machine
end

