-- ==== Sys2Proof/Proofs/Completion.lean ====
section
/-! PROOF. No step from a state that meets the invariant stops (spec/20_memory.md R71, R77). A rule stops only where it
reaches BUF through a reference, so for each of the four references a rule uses (the active RX slot, the queued packet,
the packet in flight, the host's own buffer) the invariant gives a buffer that exists. Everything else answers a next
state by its form. Events of one status word chain: after each the invariant holds again, by `exec_keepsInv`. -/

namespace Sys2Proof.Machine

/-- The result is a next state. -/
def Completes (r : Res) : Prop := ∃ t, r = .next t

theorem completes_next (t : State) : Completes (.next t) := ⟨t, rfl⟩

theorem Completes.bindRes {r : Res} {f : State → Res} (hr : Completes r)
    (hf : ∀ u, r = .next u → Completes (f u)) : Completes (bindRes r f) := by
  obtain ⟨u, rfl⟩ := hr
  exact hf u rfl

theorem onEvent_completes {hnd : U8} {s : State} {rule : Nat → Context → Res}
    (hrule : ∀ d, s.devs[hnd.toNat]? = some d → d.initialized = true → Completes (rule hnd.toNat d)) :
    Completes (onEvent hnd s rule) := by
  unfold onEvent
  split
  · exact completes_next s
  · rename_i d hd
    split
    case isTrue hi => exact hrule d hd hi
    case isFalse => exact completes_next s

theorem onCommand_completes {opc hnd : U8} {s : State} {rule : Nat → Context → Res}
    (hrule : ∀ d, Completes (rule hnd.toNat d)) : Completes (onCommand opc hnd s rule) := by
  unfold onCommand
  split
  · exact completes_next _
  · exact hrule _

/-! ## The references of a Device Context name buffers -/

section
variable {p : Params} {d : Context}

theorem Context.Ok.exists_active (hd : d.Ok p) (hi : d.initialized = true) :
    ∃ k, d.rxActive = some k ∧ k < p.nBuf := by
  obtain ⟨k, hk⟩ := Option.ne_none_iff_exists'.mp (hd.active_of_initialized hi)
  exact ⟨k, hk, hd.slots_lt k (by simp [slots_eq, hk])⟩

theorem Context.Ok.exists_queued (hd : d.Ok p) (hq : d.txq ≠ none) : ∃ k, d.txq = some k ∧ k < p.nBuf := by
  obtain ⟨k, hk⟩ := Option.ne_none_iff_exists'.mp hq
  exact ⟨k, hk, hd.txq_lt k hk⟩

theorem Context.Ok.exists_inFlight (hd : d.Ok p) (hm : d.mode = txData) : ∃ k, d.txPkt = some k ∧ k < p.nBuf := by
  obtain ⟨hpkt, -⟩ := hd.tx_in_flight hm
  obtain ⟨k, hk⟩ := Option.ne_none_iff_exists'.mp hpkt
  exact ⟨k, hk, hd.txPkt_lt k hk⟩

end

section
variable {s : State} {h : Nat} {d : Context}

/-! ## The pipelines' events -/

theorem execEvRxffafull_completes (hs : s.Inv) (hnd : U8) : Completes (execEvRxffafull hnd s) := by
  refine onEvent_completes fun d hd hi => ?_
  split_ifs
  · exact completes_next _
  · obtain ⟨k, hk, hlt⟩ := (hs.ok hd).exists_active hi
    exact rxDrain_completes hk hlt
  · exact completes_next s

theorem execEvPkvalid_completes (hs : s.Inv) (hnd : U8) : Completes (execEvPkvalid hnd s) := by
  refine onEvent_completes fun d hd hi => ?_
  split
  · obtain ⟨k, hk, hlt⟩ := (hs.ok hd).exists_active hi
    exact rxFinish_completes hk hlt
  · exact completes_next s

theorem execEvTxffaem_completes (hs : s.Inv) (hnd : U8) : Completes (execEvTxffaem hnd s) := by
  refine onEvent_completes fun d hd _ => ?_
  split
  case isTrue hm =>
    obtain ⟨k, hk, hlt⟩ := (hs.ok hd).exists_inFlight hm
    exact txAlmostEmpty_completes hk hlt ((hs.ok hd).txWr_le.trans (Nat.le_add_right _ _))
  case isFalse => exact completes_next s

theorem execEvPor_completes (hnd : U8) (s : State) : Completes (execEvPor hnd s) :=
  onEvent_completes fun _ _ _ => completes_next _

/-! ## Every instruction -/

theorem exec_completes (hs : s.Inv) (i : Instr) : Completes (exec i s) := by
  cases i with
  | init | send | receive | getDeviceId | getRssi | getResetCount | setDatarate | setCarrier | getCarrier | setTxpower
  | forceReset =>
    simp only [exec, execInit, execSend, execReceive, execGetDeviceId, execGetRssi, execGetResetCount, execSetDatarate,
      execSetCarrier, execGetCarrier, execSetTxpower, execForceReset]
    exact onCommand_completes fun _ => completes_next _
  | evFfovfl | evFfunfl | evPreaval | evSwdet | evPksent =>
    simp only [exec, execEvFfovfl, execEvFfunfl, execEvPreaval, execEvSwdet, execEvPksent]
    exact onEvent_completes fun _ _ _ => completes_next _
  | evRxffafull hnd => exact execEvRxffafull_completes hs hnd
  | evTxffaem hnd => exact execEvTxffaem_completes hs hnd
  | evPkvalid hnd => exact execEvPkvalid_completes hs hnd
  | evPor hnd => exact execEvPor_completes hnd s

/-! ## The dispatcher -/

theorem runEvents_completes (l : List Instr) (hs : s.Inv) : Completes (runEvents l s) := by
  induction l generalizing s with
  | nil => exact completes_next s
  | cons i l ih => exact (exec_completes hs i).bindRes fun u hu => ih (exec_keepsInv hs i u hu)

/-- Where the invariant holds with `d` stored in place `h`, it holds with any `e` there that differs from `d` in nothing
the invariant reads. -/
theorem State.Inv.replaceDev {e : Context} (hs : (s.setDev h d).Inv) (hlt : h < s.devs.length)
    (he : e.checked = d.checked) : (s.setDev h e).Inv := by
  have hd : (s.setDev h d).devs[h]? = some d := by simp [hlt]
  simpa using hs.setDev_of_checked hd he

/-- DISPATCH after the burst. The invariant holds but for a timeout request that SEND_ABORT may just have raised
(spec/40_link_state_machine.md R136); the power-on-reset branch, the only one that keeps it, runs no other event. -/
theorem dispatchByMode_completes {hnd : U8} (hs : (s.setDev hnd.toNat { d with txtimeoutReq := false }).Inv) :
    Completes (dispatchByMode hnd d s) := by
  unfold dispatchByMode
  dsimp only
  split_ifs with hpor
  · rw [decodeStatus, if_pos hpor]
    exact (execEvPor_completes hnd _).bindRes fun u _ => completes_next u
  · exact completes_next _
  · exact completes_next _
  · exact runEvents_completes _ hs

theorem dispatch_completes {hnd : U8} (hd : s.devs[hnd.toNat]? = some d)
    (hs : (s.setDev hnd.toNat { d with txtimeoutReq := false }).Inv) (dev is1 is2 : U8) :
    Completes (dispatch hnd dev is1 is2 s) := by
  obtain ⟨hlt, -⟩ := List.getElem?_eq_some_iff.mp hd
  unfold dispatch
  rw [hd]
  dsimp only
  split
  · exact completes_next _
  · have hentered : (s.setDev hnd.toNat { d.enterDispatcher dev is1 is2 with txtimeoutReq := false }).Inv :=
      hs.replaceDev hlt rfl
    exact (dispatchByMode_completes hentered).bindRes fun u _ => completes_next u

theorem dispatchOwn_completes {hnd : U8} (hd : s.devs[hnd.toNat]? = some d)
    (hs : (s.setDev hnd.toNat { d with txtimeoutReq := false }).Inv) : Completes (dispatchOwn hnd s) := by
  obtain ⟨hlt, -⟩ := List.getElem?_eq_some_iff.mp hd
  unfold dispatchOwn
  rw [hd]
  dsimp only
  split
  · exact completes_next _
  · refine dispatch_completes (State.setDev_get_same s _ d (d.drop 3) hd) ?_ _ _ _
    rw [State.setDev_setDev]
    exact hs.replaceDev hlt rfl

/-- An interrupt: between two units no timeout request is left over. -/
theorem irq_completes (hs : s.Inv) (hnd dev is1 is2 : U8) : Completes (dispatch hnd dev is1 is2 s) := by
  cases hd : s.devs[hnd.toNat]? with
  | none =>
    unfold dispatch
    rw [hd]
    exact completes_next s
  | some d => exact dispatch_completes hd (hs.setDev_of_checked hd (hs.ok hd).checked_clearRequest) dev is1 is2

/-! ## The agents -/

theorem sendAbort_completes {hnd : U8} (hs : s.Inv) (hd : s.devs[hnd.toNat]? = some d) :
    Completes (sendAbort hnd d s) := by
  unfold sendAbort
  split_ifs
  · exact completes_next _
  · refine dispatchOwn_completes (State.setDev_get_same s _ d { d with txtimeoutReq := true } hd) ?_
    rw [State.setDev_setDev]
    exact hs.setDev_of_checked hd (hs.ok hd).checked_clearRequest
  · exact completes_next s

theorem sendComplete_completes {hnd : U8} (hs : s.Inv) (hd : s.devs[hnd.toNat]? = some d) :
    Completes (sendComplete hnd d s) := by
  unfold sendComplete
  dsimp only
  split
  · exact completes_next s
  · split
    · exact completes_next _
    · split
      · exact (sendAbort_completes hs hd).bindRes fun _ _ => completes_next _
      · exact completes_next s

theorem wakeNext_completes (hok : d.Ok s.params) : Completes (wakeNext h d s) := by
  unfold wakeNext
  split
  case isTrue => exact completes_next _
  case isFalse hq =>
    obtain ⟨k, hk, hlt⟩ := hok.exists_queued hq
    exact txstart_completes hk hlt

theorem receiveWoken_completes (hok : d.Ok s.params) (hnd : U8) : Completes (receiveWoken hnd h d s) := by
  have hdelivered : Context.Ok s.params { wakeDeliver d.takeLink with recvWait := false } :=
    (hok.congr (e := d.takeLink) rfl).wakeDeliver.congr rfl
  unfold receiveWoken
  split
  · exact completes_next _
  · exact (wakeNext_completes hdelivered).bindRes fun _ _ => completes_next _

theorem receiveComplete_completes (hok : d.Ok s.params) (hnd : U8) : Completes (receiveComplete hnd d s) := by
  unfold receiveComplete
  split_ifs
  · exact completes_next s
  · exact receiveWoken_completes hok hnd
  · exact completes_next _
  · exact completes_next s

theorem runAgent_completes (hs : s.Inv) (hnd : U8) (a : Agent) : Completes (runAgent hnd a s) := by
  unfold runAgent
  split
  · exact completes_next s
  · rename_i d hd
    cases a with
    | send => exact sendComplete_completes hs hd
    | receive => exact receiveComplete_completes (hs.ok hd) hnd
    | dispatcher =>
      dsimp only
      rw [(hs.ok hd).no_timeout]
      exact completes_next s
    | phy j => exact completes_next _

theorem runOwnAgents_completes (hs : s.Inv) : Completes (runOwnAgents s) := by
  unfold runOwnAgents
  split
  · exact completes_next s
  · exact runAgent_completes hs _ _
  · exact runAgent_completes (s := { s with turns := s.turns + 1 }) { hs with } _ _

/-! ## Inputs -/

theorem runFrame_completes (hs : s.Inv) (port : Port) (f : Frame) : Completes (runFrame port f s) := by
  unfold runFrame
  split
  · exact completes_next _
  · split
    · exact completes_next _
    · exact exec_completes hs _

theorem hostStore_of_lt {k : Nat} (hk : k < s.params.nBuf) (f : BufField) (v : U8) :
    hostStore k f v s = .next { s with buf := Memory.write s.buf (fieldAddr k f) v } := if_pos hk

theorem runInput_completes (hs : s.Inv) {x : Input} (hx : x.ok s.params = true) : Completes (runInput x s) := by
  cases x with
  | command f => exact runFrame_completes hs .command f
  | supervisor f => exact runFrame_completes hs .supervisor f
  | irq hnd dev is1 is2 => exact irq_completes hs hnd dev is1 is2
  | resume hnd a => exact runAgent_completes hs hnd a
  | bufStore k f v => exact ⟨_, hostStore_of_lt (of_decide_eq_true hx) f v⟩
  | tick | supRead | supWrite | settings | poolTake | poolReturn => exact completes_next _

end

/-! ## One step -/

/-- Settles O54: by the agents' own units and by the inputs, of which a pending host store names a buffer. -/
theorem stepAlwaysCompletes : Obligations.StepAlwaysCompletes := by
  intro s hs
  unfold step
  split
  case h_1 => exact runOwnAgents_completes hs
  case h_2 x rest hx =>
    have hok : x.ok s.params = true := hs.inputs_ok x (by rw [hx]; exact List.mem_cons_self)
    exact runInput_completes (hs.consume hx) hok

end Sys2Proof.Machine
end

