-- ==== Sys2Proof/Proofs/HostStore.lean ====
section
/-! PROOF. A byte the host stores (spec/20_memory.md R62): the store writes one address, and no two bytes of the packet
buffers share an address (log 5). -/

namespace Sys2Proof.Machine

/-- An address lies in the stretch of one buffer only. -/
theorem fieldAddr_div (k : Nat) (f : BufField) : fieldAddr k f / bufSize = k := by
  obtain ⟨hle, hlt⟩ := fieldAddr_range k f
  exact Nat.div_eq_of_lt_le hle hlt

/-- In a buffer the header comes first, then the length, then the data. -/
theorem fieldAddr_injective (k : Nat) : Function.Injective (fieldAddr k) := by
  intro f g h
  cases f with
  | hdr i =>
    cases g <;> simp only [fieldAddr, hdrAddr, lenAddr, dataAddr, Config.hdrLen] at h
    case hdr j => exact congrArg BufField.hdr (Fin.ext (by omega))
    all_goals omega
  | len =>
    cases g <;> simp only [fieldAddr, hdrAddr, lenAddr, dataAddr, Config.hdrLen] at h
    case len => rfl
    all_goals omega
  | data i =>
    cases g <;> simp only [fieldAddr, hdrAddr, lenAddr, dataAddr, Config.hdrLen] at h
    case data j => exact congrArg BufField.data (Fin.ext (by omega))
    all_goals omega

theorem fieldAddr_inj {k k' : Nat} {f f' : BufField} : fieldAddr k' f' = fieldAddr k f ↔ (k', f') = (k, f) := by
  refine ⟨fun h => ?_, fun h => by cases h; rfl⟩
  have hk : k' = k := by rw [← fieldAddr_div k' f', h, fieldAddr_div]
  subst hk
  rw [fieldAddr_injective k' h]

/-- Settles O50: the store's one write, read back, and the addresses told apart. -/
theorem hostStoreReadsBack : Obligations.HostStoreReadsBack := by
  intro s k f v rest hin hk
  refine ⟨Memory.write s.buf (fieldAddr k f) v, ?_, Memory.read_write_same _ _ _,
    fun a ha => Memory.read_write_ne _ _ _ _ ha, fun k' f' hne => mt fieldAddr_inj.mp hne⟩
  unfold step
  rw [hin]
  exact hostStore_of_lt (s := { s with inputs := rest }) hk f v

end Sys2Proof.Machine
end

