-- ==== Sys2Proof/Proofs/Encoding.lean ====
section
/-! PROOF. Decoder and encoder agree (spec/30_encoding.md R91 to R93), a status word is read by its nine flags alone (R101
to R103), and a frame on a port is run or answered in the check order of R96. Both directions of the agreement rest on one
fact, `selectOperation_eq_some_iff`: the operation a frame selects is the one whose OPC, HND and operands the frame holds. -/

namespace Sys2Proof

/-! ## Format H: which frames select an operation -/

/-- A frame holds an instruction's operands, in the operand bits the instruction takes (R92). -/
def Frame.Carries (f : Frame) : Instr → Prop
  | .send _ packet t => f.w1 = packet ∧ f.w2 = t
  | .receive _ t => f.w1 = t
  | .setDatarate _ bps => f.w1 = bps
  | .setCarrier _ hz => f.w1 = hz
  | .setTxpower _ level => f.w1.extractLsb' 0 8 = level
  | _ => True

/-- A selected operation has the frame's OPC and HND, and its operands. -/
theorem fields_of_selectOperation {f : Frame} {i : Instr} (h : selectOperation f = some i) :
    opcOf i = some f.opc ∧ i.hnd = f.hnd ∧ f.Carries i := by
  unfold selectOperation at h
  iterate 11
    obtain ⟨hopc, hi⟩ | ⟨-, h⟩ := ite_eq_iff.mp h
    · obtain rfl := Option.some.inj hi
      exact ⟨congrArg some hopc.symm, rfl, by simp only [Frame.Carries, and_self]⟩
  exact nomatch h

/-- The OPC, HND and operands of an instruction select it. -/
theorem selectOperation_of_fields {f : Frame} {i : Instr} (hopc : opcOf i = some f.opc) (hhnd : i.hnd = f.hnd)
    (hops : f.Carries i) : selectOperation f = some i := by
  cases i with
  | send _ packet t =>
    obtain ⟨rfl, rfl⟩ := hops
    obtain rfl := hhnd
    rw [selectOperation, ← Option.some.inj hopc]
    rfl
  | receive _ x | setDatarate _ x | setCarrier _ x | setTxpower _ x =>
    obtain rfl := hops
    obtain rfl := hhnd
    rw [selectOperation, ← Option.some.inj hopc]
    rfl
  | init | getDeviceId | getRssi | getResetCount | getCarrier | forceReset =>
    obtain rfl := hhnd
    rw [selectOperation, ← Option.some.inj hopc]
    rfl
  | evFfovfl | evFfunfl | evTxffaem | evRxffafull | evPksent | evPkvalid | evSwdet | evPreaval | evPor =>
    exact nomatch hopc

theorem selectOperation_eq_some_iff {f : Frame} {i : Instr} :
    selectOperation f = some i ↔ opcOf i = some f.opc ∧ i.hnd = f.hnd ∧ f.Carries i :=
  ⟨fields_of_selectOperation, fun ⟨hopc, hhnd, hops⟩ => selectOperation_of_fields hopc hhnd hops⟩

/-- The operation codes are those of the table of R93. -/
theorem opcOf_mem_table {i : Instr} {opc : U8} (h : opcOf i = some opc) :
    opc ∈ [0x01#8, 0x02#8, 0x03#8, 0x04#8, 0x05#8, 0x06#8, 0x10#8, 0x11#8, 0x12#8, 0x13#8, 0x20#8] := by
  cases i <;> cases h <;> decide

theorem selectOperation_of_unknown_opc {f : Frame}
    (h : f.opc ∉ [0x01#8, 0x02#8, 0x03#8, 0x04#8, 0x05#8, 0x06#8, 0x10#8, 0x11#8, 0x12#8, 0x13#8, 0x20#8]) :
    selectOperation f = none :=
  Option.eq_none_iff_forall_ne_some.mpr fun _ hi => h (opcOf_mem_table (fields_of_selectOperation hi).1)

/-! ## Format H: the checks of R96 -/

theorem decodeFrame_eq_ok_iff {port : Port} {f : Frame} {i : Instr} :
    decodeFrame port f = .ok i ↔ f.rsv = 0#16 ∧ selectOperation f = some i ∧ portOf i = port := by
  unfold decodeFrame
  split
  case isTrue hrsv => simp [hrsv]
  case isFalse hrsv =>
    rw [not_not] at hrsv
    cases selectOperation f with
    | none => simp
    | some j =>
      by_cases hport : portOf j = port
      · simp only [hrsv, hport, if_true, Except.ok.injEq, Option.some.injEq, true_and]
        exact ⟨fun hij => ⟨hij, hij ▸ hport⟩, And.left⟩
      · simp only [hport, if_false, reduceCtorEq, false_iff, Option.some.injEq]
        rintro ⟨-, rfl, hij⟩
        exact hport hij

theorem decodeFrame_of_rsv {port : Port} {f : Frame} (h : f.rsv ≠ 0#16) :
    decodeFrame port f = .error .reservedBits := by simp [decodeFrame, h]

theorem decodeFrame_of_select_none {port : Port} {f : Frame} (hrsv : f.rsv = 0#16) (h : selectOperation f = none) :
    decodeFrame port f = .error .unknownOpcode := by simp [decodeFrame, hrsv, h]

theorem decodeFrame_of_wrong_port {port : Port} {f : Frame} {i : Instr} (hrsv : f.rsv = 0#16)
    (h : selectOperation f = some i) (hport : portOf i ≠ port) : decodeFrame port f = .error .wrongPort := by
  simp [decodeFrame, hrsv, h, hport]

/-! ## The encoder -/

/-- The words W1 and W2 an operation is encoded with: ignored bits 0 (R92). -/
def operandWords : Instr → U32 × U32
  | .send _ packet t => (packet, t)
  | .receive _ t => (t, 0#32)
  | .setDatarate _ bps => (bps, 0#32)
  | .setCarrier _ hz => (hz, 0#32)
  | .setTxpower _ level => (0#24 ++ level, 0#32)
  | _ => (0#32, 0#32)

/-- The encoding of an operation is a frame of its OPC, HND and operand words. -/
theorem encode_of_opc {i : Instr} {opc : U8} (h : opcOf i = some opc) :
    encode i = .frame ⟨word0 opc i.hnd, (operandWords i).1, (operandWords i).2⟩ := by
  cases i <;> cases h <;> rfl

theorem carries_operandWords (w0 : U32) (i : Instr) :
    Frame.Carries ⟨w0, (operandWords i).1, (operandWords i).2⟩ i := by
  cases i with
  | send => exact ⟨rfl, rfl⟩
  | receive | setDatarate | setCarrier => exact rfl
  | setTxpower _ level => exact level_extract level
  | _ => exact trivial

/-- The frame of an operation decodes to it on its port. -/
theorem decodeFrame_encode {i : Instr} {opc : U8} (h : opcOf i = some opc) :
    ∃ f, encode i = .frame f ∧ decodeFrame (portOf i) f = .ok i := by
  refine ⟨_, encode_of_opc h, decodeFrame_eq_ok_iff.mpr ⟨word0_rsv _ _, ?_, rfl⟩⟩
  exact selectOperation_of_fields (h.trans (congrArg some (word0_opc _ _).symm)) (word0_hnd _ _).symm
    (carries_operandWords _ i)

/-- The status word of an event holds its flag and no other. -/
theorem decodeStatus_encode {i : Instr} (h : opcOf i = none) :
    ∃ st, encode i = .status st ∧ decodeStatus i.hnd st = [i] := by
  cases i with
  | evFfovfl | evFfunfl | evTxffaem | evRxffafull | evPksent | evPkvalid | evSwdet | evPreaval | evPor =>
    refine ⟨_, rfl, ?_⟩
    simp [decodeStatus, orderedEvents, Instr.hnd, bitPor, bitFfovfl, bitFfunfl, bitPreaval, bitSwdet, bitRxffafull,
      bitTxffaem, bitPkvalid, bitPksent]
  | _ => exact nomatch h

/-- Settles O2: an operation's frame selects it again by its fields, an event's word has its one flag. -/
theorem decodeOfEncode : Obligations.DecodeOfEncode := by
  intro i
  refine ⟨?_, decodeStatus_encode, fun h => ?_⟩
  · cases hopc : opcOf i with
    | none =>
      obtain ⟨st, henc, hdec⟩ := decodeStatus_encode hopc
      rw [henc, decode, hdec, List.head?_cons]
    | some opc =>
      obtain ⟨f, henc, hdec⟩ := decodeFrame_encode hopc
      rw [henc, decode, hdec]
      rfl
  · obtain ⟨opc, hopc⟩ := Option.ne_none_iff_exists'.mp h
    exact decodeFrame_encode hopc

/-- Settles O3: the fields that selected the instruction are those it is encoded with. -/
theorem decodedFrameMatchesEncoding : Obligations.DecodedFrameMatchesEncoding := by
  intro port f i h
  obtain ⟨hrsv, hsel, hport⟩ := decodeFrame_eq_ok_iff.mp h
  obtain ⟨hopc, hhnd, hops⟩ := selectOperation_eq_some_iff.mp hsel
  have hw0 : word0 f.opc i.hnd = f.w0 := hhnd ▸ word0_of_fields f.w0 hrsv
  refine ⟨hport, hhnd, hopc, _, encode_of_opc hopc, hw0, ?_, ?_, ?_⟩
  · rintro ⟨hnd, p, t, rfl⟩
    obtain ⟨hw1, hw2⟩ := hops
    exact ⟨hw1.symm, hw2.symm⟩
  · rintro ⟨hnd, t, rfl | rfl | rfl⟩ <;> exact Eq.symm hops
  · rintro ⟨hnd, l, rfl⟩
    obtain rfl : f.w1.extractLsb' 0 8 = l := hops
    exact level_mask f.w1

/-! ## Format S -/

/-- The dispatcher tests flags of R101 only. -/
theorem orderedEvents_bit {hnd : U8} {e : Nat × Instr} (he : e ∈ orderedEvents hnd) :
    e.1 ∈ [0, 6, 7, 9, 10, 12, 13, 22, 23] := by
  have hbit : e.1 ∈ (orderedEvents hnd).map Prod.fst := List.mem_map_of_mem he
  exact (by decide : [23, 22, 6, 7, 12, 13, 9, 10] ⊆ [0, 6, 7, 9, 10, 12, 13, 22, 23]) hbit

/-- Settles O4: decoding tests no bit but the nine flags. -/
theorem ignoredStatusBitsDoNotMatter : Obligations.IgnoredStatusBitsDoNotMatter := by
  intro hnd a b hflags
  refine ⟨?_, hflags bitPkvalid (by decide)⟩
  have hpor : a.getLsbD bitPor = b.getLsbD bitPor := hflags bitPor (by decide)
  have hevents : ∀ e ∈ orderedEvents hnd,
      (if a.getLsbD e.1 then some e.2 else none) = if b.getLsbD e.1 then some e.2 else none :=
    fun e he => by rw [hflags e.1 (orderedEvents_bit he)]
  rw [decodeStatus, decodeStatus, hpor, List.filterMap_congr hevents]

/-! ## The table's words -/

/-- Settles O1: the decoder evaluated on the eleven words. -/
theorem tableWordsDecode : Obligations.TableWordsDecode := by
  unfold Obligations.TableWordsDecode
  decide

end Sys2Proof

namespace Sys2Proof.Machine

/-! ## A frame on a port -/

theorem step_frame {s : State} {port : Port} {f : Frame} {rest : List Input}
    (h : s.inputs = frameInput port f :: rest) : step s = runFrame port f { s with inputs := rest } := by
  unfold step
  rw [h]
  cases port <;> rfl

theorem runFrame_of_bad_handle {f : Frame} {s : State} (port : Port) (h : s.params.nDev ≤ f.hnd.toNat) :
    runFrame port f s = .next (s.respond f.opc f.hnd .errBadHandle 0#32) := if_pos h

theorem runFrame_of_error {port : Port} {f : Frame} {s : State} {e : DecodeError} (h : f.hnd.toNat < s.params.nDev)
    (hdec : decodeFrame port f = .error e) :
    runFrame port f s = .next (s.respond f.opc f.hnd .errBadCmd 0#32) := by
  rw [runFrame, if_neg h.not_ge, hdec]

theorem runFrame_of_ok {port : Port} {f : Frame} {s : State} {i : Instr} (h : f.hnd.toNat < s.params.nDev)
    (hdec : decodeFrame port f = .ok i) : runFrame port f s = exec i s := by
  rw [runFrame, if_neg h.not_ge, hdec]

/-- Settles O5: a legal frame passes the check of HND and the decoder. -/
theorem stepRunsDecodedCommand : Obligations.StepRunsDecodedCommand := by
  intro s port f i rest hin hhnd hdec
  rw [step_frame hin]
  exact runFrame_of_ok hhnd hdec

/-! ## A packet operand that names no buffer -/

theorem packetOperand_eq_none_iff {p : Params} {a : U32} :
    packetOperand p a = none ↔ p.nBuf ≤ a.toNat ∨ a = 0xFFFFFFFF#32 := by
  unfold packetOperand
  split_ifs <;> simp_all

/-- The operand of a SEND is checked before the registers of its Device Context (log 17). -/
theorem exec_send_of_no_buffer {hnd : U8} {packet : U32} {s : State} {d : Context}
    (hd : s.devs[hnd.toNat]? = some d) (h : packetOperand s.params packet = none) (t : U32) :
    exec (.send hnd packet t) s = .next (s.respond 0x02#8 hnd .errBadCmd 0#32) := by
  rw [exec, execSend, onCommand_some hd, h]

/-- Settles O8: HND by `runFrame`, RSV and OPC by the decoder, the operand by SEND itself. -/
theorem illegalFramesAreOnlyAnswered : Obligations.IllegalFramesAreOnlyAnswered := by
  intro s port f rest hin hlen s0
  rw [show step s = runFrame port f s0 from step_frame hin]
  refine ⟨fun hhnd => runFrame_of_bad_handle port hhnd, fun hhnd hrsv => ?_, fun hhnd hrsv hopc => ?_, ?_, ?_⟩
  · exact runFrame_of_error hhnd (decodeFrame_of_rsv hrsv)
  · exact runFrame_of_error hhnd (decodeFrame_of_select_none hrsv (selectOperation_of_unknown_opc hopc))
  · rintro hhnd hrsv hopc rfl
    have hsel : selectOperation f = some (.forceReset f.hnd) :=
      selectOperation_of_fields (congrArg some hopc.symm) rfl trivial
    rw [← hopc]
    exact runFrame_of_error hhnd (decodeFrame_of_wrong_port hrsv hsel nofun)
  · rintro hhnd hrsv hopc rfl hpacket
    have hsel : selectOperation f = some (.send f.hnd f.w1 f.w2) :=
      selectOperation_of_fields (congrArg some hopc.symm) rfl ⟨rfl, rfl⟩
    have hdec : decodeFrame .command f = .ok (.send f.hnd f.w1 f.w2) :=
      decodeFrame_eq_ok_iff.mpr ⟨hrsv, hsel, rfl⟩
    have hd : s0.devs[f.hnd.toNat]? = some _ := List.getElem?_eq_getElem (hlen ▸ hhnd)
    rw [runFrame_of_ok (s := s0) hhnd hdec]
    exact exec_send_of_no_buffer hd (packetOperand_eq_none_iff.mpr hpacket) f.w2

end Sys2Proof.Machine
end

