-- ==== Sys2Proof/Proofs/LinkEvents.lean ====
section
/-! PROOF. The events of the link state machine one by one, and the dispatcher as a whole (spec/40_link_state_machine.md).
Three facts carry the statements: an event does nothing in a mode its row does not list (`exec_of_not_honoured`), the
events of one status word are handlers tried in a fixed order (`runEvents_decodeStatus`), and one invocation of the
dispatcher has a bounded effect on its device (`dispatch_effect`). -/

namespace Sys2Proof.Machine

/-! ## Results -/

theorem bindRes_next_right (r : Res) : bindRes r .next = r := by cases r <;> rfl

theorem bindRes_leaveDispatcher (r : Res) : bindRes r leaveDispatcher = r := bindRes_next_right r

theorem runEvents_singleton (i : Instr) (s : State) : runEvents [i] s = exec i s := bindRes_next_right _

/-! ## The modes an event's row lists -/

/-- The event has an effect in this mode (spec/30_encoding.md R101, R102). -/
def honoured : Instr → BitVec 4 → Bool
  | .evFfovfl _, m | .evFfunfl _, m => isRxInProgress m || m == txData
  | .evPreaval _, m => m == rxWaitPreamble
  | .evSwdet _, m => m == rxWaitSync
  | .evRxffafull _, m => isRxInProgress m
  | .evPkvalid _, m => m == rxData
  | .evTxffaem _, m | .evPksent _, m => m == txData
  | _, _ => true

/-- The eight events that follow the power-on-reset test, one by one. -/
theorem mem_orderedEvents {hnd : U8} {e : Nat × Instr} :
    e ∈ orderedEvents hnd ↔ e = (23, .evFfovfl hnd) ∨ e = (22, .evFfunfl hnd) ∨ e = (6, .evPreaval hnd) ∨
      e = (7, .evSwdet hnd) ∨ e = (12, .evRxffafull hnd) ∨ e = (13, .evTxffaem hnd) ∨ e = (9, .evPkvalid hnd) ∨
      e = (10, .evPksent hnd) := by
  simp [orderedEvents]

theorem hnd_of_mem_orderedEvents {hnd : U8} {e : Nat × Instr} (he : e ∈ orderedEvents hnd) : e.2.hnd = hnd := by
  obtain rfl | rfl | rfl | rfl | rfl | rfl | rfl | rfl := mem_orderedEvents.mp he <;> rfl

theorem isTerminal_iff {m : BitVec 4} :
    isTerminal m = true ↔ m = rxComplete ∨ m = rxError ∨ m = txComplete ∨ m = txError := by
  simp [isTerminal, or_assoc]

/-- No row lists a terminal mode (spec/40_link_state_machine.md R132). -/
theorem not_honoured_of_terminal {hnd : U8} {e : Nat × Instr} (he : e ∈ orderedEvents hnd) {m : BitVec 4}
    (hm : isTerminal m = true) : honoured e.2 m = false := by
  obtain rfl | rfl | rfl | rfl := isTerminal_iff.mp hm <;>
    obtain rfl | rfl | rfl | rfl | rfl | rfl | rfl | rfl := mem_orderedEvents.mp he <;> rfl

section
variable {s : State} {hnd : U8} {d : Context}

theorem onEvent_of_rule_idle (hd : s.devs[hnd.toNat]? = some d) {rule : Nat → Context → Res}
    (hrule : rule hnd.toNat d = .next s) : onEvent hnd s rule = .next s := by
  cases hi : d.initialized with
  | false => exact onEvent_uninitialized hd hi rule
  | true => exact (onEvent_initialized hd hi rule).trans hrule

theorem fifoFault_of_not_honoured (hm : (isRxInProgress d.mode || d.mode == txData) = false) : fifoFault d = d := by
  simp only [Bool.or_eq_false_iff, beq_eq_false_iff_ne] at hm
  simp [fifoFault, hm]

/-- In a mode its row does not list, an event changes nothing. -/
theorem exec_of_not_honoured {i : Instr} (hd : s.devs[i.hnd.toNat]? = some d) (hm : honoured i d.mode = false) :
    exec i s = .next s := by
  cases i with
  | evFfovfl | evFfunfl =>
    simp only [exec, execEvFfovfl, execEvFfunfl]
    exact onEvent_of_rule_idle hd (by rw [fifoFault_of_not_honoured hm, State.setDev_self hd])
  | evPreaval | evSwdet | evPksent | evPkvalid | evTxffaem =>
    simp only [exec, execEvPreaval, execEvSwdet, execEvPksent, execEvPkvalid, execEvTxffaem]
    exact onEvent_of_rule_idle hd (by rw [if_neg (beq_eq_false_iff_ne.mp hm)])
  | evRxffafull =>
    simp only [honoured, isRxInProgress, Bool.or_eq_false_iff, beq_eq_false_iff_ne] at hm
    obtain ⟨⟨hpreamble, hsync⟩, hdata⟩ := hm
    simp only [exec, execEvRxffafull]
    exact onEvent_of_rule_idle hd (by rw [if_neg (not_or.mpr ⟨hpreamble, hsync⟩), if_neg hdata])
  | _ => exact nomatch hm

/-! ## EV_PREAVAL, EV_SWDET, the FIFO faults, EV_POR -/

theorem exec_evPreaval (hd : s.devs[hnd.toNat]? = some d) (hi : d.initialized = true) (hm : d.mode = rxWaitPreamble) :
    exec (.evPreaval hnd) s = .next (s.setDev hnd.toNat { d with mode := rxWaitSync }) := by
  rw [exec, execEvPreaval, onEvent_initialized hd hi, if_pos hm]

theorem exec_evSwdet (hd : s.devs[hnd.toNat]? = some d) (hi : d.initialized = true) (hm : d.mode = rxWaitSync) :
    exec (.evSwdet hnd) s = .next (s.setDev hnd.toNat { latch s.params hnd.toNat d with mode := rxData }) := by
  rw [exec, execEvSwdet, onEvent_initialized hd hi, if_pos hm]

theorem exec_fifoFault (hd : s.devs[hnd.toNat]? = some d) (hi : d.initialized = true) {i : Instr}
    (hf : i = .evFfovfl hnd ∨ i = .evFfunfl hnd) : exec i s = .next (s.setDev hnd.toNat (fifoFault d)) := by
  obtain rfl | rfl := hf
  · rw [exec, execEvFfovfl, onEvent_initialized hd hi]
  · rw [exec, execEvFfunfl, onEvent_initialized hd hi]

theorem exec_evPor (hd : s.devs[hnd.toNat]? = some d) (hi : d.initialized = true) :
    exec (.evPor hnd) s = .next (s.setDev hnd.toNat { d with initialized := false, txtimeoutReq := false }) := by
  rw [exec, execEvPor, onEvent_initialized hd hi]

theorem fifoFault_of_rx (hm : isRxInProgress d.mode = true) : fifoFault d = rxfail d := if_pos hm

theorem fifoFault_of_tx (hm : d.mode = txData) : fifoFault d = txfail d := by
  rw [fifoFault, if_neg (by rw [hm]; decide), if_pos hm]

end

/-- Settles O17: mode 0 by the rule, the other modes by the row's mode. -/
theorem preambleRule : Obligations.PreambleRule := by
  intro s hnd d hd hi
  exact ⟨exec_evPreaval hd hi, fun hm => exec_of_not_honoured (i := .evPreaval hnd) hd (beq_eq_false_iff_ne.mpr hm)⟩

/-- LATCH with three bytes on the tape (spec/41_rx_pipeline.md R164): the two AFC bytes, then the RSSI byte. -/
theorem latch_of_tape {d : Context} {a0 a1 r : U8} {tape : List U8} (ha : d.answers = a0 :: a1 :: r :: tape) (p : Params)
    (h : Nat) :
    latch p h d = { d with
      latAfc := afcConv p (afcTicks p a0 a1) d.phy.freqStepQ, latRssi := rssiConv p r, answers := tape
      bus := d.bus ++ [.burstRead .afc [a0, a1], .read .rssi r] } := by
  have hafc : d.peek h 2 = [a0, a1] := Context.peek_of_tape (l := [a0, a1]) ha rfl h
  have hburst : d.burstRead h .afc 2 =
      { d with answers := r :: tape, bus := d.bus ++ [.burstRead .afc [a0, a1]] } := by
    simp [Context.burstRead, hafc, ha]
  have hrssi : (d.burstRead h .afc 2).peekByte h = r := Context.peekByte_of_tape (rest := tape) (by rw [hburst]) h
  unfold latch Context.regRead
  dsimp only
  rw [hrssi, hburst, hafc]
  simp

/-- A word shifted right until `w` bits are left, read as signed, is the signed word divided by the power of two. -/
theorem toInt_top_bits (x : BitVec 16) {w : Nat} (h1 : 1 ≤ w) (h16 : w ≤ 16) :
    (BitVec.ofNat w (x.toNat >>> (16 - w))).toInt = x.toInt / 2 ^ (16 - w) := by
  have hx := x.isLt
  rw [BitVec.toInt_eq_toNat_cond, BitVec.toInt_eq_toNat_cond, BitVec.toNat_ofNat, Nat.shiftRight_eq_div_pow]
  interval_cases w <;> simp only [Nat.reducePow, Nat.reduceSub] <;> omega

/-- Settles O18: LATCH by the tape, the raw reading as a division that rounds down. -/
theorem syncDetectRule : Obligations.SyncDetectRule := by
  intro s hnd d a0 a1 r tape hd hi ha
  refine ⟨fun hm => ?_, fun hm => exec_of_not_honoured (i := .evSwdet hnd) hd (beq_eq_false_iff_ne.mpr hm),
    fun h1 h16 => toInt_top_bits (a0 ++ a1) h1 h16⟩
  rw [exec_evSwdet hd hi hm, latch_of_tape ha]

/-- Settles O19: the common rule of both faults by mode. -/
theorem fifoFaultRule : Obligations.FifoFaultRule := by
  intro s hnd d hd hi i hf
  rw [exec_fifoFault hd hi hf]
  refine ⟨fun hm => ?_, fun hm => ?_, fun h0 h1 h2 h5 => ?_⟩
  · rw [fifoFault_of_rx (by simpa [isRxInProgress, or_assoc] using hm), rxfail_eq]
  · rw [fifoFault_of_tx hm, txfail_eq]
  · rw [fifoFault_of_not_honoured (by simp [isRxInProgress, h0, h1, h2, h5]), State.setDev_self hd]

/-- Settles O15: RXARM's eight writes, FIFO_CLEAR's two in the middle. -/
theorem rxarmRule : Obligations.RxarmRule := fun _ _ => rfl

/-! ## The dispatcher by its branches -/

section
variable {s : State} {hnd dev is1 is2 : U8} {d : Context}

/-- An uninitialised device (R142). -/
theorem dispatch_of_uninitialized (hd : s.devs[hnd.toNat]? = some d) (hi : d.initialized = false) :
    dispatch hnd dev is1 is2 s = .next (s.setDev hnd.toNat { d with txtimeoutReq := false }) := by
  unfold dispatch
  rw [hd]
  exact if_pos hi

/-- The power-on-reset flag is tested first and is alone (R124). -/
theorem dispatch_of_por (hd : s.devs[hnd.toNat]? = some d) (hi : d.initialized = true) (hpor : is2.getLsbD 0 = true) :
    dispatch hnd dev is1 is2 s = .next (s.setDev hnd.toNat
      { d.enterDispatcher dev is1 is2 with initialized := false, txtimeoutReq := false }) := by
  have hflag : (d.enterDispatcher dev is1 is2).status.getLsbD bitPor = true := by
    rw [Context.enterDispatcher_status, statusWord_is2 _ _ _ (by decide)]
    exact hpor
  unfold dispatch dispatchByMode
  rw [hd]
  dsimp only
  rw [if_neg (by simp [hi]), bindRes_leaveDispatcher, if_pos hflag, decodeStatus, if_pos hflag, runEvents_singleton,
    exec_evPor (State.setDev_get_same s _ d _ hd) (by simpa using hi), State.setDev_setDev]

/-- An unrecognised mode (R133). -/
theorem dispatch_of_unrecognised (hd : s.devs[hnd.toNat]? = some d) (hi : d.initialized = true)
    (hpor : is2.getLsbD 0 = false) (hm : isUnrecognised d.mode = true) :
    dispatch hnd dev is1 is2 s = .next (s.setDev hnd.toNat
      (rxarm s.params { d.enterDispatcher dev is1 is2 with txtimeoutReq := false })) :=
  (dispatch_of_initialized hd hi hpor).trans (if_pos hm)

/-- A pending timeout request in TX_DATA (R136, R130 a). -/
theorem dispatch_of_request (hd : s.devs[hnd.toNat]? = some d) (hi : d.initialized = true)
    (hpor : is2.getLsbD 0 = false) (hreq : d.txtimeoutReq = true) (hm : d.mode = txData) :
    dispatch hnd dev is1 is2 s = .next (s.setDev hnd.toNat
      (txfail { d.enterDispatcher dev is1 is2 with txtimeoutReq := false })) := by
  rw [dispatch_of_initialized hd hi hpor]
  dsimp only
  rw [if_neg (by rw [hm]; decide), if_pos (by simp [hreq, hm])]

/-- The events of the status word (R126, R130). -/
theorem dispatch_of_events (hd : s.devs[hnd.toNat]? = some d) (hi : d.initialized = true) (hpor : is2.getLsbD 0 = false)
    (hm : isUnrecognised d.mode = false) (hreq : d.txtimeoutReq = true → d.mode ≠ txData) :
    dispatch hnd dev is1 is2 s = runEvents (decodeStatus hnd (statusWord dev is1 is2))
      (s.setDev hnd.toNat { d.enterDispatcher dev is1 is2 with txtimeoutReq := false }) := by
  rw [dispatch_of_initialized hd hi hpor]
  dsimp only
  rw [if_neg (by simp [hm]), if_neg (by simpa using hreq)]

end

/-! ## The handlers of one status word -/

/-- One handler: the event, where its flag is set. -/
def fire (S : StatusWord) (n : Nat) (i : Instr) (s : State) : Res := if S.getLsbD n then exec i s else .next s

/-- Handlers one after the other. -/
def fireAll (S : StatusWord) : List (Nat × Instr) → State → Res
  | [], s => .next s
  | e :: l, s => bindRes (fire S e.1 e.2 s) (fireAll S l)

theorem fire_of_set {S : StatusWord} {n : Nat} (h : S.getLsbD n = true) (i : Instr) (s : State) :
    fire S n i s = exec i s := if_pos h

theorem fire_of_clear {S : StatusWord} {n : Nat} (h : S.getLsbD n = false) (i : Instr) (s : State) :
    fire S n i s = .next s := if_neg (by simp [h])

theorem fireAll_singleton (S : StatusWord) (e : Nat × Instr) (s : State) : fireAll S [e] s = fire S e.1 e.2 s :=
  bindRes_next_right _

theorem fireAll_cons_cons (S : StatusWord) (e e' : Nat × Instr) (l : List (Nat × Instr)) (s : State) :
    fireAll S (e :: e' :: l) s = bindRes (fire S e.1 e.2 s) fun u => fireAll S (e' :: l) u := rfl

/-- Without the power-on-reset flag, the events of a status word are the ordered ones whose flag is set. -/
theorem decodeStatus_of_no_por {hnd : U8} {S : StatusWord} (h : S.getLsbD bitPor = false) :
    decodeStatus hnd S = ((orderedEvents hnd).filter fun e => S.getLsbD e.1).map Prod.snd := by
  rw [decodeStatus, if_neg (by rw [h]; exact Bool.false_ne_true), ← List.filterMap_eq_map, List.filterMap_filter]
  rfl

theorem runEvents_filter (S : StatusWord) (l : List (Nat × Instr)) (s : State) :
    runEvents ((l.filter fun e => S.getLsbD e.1).map Prod.snd) s = fireAll S l s := by
  induction l generalizing s with
  | nil => rfl
  | cons e l ih =>
    cases he : S.getLsbD e.1 with
    | false => rw [List.filter_cons_of_neg (by simp [he]), fireAll, fire_of_clear he, bindRes_next, ih]
    | true =>
      rw [List.filter_cons_of_pos (by simpa using he), fireAll, fire_of_set he, List.map_cons, runEvents]
      exact congrArg _ (funext ih)

/-- Executing the events of a status word is trying the eight handlers in order. -/
theorem runEvents_decodeStatus {hnd : U8} {S : StatusWord} (h : S.getLsbD bitPor = false) (s : State) :
    runEvents (decodeStatus hnd S) s = fireAll S (orderedEvents hnd) s := by
  rw [decodeStatus_of_no_por h, runEvents_filter]

section
variable {S : StatusWord} {s : State} {hnd : U8} {d : Context}

/-- Handlers whose events the mode does not list do nothing. -/
theorem fireAll_of_not_honoured {l : List (Nat × Instr)} (hl : ∀ e ∈ l, e.2.hnd = hnd ∧ honoured e.2 d.mode = false)
    (hd : s.devs[hnd.toNat]? = some d) : fireAll S l s = .next s := by
  induction l with
  | nil => rfl
  | cons e l ih =>
    obtain ⟨⟨hhnd, hm⟩, hl⟩ := List.forall_mem_cons.mp hl
    have hidle : fire S e.1 e.2 s = .next s := by
      cases hflag : S.getLsbD e.1 with
      | false => exact fire_of_clear hflag _ s
      | true => rw [fire_of_set hflag, exec_of_not_honoured (hhnd.symm ▸ hd) hm]
    rw [fireAll, hidle, bindRes_next, ih hl]

/-- In a terminal mode no handler of the dispatcher does anything (R132). -/
theorem fireAll_of_terminal {l : List (Nat × Instr)} (hl : l ⊆ orderedEvents hnd) (hd : s.devs[hnd.toNat]? = some d)
    (hm : isTerminal d.mode = true) : fireAll S l s = .next s :=
  fireAll_of_not_honoured (fun _ he => ⟨hnd_of_mem_orderedEvents (hl he), not_honoured_of_terminal (hl he) hm⟩) hd

/-- What a handler leaves of the device: the same mode, or a move of the dispatcher. -/
theorem fire_moves {e : Nat × Instr} (he : e ∈ orderedEvents hnd) (hd : s.devs[hnd.toNat]? = some d) {t : State}
    (ht : fire S e.1 e.2 s = .next t) :
    ∃ d', t.devs[hnd.toNat]? = some d' ∧ (d'.mode = d.mode ∨ dispatcherMove d.mode d'.mode = true) := by
  cases hflag : S.getLsbD e.1 with
  | false =>
    cases (fire_of_clear hflag _ s).symm.trans ht
    exact ⟨d, hd, .inl rfl⟩
  | true =>
    rw [fire_of_set hflag] at ht
    obtain ⟨d', b, rfl, heffect⟩ := event_effect hd (List.mem_map_of_mem he) ht
    exact ⟨d', State.setDev_get_same s _ d d' hd, heffect.moves.imp_right And.left⟩

/-- Handlers can be left out that do nothing in any mode of a set `Q` which no move of the dispatcher leaves. -/
theorem fireAll_filter {Q : BitVec 4 → Prop} (hQ : ∀ m m', Q m → dispatcherMove m m' = true → Q m') (keep : Nat → Bool)
    {l : List (Nat × Instr)} (hl : l ⊆ orderedEvents hnd)
    (hdrop : ∀ e ∈ l, keep e.1 = false → S.getLsbD e.1 = false ∨ ∀ m, Q m → honoured e.2 m = false)
    (hd : s.devs[hnd.toNat]? = some d) (hq : Q d.mode) :
    fireAll S l s = fireAll S (l.filter fun e => keep e.1) s := by
  induction l generalizing s d with
  | nil => rfl
  | cons e l ih =>
    obtain ⟨he, hl⟩ := List.cons_subset.mp hl
    obtain ⟨hdrop, hdropl⟩ := List.forall_mem_cons.mp hdrop
    cases hkeep : keep e.1 with
    | false =>
      have hidle : fire S e.1 e.2 s = .next s := by
        obtain hflag | hm := hdrop hkeep
        · exact fire_of_clear hflag _ s
        · rw [← fireAll_singleton]
          exact fireAll_of_not_honoured (by simpa using ⟨hnd_of_mem_orderedEvents he, hm _ hq⟩) hd
      rw [List.filter_cons_of_neg (by simp [hkeep]), fireAll, hidle, bindRes_next, ih hl hdropl hd hq]
    | true =>
      rw [List.filter_cons_of_pos (by simpa using hkeep), fireAll, fireAll]
      cases hfire : fire S e.1 e.2 s with
      | next u =>
        obtain ⟨d', hd', hmove⟩ := fire_moves he hd hfire
        exact ih hl hdropl hd' (hmove.elim (fun h => h ▸ hq) (hQ _ _ hq))
      | fault | refused => rfl

/-- A FIFO fault acts alone: it leads to a terminal mode (R126, R127, R131). -/
theorem fireAll_of_fault (hd : s.devs[hnd.toNat]? = some d) (hi : d.initialized = true)
    (hm : isRxInProgress d.mode = true ∨ d.mode = txData) (hf : S.getLsbD 23 = true ∨ S.getLsbD 22 = true) :
    fireAll S (orderedEvents hnd) s = exec (.evFfovfl hnd) s := by
  have hterminal : isTerminal (fifoFault d).mode = true := by
    obtain hm | hm := hm
    · rw [fifoFault_of_rx hm, rxfail_mode]; rfl
    · rw [fifoFault_of_tx hm, txfail_mode]; rfl
  have halone : ∀ l, l ⊆ orderedEvents hnd →
      fireAll S l (s.setDev hnd.toNat (fifoFault d)) = .next (s.setDev hnd.toNat (fifoFault d)) :=
    fun l hl => fireAll_of_terminal hl (State.setDev_get_same s _ d _ hd) hterminal
  rw [exec_fifoFault hd hi (.inl rfl)]
  cases hover : S.getLsbD 23 with
  | true =>
    rw [orderedEvents, fireAll, fire_of_set hover, exec_fifoFault hd hi (.inl rfl), bindRes_next]
    exact halone _ (List.subset_cons_self _ _)
  | false =>
    have hunder : S.getLsbD 22 = true := hf.resolve_left (Bool.eq_false_iff.mp hover)
    rw [orderedEvents, fireAll, fire_of_clear hover, bindRes_next, fireAll, fire_of_set hunder,
      exec_fifoFault hd hi (.inr rfl), bindRes_next]
    exact halone _ fun _ he => List.mem_cons_of_mem _ (List.mem_cons_of_mem _ he)

theorem dispatcherMove_ne_txData : ∀ m m' : BitVec 4, dispatcherMove m m' = true → m' ≠ txData := by decide

theorem dispatcherMove_from_tx : ∀ m m' : BitVec 4, m = txData ∨ isTerminal m = true → dispatcherMove m m' = true →
    m' = txData ∨ isTerminal m' = true := by decide

/-- Without a fault and outside TX_DATA, the four RX handlers in order (R126). -/
theorem fireAll_rx (hd : s.devs[hnd.toNat]? = some d) (hm : d.mode ≠ txData) (h23 : S.getLsbD 23 = false)
    (h22 : S.getLsbD 22 = false) :
    fireAll S (orderedEvents hnd) s =
      fireAll S [(6, .evPreaval hnd), (7, .evSwdet hnd), (12, .evRxffafull hnd), (9, .evPkvalid hnd)] s := by
  refine fireAll_filter (Q := fun m => m ≠ txData) (fun m m' _ => dispatcherMove_ne_txData m m')
    (fun n => [6, 7, 12, 9].contains n) (fun _ he => he) (fun e he hkeep => ?_) hd hm
  obtain rfl | rfl | rfl | rfl | rfl | rfl | rfl | rfl := mem_orderedEvents.mp he
  · exact .inl h23
  · exact .inl h22
  · exact nomatch hkeep
  · exact nomatch hkeep
  · exact nomatch hkeep
  · exact .inr fun m hm => beq_eq_false_iff_ne.mpr hm
  · exact nomatch hkeep
  · exact .inr fun m hm => beq_eq_false_iff_ne.mpr hm

/-- Without a fault and in TX_DATA, the two TX handlers in order (R130). -/
theorem fireAll_tx (hd : s.devs[hnd.toNat]? = some d) (hm : d.mode = txData) (h23 : S.getLsbD 23 = false)
    (h22 : S.getLsbD 22 = false) :
    fireAll S (orderedEvents hnd) s = fireAll S [(13, .evTxffaem hnd), (10, .evPksent hnd)] s := by
  refine fireAll_filter (Q := fun m => m = txData ∨ isTerminal m = true) dispatcherMove_from_tx
    (fun n => [13, 10].contains n) (fun _ he => he) (fun e he hkeep => ?_) hd (.inl hm)
  have hrx : honoured e.2 txData = false → ∀ m, m = txData ∨ isTerminal m = true → honoured e.2 m = false := by
    rintro htx m (rfl | hm)
    · exact htx
    · exact not_honoured_of_terminal he hm
  obtain rfl | rfl | rfl | rfl | rfl | rfl | rfl | rfl := mem_orderedEvents.mp he
  · exact .inl h23
  · exact .inl h22
  · exact .inr (hrx rfl)
  · exact .inr (hrx rfl)
  · exact .inr (hrx rfl)
  · exact nomatch hkeep
  · exact .inr (hrx rfl)
  · exact nomatch hkeep

end

/-! ## The dispatcher's statements -/

theorem step_irq {s : State} {hnd dev is1 is2 : U8} {rest : List Input} (h : s.inputs = .irq hnd dev is1 is2 :: rest) :
    step s = dispatch hnd dev is1 is2 { s with inputs := rest } := by
  unfold step
  rw [h]
  rfl

theorem enterDispatcher_clearRequest {d : Context} (h : d.txtimeoutReq = false) (dev is1 is2 : U8) :
    { d.enterDispatcher dev is1 is2 with txtimeoutReq := false } = d.enterDispatcher dev is1 is2 := by
  rw [← h]
  rfl

theorem statusWord_no_por {is2 : U8} (h : is2.getLsbD 0 = false) (dev is1 : U8) :
    (statusWord dev is1 is2).getLsbD bitPor = false :=
  (statusWord_is2 dev is1 is2 (by decide)).trans h

/-- An initialised device in a recognised mode without a timeout request: the handlers from the latched state. -/
theorem dispatch_eq_fireAll {s : State} {hnd is2 : U8} {d : Context} (hd : s.devs[hnd.toNat]? = some d)
    (hi : d.initialized = true) (hpor : is2.getLsbD 0 = false) (hm : isUnrecognised d.mode = false)
    (hreq : d.txtimeoutReq = false) (dev is1 : U8) :
    dispatch hnd dev is1 is2 s = fireAll (statusWord dev is1 is2) (orderedEvents hnd)
      (s.setDev hnd.toNat (d.enterDispatcher dev is1 is2)) := by
  rw [dispatch_of_events hd hi hpor hm (by simp [hreq]), enterDispatcher_clearRequest hreq,
    runEvents_decodeStatus (statusWord_no_por hpor dev is1)]

/-- Settles O6: by the power-on-reset flag, which is an event of its own. -/
theorem stepRunsStatusWordEvents : Obligations.StepRunsStatusWordEvents := by
  intro s hnd dev is1 is2 rest d hin hd hi hreq hm entered
  have hd' : ({ s with inputs := rest } : State).devs[hnd.toNat]? = some d := hd
  have hrun : step s = runEvents (decodeStatus hnd (statusWord dev is1 is2)) entered := by
    rw [step_irq hin]
    cases hpor : is2.getLsbD 0 with
    | false => rw [dispatch_of_events hd' hi hpor hm (by simp [hreq]), enterDispatcher_clearRequest hreq]
    | true =>
      have hentered : entered.devs[hnd.toNat]? = some (d.enterDispatcher dev is1 is2) :=
        State.setDev_get_same _ _ d _ hd'
      have hflag : (statusWord dev is1 is2).getLsbD bitPor = true := (statusWord_is2 _ _ _ (by decide)).trans hpor
      rw [dispatch_of_por hd' hi hpor, decodeStatus, if_pos hflag, runEvents_singleton,
        exec_evPor hentered (by simpa using hi), State.setDev_setDev]
  refine ⟨hrun, fun i hone => ?_⟩
  rw [hrun, hone, runEvents_singleton]

/-- Settles O26: the event's rule, and the flag tested first and alone. -/
theorem powerOnResetObserved : Obligations.PowerOnResetObserved := by
  intro s hnd d hd hi
  exact ⟨exec_evPor hd hi, fun dev is1 is2 hpor => dispatch_of_por hd hi hpor⟩

/-- Settles O27: the branch of an uninitialised device. -/
theorem uninitializedIgnoresInterrupts : Obligations.UninitializedIgnoresInterrupts := by
  intro s hnd dev is1 is2 rest d hin hd hi
  rw [step_irq hin]
  exact dispatch_of_uninitialized (s := { s with inputs := rest }) hd hi

theorem recognised_of_terminal {m : BitVec 4} (h : isTerminal m = true) : isUnrecognised m = false ∧ m ≠ txData := by
  obtain rfl | rfl | rfl | rfl := isTerminal_iff.mp h <;> decide

/-- Settles O28: no handler acts in a terminal mode. -/
theorem terminalModeIgnoresFlags : Obligations.TerminalModeIgnoresFlags := by
  intro s hnd dev is1 is2 d hd hi hterminal hpor
  obtain ⟨hm, hne⟩ := recognised_of_terminal hterminal
  rw [dispatch_of_events hd hi hpor hm fun _ => hne, runEvents_decodeStatus (statusWord_no_por hpor dev is1)]
  exact fireAll_of_terminal (fun _ he => he) (State.setDev_get_same s _ d _ hd) hterminal

/-- Settles O29: the branch of an unrecognised mode. -/
theorem unrecognisedModeRecovers : Obligations.UnrecognisedModeRecovers := by
  intro s hnd dev is1 is2 d hd hi hm hpor
  exact dispatch_of_unrecognised hd hi hpor (decide_eq_true hm)

/-- Settles O30: in TX_DATA the request's own branch; elsewhere the branch taken does not depend on the request. -/
theorem timeoutRequestForcesTxError : Obligations.TimeoutRequestForcesTxError := by
  intro s hnd dev is1 is2 d hd hi hpor
  have hget (req : Bool) := State.setDev_get_same s _ d { d with txtimeoutReq := req } hd
  refine ⟨fun hm => ?_, fun hm => ?_⟩
  · rw [dispatch_of_request (hget true) hi hpor rfl hm, State.setDev_setDev, txfail_eq]
    rfl
  · cases hmode : isUnrecognised d.mode with
    | true =>
      rw [dispatch_of_unrecognised (hget true) hi hpor hmode, dispatch_of_unrecognised (hget false) hi hpor hmode,
        State.setDev_setDev, State.setDev_setDev]
      rfl
    | false =>
      rw [dispatch_of_events (hget true) hi hpor hmode fun _ => hm,
        dispatch_of_events (hget false) hi hpor hmode fun _ => hm, State.setDev_setDev, State.setDev_setDev]
      rfl

theorem recognised_of_rx {m : BitVec 4} (h : isRxInProgress m = true) : isUnrecognised m = false ∧ m ≠ txData := by
  revert m
  decide

/-- Settles O31: a fault leads to a terminal mode; without one the handlers of the other direction drop out. -/
theorem handlersActInFixedOrder : Obligations.HandlersActInFixedOrder := by
  intro s hnd dev is1 is2 d hd hi hreq hpor S entered fires
  have hentered : entered.devs[hnd.toNat]? = some (d.enterDispatcher dev is1 is2) := State.setDev_get_same s _ d _ hd
  have hrun (hm : isUnrecognised d.mode = false) :
      dispatch hnd dev is1 is2 s = fireAll S (orderedEvents hnd) entered :=
    dispatch_eq_fireAll hd hi hpor hm hreq dev is1
  have htx (hm : d.mode = txData) : isUnrecognised d.mode = false := by rw [hm]; rfl
  refine ⟨fun hm hf => ?_, fun hm h23 h22 => ?_, fun hm hf => ?_, fun hm h23 h22 => ?_⟩
  · rw [hrun (recognised_of_rx hm).1]
    exact fireAll_of_fault hentered hi (.inl hm) hf
  · rw [hrun (recognised_of_rx hm).1, fireAll_rx hentered (recognised_of_rx hm).2 h23 h22]
    simp only [fireAll_cons_cons, fireAll_singleton]
    rfl
  · rw [hrun (htx hm)]
    exact fireAll_of_fault hentered hi (.inr hm) hf
  · rw [hrun (htx hm), fireAll_tx hentered hm h23 h22]
    simp only [fireAll_cons_cons, fireAll_singleton]
    rfl

/-! ## What one invocation of the dispatcher can do -/

/-- The most transfers an event makes on the bus (spec/40_link_state_machine.md R135). -/
def transfersOf : Instr → Nat
  | .evSwdet _ | .evRxffafull _ | .evPkvalid _ => 2
  | .evTxffaem _ => 1
  | _ => 0

theorem fifoFault_bus (d : Context) : (fifoFault d).bus = d.bus := by
  unfold fifoFault
  split_ifs <;> simp

theorem latch_bus_length (p : Params) (h : Nat) (d : Context) : (latch p h d).bus.length = d.bus.length + 2 := by
  obtain ⟨ops, hlen, hbus⟩ := latch_bus p h d
  rw [hbus, List.length_append, hlen]

theorem regRead_bus_length (d : Context) (h : Nat) (r : ChipReg) :
    (d.regRead h r).bus.length = d.bus.length + 1 := by simp

theorem burstRead_bus_length (d : Context) (h : Nat) (r : ChipReg) (n : Nat) :
    (d.burstRead h r n).bus.length ≤ d.bus.length + 1 := by
  rw [Context.burstRead_bus, List.length_append]
  split <;> simp

theorem fifoWrite_bus_length (d : Context) (bytes : List U8) :
    (d.fifoWrite bytes).bus.length ≤ d.bus.length + 1 := by
  rw [Context.fifoWrite_bus, List.length_append]
  split <;> simp

section
variable {s t : State} {hnd : U8} {d : Context} {n : Nat}

/-- The device of a next state, where the result has one, made at most `n` transfers since `d`. -/
def TransfersAtMost (hnd : U8) (d : Context) (n : Nat) (r : Res) : Prop :=
  ∀ t, r = .next t → ∃ e, t.devs[hnd.toNat]? = some e ∧ e.bus.length ≤ d.bus.length + n

theorem transfersAtMost_idle (hd : s.devs[hnd.toNat]? = some d) : TransfersAtMost hnd d n (.next s) := by
  rintro t ⟨⟩
  exact ⟨d, hd, Nat.le_add_right _ _⟩

theorem transfersAtMost_setDev (hd : s.devs[hnd.toNat]? = some d) {e : Context} {b : Memory}
    (hn : e.bus.length ≤ d.bus.length + n) :
    TransfersAtMost hnd d n (.next { s.setDev hnd.toNat e with buf := b }) := by
  rintro t ⟨⟩
  exact ⟨e, State.setDev_get_same s _ d e hd, hn⟩

theorem onEvent_transfers (hd : s.devs[hnd.toNat]? = some d) {rule : Nat → Context → Res}
    (hrule : TransfersAtMost hnd d n (rule hnd.toNat d)) : TransfersAtMost hnd d n (onEvent hnd s rule) := by
  intro t ht
  obtain rfl | ⟨d', hd', -, ht⟩ := onEvent_eq_next ht
  · exact transfersAtMost_idle hd _ rfl
  · cases hd.symm.trans hd'
    exact hrule t ht

/-- RXFAIL after the length read. -/
theorem rxfail_transfers (hd : s.devs[hnd.toNat]? = some d) :
    TransfersAtMost hnd d 2 (.next (s.setDev hnd.toNat (rxfail (d.regRead hnd.toNat .rxlen)))) := by
  refine transfersAtMost_setDev hd ?_
  rw [rxfail_bus, regRead_bus_length]
  omega

theorem rxDrain_transfers (hd : s.devs[hnd.toNat]? = some d) :
    TransfersAtMost hnd d 2 (rxDrain hnd.toNat d s) := by
  intro t ht
  obtain ⟨-, rfl⟩ | ⟨-, k, -, -, rfl⟩ := rxDrain_eq_next ht
  · exact rxfail_transfers hd _ rfl
  · have hburst := burstRead_bus_length (d.regRead hnd.toNat .rxlen) hnd.toNat .fifo s.params.rxWm
    rw [regRead_bus_length] at hburst
    exact transfersAtMost_setDev hd hburst _ rfl

theorem rxFinish_transfers (hd : s.devs[hnd.toNat]? = some d) :
    TransfersAtMost hnd d 2 (rxFinish hnd.toNat d s) := by
  intro t ht
  obtain ⟨-, rfl⟩ | ⟨-, k, -, -, rfl⟩ := rxFinish_eq_next ht
  · exact rxfail_transfers hd _ rfl
  · have hburst := burstRead_bus_length (d.regRead hnd.toNat .rxlen) hnd.toNat .fifo
      ((d.peekByte hnd.toNat).toNat - d.rxWr.toNat)
    rw [regRead_bus_length] at hburst
    refine transfersAtMost_setDev hd ?_ _ rfl
    rw [Context.signalLink_bus, promoteOrDiscard_bus]
    exact hburst

theorem txAlmostEmpty_transfers (hd : s.devs[hnd.toNat]? = some d) :
    TransfersAtMost hnd d 1 (txAlmostEmpty hnd.toNat d s) := by
  intro t ht
  obtain ⟨-, rfl⟩ | ⟨-, k, -, -, rfl⟩ := txAlmostEmpty_eq_next ht
  · exact transfersAtMost_idle hd _ rfl
  · refine transfersAtMost_setDev (b := s.buf) hd ?_ _ rfl
    exact fifoWrite_bus_length d _

/-- An event makes no more transfers than its kind allows. -/
theorem event_transfers {e : Nat × Instr} (he : e ∈ orderedEvents hnd) (hd : s.devs[hnd.toNat]? = some d) :
    TransfersAtMost hnd d (transfersOf e.2) (exec e.2 s) := by
  have hfault : TransfersAtMost hnd d 0 (.next (s.setDev hnd.toNat (fifoFault d))) :=
    transfersAtMost_setDev hd (fifoFault_bus d ▸ Nat.le_refl _)
  obtain rfl | rfl | rfl | rfl | rfl | rfl | rfl | rfl := mem_orderedEvents.mp he <;>
    simp only [exec, execEvFfovfl, execEvFfunfl, execEvPreaval, execEvSwdet, execEvRxffafull, execEvTxffaem,
      execEvPkvalid, execEvPksent]
  · exact onEvent_transfers hd hfault
  · exact onEvent_transfers hd hfault
  · refine onEvent_transfers hd ?_
    split
    · exact transfersAtMost_setDev hd (Nat.le_refl _)
    · exact transfersAtMost_idle hd
  · refine onEvent_transfers hd ?_
    split
    · exact transfersAtMost_setDev hd (latch_bus_length s.params _ d).le
    · exact transfersAtMost_idle hd
  · refine onEvent_transfers hd ?_
    split_ifs
    · exact transfersAtMost_setDev hd ((burstRead_bus_length d _ _ _).trans (Nat.le_succ _))
    · exact rxDrain_transfers hd
    · exact transfersAtMost_idle hd
  · refine onEvent_transfers hd ?_
    split
    · exact txAlmostEmpty_transfers hd
    · exact transfersAtMost_idle hd
  · refine onEvent_transfers hd ?_
    split
    · exact rxFinish_transfers hd
    · exact transfersAtMost_idle hd
  · refine onEvent_transfers hd ?_
    split
    · exact transfersAtMost_setDev hd (by simp)
    · exact transfersAtMost_idle hd

theorem runEvents_transfers {l : List (Nat × Instr)} (hl : l ⊆ orderedEvents hnd) (hd : s.devs[hnd.toNat]? = some d) :
    TransfersAtMost hnd d (l.map fun e => transfersOf e.2).sum (runEvents (l.map Prod.snd) s) := by
  induction l generalizing s d with
  | nil => exact transfersAtMost_idle hd
  | cons e l ih =>
    intro t ht
    obtain ⟨he, hl⟩ := List.cons_subset.mp hl
    obtain ⟨u, hu, ht⟩ := bindRes_eq_next.mp ht
    obtain ⟨d', hd', hfirst⟩ := event_transfers he hd u hu
    obtain ⟨d'', hd'', hrest⟩ := ih hl hd' t ht
    refine ⟨d'', hd'', ?_⟩
    rw [List.map_cons, List.sum_cons]
    omega

/-- All events of one status word together make at most seven transfers. -/
theorem decodeStatus_transfers {S : StatusWord} (h : S.getLsbD bitPor = false) (hd : s.devs[hnd.toNat]? = some d) :
    TransfersAtMost hnd d 7 (runEvents (decodeStatus hnd S) s) := by
  have hsub := List.filter_sublist (l := orderedEvents hnd) (p := fun e => S.getLsbD e.1)
  have hsum := (hsub.map fun e => transfersOf e.2).sum_le_sum fun _ _ => Nat.zero_le _
  have hseven : ((orderedEvents hnd).map fun e => transfersOf e.2).sum = 7 := rfl
  intro t ht
  rw [decodeStatus_of_no_por h] at ht
  obtain ⟨e, he, hn⟩ := runEvents_transfers hsub.subset hd t ht
  exact ⟨e, he, by omega⟩

/-- What one invocation of the dispatcher can make of its device (R121, R134, R135). -/
structure DispatchEffect (d e : Context) : Prop where
  moves : e.mode = d.mode ∨ (dispatcherMove d.mode e.mode = true ∧ d.initialized = true)
  terminal : isTerminal e.mode = true → e.mode ≠ d.mode → e.sigLink = true
  signal : d.sigLink = true → e.sigLink = true
  txdone : e.sigTxdone = d.sigTxdone
  counted : e.errorCount = d.errorCount ∨ (e.errorCount = d.errorCount + 1#32 ∧ e.mode = rxError)
  transfers : e.bus.length ≤ d.bus.length + 9

/-- An invocation that leaves `mode`, the signals and the count of faults. -/
theorem DispatchEffect.of_idle {d e : Context} (hm : e.mode = d.mode) (hlink : e.sigLink = d.sigLink)
    (hdone : e.sigTxdone = d.sigTxdone) (hcount : e.errorCount = d.errorCount)
    (hbus : e.bus.length ≤ d.bus.length + 9) : DispatchEffect d e :=
  ⟨.inl hm, fun _ hne => absurd hm hne, fun h => hlink.trans h, hdone, .inl hcount, hbus⟩

theorem enterDispatcher_bus_length (d : Context) (dev is1 is2 : U8) :
    (d.enterDispatcher dev is1 is2).bus.length = d.bus.length + 1 := by simp

theorem dispatcherMove_of_unrecognised {m : BitVec 4} (h : isUnrecognised m = true) :
    dispatcherMove m rxWaitPreamble = true := by
  revert m
  decide

/-- Events after the status burst: what they make of the device, and at most seven transfers. -/
theorem DispatchEffect.of_events {dev is1 is2 : U8} {e : Context} (hi : d.initialized = true)
    (he : EventEffect { d.enterDispatcher dev is1 is2 with txtimeoutReq := false } e)
    (hbus : e.bus.length ≤ (d.enterDispatcher dev is1 is2).bus.length + 7) : DispatchEffect d e where
  moves := he.moves.imp_right fun ⟨hmove, _⟩ => ⟨hmove, hi⟩
  terminal := he.terminal
  signal := he.signal
  txdone := by
    rw [he.frame]
    rfl
  counted := he.counted.imp_right fun ⟨hone, hm, _⟩ => ⟨hone, hm⟩
  transfers := by
    rw [enterDispatcher_bus_length] at hbus
    omega

/-- Everything one invocation of the dispatcher can do: it writes its device, within these bounds, and the BUF memory. -/
theorem dispatch_effect {dev is1 is2 : U8} (hd : s.devs[hnd.toNat]? = some d)
    (ht : dispatch hnd dev is1 is2 s = .next t) :
    ∃ e b, t = { s.setDev hnd.toNat e with buf := b } ∧ DispatchEffect d e := by
  have henter := enterDispatcher_bus_length d dev is1 is2
  cases hi : d.initialized with
  | false =>
    cases (dispatch_of_uninitialized hd hi).symm.trans ht
    exact ⟨_, s.buf, rfl, .of_idle rfl rfl rfl rfl (Nat.le_add_right _ _)⟩
  | true =>
    cases hpor : is2.getLsbD 0 with
    | true =>
      cases (dispatch_of_por hd hi hpor).symm.trans ht
      exact ⟨_, s.buf, rfl, .of_idle rfl rfl rfl rfl (by dsimp only; omega)⟩
    | false =>
      cases hm : isUnrecognised d.mode with
      | true =>
        cases (dispatch_of_unrecognised hd hi hpor hm).symm.trans ht
        refine ⟨_, s.buf, rfl, .inr ⟨dispatcherMove_of_unrecognised hm, hi⟩, (fun h => nomatch h), id, rfl, .inl rfl, ?_⟩
        rw [rxarm_bus_length]
        dsimp only
        omega
      | false =>
        by_cases hreq : d.txtimeoutReq = true ∧ d.mode = txData
        · obtain ⟨hreq, htx⟩ := hreq
          cases (dispatch_of_request hd hi hpor hreq htx).symm.trans ht
          refine ⟨_, s.buf, rfl, .inr ⟨?_, hi⟩, fun _ _ => rfl, fun _ => rfl, rfl, .inl rfl, ?_⟩
          · rw [htx]
            rfl
          · rw [txfail_bus]
            dsimp only
            omega
        · have hflag := statusWord_no_por hpor dev is1
          rw [dispatch_of_events hd hi hpor hm (not_and.mp hreq)] at ht
          have hentered := State.setDev_get_same s _ d { d.enterDispatcher dev is1 is2 with txtimeoutReq := false } hd
          obtain ⟨e, b, rfl, he⟩ := runEvents_effect (fun _ => mem_decodeStatus hflag) hentered ht
          obtain ⟨e', he', hbus⟩ := decodeStatus_transfers hflag hentered _ ht
          cases (State.setDev_get_same _ _ _ e hentered).symm.trans he'
          exact ⟨e, b, by rw [State.setDev_setDev], .of_events hi he hbus⟩

end

/-- Settles O32: by the effect of an invocation. -/
theorem terminalEntrySignals : Obligations.TerminalEntrySignals := by
  intro s t hnd dev is1 is2 d e hd ht he
  obtain ⟨e', b, rfl, heffect⟩ := dispatch_effect hd ht
  cases (State.setDev_get_same s _ d e' hd).symm.trans he
  exact heffect.terminal

/-- Settles O33: one status burst, then RXARM's eight writes or at most seven transfers of events. -/
theorem dispatcherWorkIsBounded : Obligations.DispatcherWorkIsBounded := by
  intro s t hnd dev is1 is2 d e hd ht he
  obtain ⟨e', b, rfl, heffect⟩ := dispatch_effect hd ht
  cases (State.setDev_get_same s _ d e' hd).symm.trans he
  exact ⟨heffect.transfers, rfl, rfl, rfl, rfl, heffect.txdone, heffect.signal, heffect.counted⟩

end Sys2Proof.Machine
end

