-- ==== Sys2Proof/Proofs/ModeTable.lean ====
section
/-! PROOF. The transition table and its agents (spec/40_link_state_machine.md R121, spec/10_state.md R46). A unit writes at
most one Device Context, so each operation says once what it makes of the one it writes: the same mode, or a move that its
rows of the table allow (`MovesOnly`). A step is then told apart by its input. -/

namespace Sys2Proof.Machine

/-! ## Results -/

/-- A next state, where the result has one, holds the Device Contexts of `s`, but for that of device `h`: this one may be
another, of the same mode or of one that `R` allows. -/
def MovesOnly (h : Nat) (R : Context → Context → Prop) (s : State) (r : Res) : Prop :=
  ∀ t, r = .next t → t.devs = s.devs ∨
    ∃ d e, s.devs[h]? = some d ∧ t.devs = s.devs.set h e ∧ (e.mode = d.mode ∨ R d e)

section
variable {s t : State} {h : Nat} {d e : Context} {R : Context → Context → Prop} {r : Res}

theorem movesOnly_of_devs_eq (ht : t.devs = s.devs) : MovesOnly h R s (.next t) := by
  rintro u ⟨⟩
  exact .inl ht

theorem movesOnly_of_set (hd : s.devs[h]? = some d) (ht : t.devs = s.devs.set h e) (hm : e.mode = d.mode ∨ R d e) :
    MovesOnly h R s (.next t) := by
  rintro u ⟨⟩
  exact .inr ⟨d, e, hd, ht, hm⟩

theorem MovesOnly.mono {R' : Context → Context → Prop} (hr : MovesOnly h R s r) (hR : ∀ d e, R d e → R' d e) :
    MovesOnly h R' s r := by
  intro t ht
  obtain hsame | ⟨d, e, hd, hset, hm⟩ := hr t ht
  · exact .inl hsame
  · exact .inr ⟨d, e, hd, hset, hm.imp_right (hR d e)⟩

/-- Where a device changes mode, it is device `h`, by a move that `R` allows. -/
theorem MovesOnly.mode_change (hr : MovesOnly h R s r) (ht : r = .next t) {j : Nat} (hd : s.devs[j]? = some d)
    (he : t.devs[j]? = some e) (hne : e.mode ≠ d.mode) : j = h ∧ R d e := by
  obtain hsame | ⟨d', e', hd', hset, hm⟩ := hr t ht
  · rw [hsame, hd] at he
    cases he
    exact absurd rfl hne
  · rw [hset] at he
    by_cases hj : j = h
    · subst hj
      cases hd.symm.trans hd'
      obtain ⟨hlt, -⟩ := List.getElem?_eq_some_iff.mp hd
      rw [List.getElem?_set_self hlt] at he
      cases he
      exact ⟨rfl, hm.resolve_left hne⟩
    · rw [List.getElem?_set_ne (Ne.symm hj), hd] at he
      cases he
      exact absurd rfl hne

theorem onCommand_movesOnly {opc hnd : U8} {rule : Nat → Context → Res}
    (hrule : ∀ d, s.devs[hnd.toNat]? = some d → MovesOnly hnd.toNat R s (rule hnd.toNat d)) :
    MovesOnly hnd.toNat R s (onCommand opc hnd s rule) := by
  intro t ht
  obtain ⟨-, rfl⟩ | ⟨d, hd, ht⟩ := onCommand_eq_next ht
  · exact .inl rfl
  · exact hrule d hd t ht

/-! ## PHY commands and bring-up -/

theorem applyPhyOps_mode (d : Context) (ops : List PhyOp) : (applyPhyOps d ops).mode = d.mode := by
  rw [applyPhyOps_frame]

theorem runPhy_devs (h : Nat) (job : PhyJob) (d : Context) (s : State) :
    ∃ e, (runPhy h job d s).devs = s.devs.set h e ∧ e.mode = d.mode := by
  unfold runPhy
  split
  · exact ⟨_, rfl, applyPhyOps_mode _ _⟩
  · split
    · exact ⟨_, rfl, applyPhyOps_mode _ _⟩
    · exact ⟨_, rfl, applyPhyOps_mode _ _⟩

theorem resumePhy_movesOnly (hd : s.devs[h]? = some d) (j : Nat) :
    MovesOnly h R s (.next (resumePhy h j d s)) := by
  unfold resumePhy
  split
  · exact movesOnly_of_devs_eq rfl
  · obtain ⟨e, hset, hm⟩ := runPhy_devs h _ { d with phyJobs := d.phyJobs.eraseIdx j } s
    exact movesOnly_of_set hd hset (.inl hm)

/-- Row T13: a successful bring-up ends in RX_WAIT_PREAMBLE. -/
def BroughtUp (e : Context) : Prop := e.mode = rxWaitPreamble ∧ e.initialized = true

theorem bringup_devs (h : Nat) (d : Context) (s : State) :
    ∃ e, (bringup h d s).2.devs = s.devs.set h e ∧ (e.mode = d.mode ∨ BroughtUp e) := by
  obtain ⟨hpool, -⟩ := bringupPool_frame d s
  unfold bringup
  dsimp only
  split_ifs
  · exact ⟨_, rfl, .inl (bringupProbed_mode _ _ _)⟩
  · exact ⟨_, rfl, .inl (bringupProbed_mode _ _ _)⟩
  · exact ⟨_, by rw [State.setDev_devs, hpool], .inl (bringupProbed_mode _ _ _)⟩
  · refine ⟨_, by rw [State.setDev_devs, hpool], .inr ?_⟩
    have hchecked := bringupProgram_checked s.params (Config.hash32 s.serial) (bringupBuffer d s)
      (bringupProbed s.params h d)
    simp only [Context.checked, Prod.mk.injEq] at hchecked
    obtain ⟨hmode, hinit, -⟩ := hchecked
    exact ⟨hmode, hinit⟩

theorem wakeStranded_devs (hd : s.devs[h]? = some d) (was : Bool) :
    ∃ e, (wakeStranded h was s).devs = s.devs.set h e ∧ e.mode = d.mode ∧ e.initialized = d.initialized := by
  unfold wakeStranded
  rw [hd]
  cases was with
  | true => exact ⟨_, rfl, rfl, rfl⟩
  | false => exact ⟨d, congrArg State.devs (State.setDev_self hd).symm, rfl, rfl⟩

theorem execInit_movesOnly (hnd : U8) (s : State) :
    MovesOnly hnd.toNat (fun _ => BroughtUp) s (execInit hnd s) := by
  refine onCommand_movesOnly fun d hd => ?_
  split
  · exact movesOnly_of_devs_eq rfl
  · obtain ⟨e, hset, hm⟩ := bringup_devs hnd.toNat (initContext s.settings d) s
    exact movesOnly_of_set hd hset hm

theorem execForceReset_movesOnly (hnd : U8) (s : State) :
    MovesOnly hnd.toNat (fun _ => BroughtUp) s (execForceReset hnd s) := by
  refine onCommand_movesOnly fun d hd => ?_
  obtain ⟨hpool, -⟩ := recyclePool_frame d s
  obtain ⟨e, hset, hm⟩ := bringup_devs hnd.toNat (recycleSlots { d with resetCount := d.resetCount + 1#16 })
    (recyclePool d s)
  rw [hpool] at hset
  obtain ⟨hlt, -⟩ := List.getElem?_eq_some_iff.mp hd
  obtain ⟨e', hset', hmode, hinit⟩ := wakeStranded_devs (hset ▸ List.getElem?_set_self hlt) d.sendWait
  rw [hset, List.set_set] at hset'
  refine movesOnly_of_set hd hset' (hm.imp (fun h => hmode.trans h) fun h => ?_)
  exact ⟨hmode.trans h.1, hinit.trans h.2⟩

/-! ## Commands -/

/-- SET_DATARATE, SET_CARRIER, SET_TXPOWER: refused, or run as a PHY command. -/
theorem phyCommand_movesOnly (opc hnd : U8) (job : Context → PhyJob) (s : State) :
    MovesOnly hnd.toNat R s (onCommand opc hnd s fun h d =>
      .next (if d.initialized then runPhy h (job d) d s else s.respond opc hnd .errNotInit 0#32)) := by
  refine onCommand_movesOnly fun d hd => ?_
  split
  · obtain ⟨e, hset, hm⟩ := runPhy_devs hnd.toNat (job d) d s
    exact movesOnly_of_set hd hset (.inl hm)
  · exact movesOnly_of_devs_eq rfl

/-- GET_DEVICE_ID, GET_RSSI, GET_RESET_COUNT, GET_CARRIER. -/
theorem readout_movesOnly (opc hnd : U8) (value : Context → U32) (s : State) :
    MovesOnly hnd.toNat R s (onCommand opc hnd s fun _ d => .next (s.respond opc hnd .ok (value d))) :=
  onCommand_movesOnly fun _ _ => movesOnly_of_devs_eq rfl

theorem execSend_movesOnly (hnd : U8) (packet timeoutMs : U32) (s : State) :
    MovesOnly hnd.toNat R s (execSend hnd packet timeoutMs s) := by
  refine onCommand_movesOnly fun d hd => ?_
  split
  · exact movesOnly_of_devs_eq rfl
  · split_ifs
    · exact movesOnly_of_devs_eq rfl
    · exact movesOnly_of_devs_eq rfl
    · exact movesOnly_of_set hd rfl (.inl rfl)

theorem execReceive_movesOnly (hnd : U8) (timeoutMs : U32) (s : State) :
    MovesOnly hnd.toNat R s (execReceive hnd timeoutMs s) := by
  refine onCommand_movesOnly fun d hd => ?_
  split_ifs
  · exact movesOnly_of_devs_eq rfl
  · exact movesOnly_of_devs_eq rfl
  · exact movesOnly_of_set hd rfl (.inl rfl)
  · exact movesOnly_of_set hd rfl (.inl rfl)

/-- The move of an operation presented as a frame: the bring-up of INIT and of FORCE_RESET, each on its port. -/
def CommandMove (port : Port) (opc : U8) (e : Context) : Prop :=
  BroughtUp e ∧ (port = .command ∧ opc = 0x01#8 ∨ port = .supervisor ∧ opc = 0x20#8)

theorem exec_command_movesOnly {i : Instr} {opc : U8} (hopc : opcOf i = some opc) (s : State) :
    MovesOnly i.hnd.toNat (fun _ => CommandMove (portOf i) opc) s (exec i s) := by
  cases i with
  | init hnd =>
    cases hopc
    exact (execInit_movesOnly hnd s).mono fun _ _ h => ⟨h, .inl ⟨rfl, rfl⟩⟩
  | forceReset hnd =>
    cases hopc
    exact (execForceReset_movesOnly hnd s).mono fun _ _ h => ⟨h, .inr ⟨rfl, rfl⟩⟩
  | send hnd packet timeoutMs => exact execSend_movesOnly hnd packet timeoutMs s
  | receive hnd timeoutMs => exact execReceive_movesOnly hnd timeoutMs s
  | getDeviceId hnd => exact readout_movesOnly _ hnd (fun d => d.cfg.deviceId) s
  | getRssi hnd => exact readout_movesOnly _ hnd (fun d => sext32 d.rssiLast) s
  | getResetCount hnd => exact readout_movesOnly _ hnd (fun d => zext32 d.resetCount) s
  | getCarrier hnd => exact readout_movesOnly _ hnd (fun d => regsToFreq s.params d.phy.band d.phy.chan) s
  | setDatarate hnd bps =>
    exact phyCommand_movesOnly _ hnd (fun _ => ⟨0x10#8, hnd, datarateValue s.params bps, datarateOps s.params bps⟩) s
  | setCarrier hnd hz =>
    exact phyCommand_movesOnly _ hnd (fun d => ⟨0x11#8, hnd, carrierValue d.cfg hz, carrierOps s.params d.cfg hz⟩) s
  | setTxpower hnd level =>
    exact phyCommand_movesOnly _ hnd
      (fun _ => ⟨0x13#8, hnd, (saturateLevel level).zeroExtend 32, txpowerOps s.params level⟩) s
  | evFfovfl | evFfunfl | evTxffaem | evRxffafull | evPksent | evPkvalid | evSwdet | evPreaval | evPor =>
    exact nomatch hopc

/-- A frame on a port moves a device only by a bring-up that this port offers. -/
theorem runFrame_movesOnly (port : Port) (f : Frame) (s : State) :
    MovesOnly f.hnd.toNat (fun _ => CommandMove port f.opc) s (runFrame port f s) := by
  unfold runFrame
  split
  · exact movesOnly_of_devs_eq rfl
  · split
    · exact movesOnly_of_devs_eq rfl
    · rename_i i hdec
      obtain ⟨-, hsel, hport⟩ := decodeFrame_eq_ok_iff.mp hdec
      obtain ⟨hopc, hhnd, -⟩ := selectOperation_eq_some_iff.mp hsel
      rw [← hhnd, ← hport]
      exact exec_command_movesOnly hopc s

/-! ## The agents -/

/-- Row T8: from TX_DATA to TX_ERROR, for the SEND whose wait is over (R136). -/
def SendMove (d e : Context) : Prop :=
  d.mode = txData ∧ e.mode = txError ∧
    d.initialized = true ∧ d.sendWait = true ∧ d.sigTxdone = false ∧ d.sendTimer = 0#32

/-- Rows T10 and T11: the woken sequencer starts the queued packet or arms reception (spec/43_bridge_api.md R215). -/
def ReceiveMove (d e : Context) : Prop :=
  d.recvWait = true ∧ d.sigLink = true ∧ d.initialized = true ∧
    ((d.txq ≠ none ∧ e.mode = txData) ∨ (d.txq = none ∧ e.mode = rxWaitPreamble))

/-- DISPATCH with a timeout request pending in TX_DATA: nothing but a power-on reset keeps it from TX_ERROR. -/
theorem dispatch_of_request_devs {hnd : U8} (hd : s.devs[hnd.toNat]? = some d) (hreq : d.txtimeoutReq = true)
    (hm : d.mode = txData) (dev is1 is2 : U8) :
    ∃ e, dispatch hnd dev is1 is2 s = .next (s.setDev hnd.toNat e) ∧
      (e.mode = d.mode ∨ (e.mode = txError ∧ d.initialized = true)) := by
  cases hi : d.initialized with
  | false => exact ⟨_, dispatch_of_uninitialized hd hi, .inl rfl⟩
  | true =>
    cases hpor : is2.getLsbD 0 with
    | true => exact ⟨_, dispatch_of_por hd hi hpor, .inl rfl⟩
    | false => exact ⟨_, dispatch_of_request hd hi hpor hreq hm, .inr ⟨rfl, rfl⟩⟩

/-- SEND_ABORT (spec/43_bridge_api.md R211) by what it makes of its device. -/
theorem sendAbort_devs {hnd : U8} (hd : s.devs[hnd.toNat]? = some d) :
    ∃ e, sendAbort hnd d s = .next (s.setDev hnd.toNat e) ∧
      (e.mode = d.mode ∨ (d.mode = txData ∧ e.mode = txError ∧ d.initialized = true)) := by
  unfold sendAbort
  split_ifs with hqueued hflight
  · exact ⟨_, rfl, .inl rfl⟩
  · obtain ⟨-, -, hm⟩ := hflight
    have hraised := State.setDev_get_same s _ d { d with txtimeoutReq := true } hd
    unfold dispatchOwn
    rw [hraised]
    dsimp only
    split_ifs with hi
    · exact ⟨{ d with txtimeoutReq := false }, by rw [State.setDev_setDev], .inl rfl⟩
    · have hdropped := State.setDev_get_same s _ d (Context.drop { d with txtimeoutReq := true } 3) hd
      rw [State.setDev_setDev]
      obtain ⟨e, he, hmove⟩ := dispatch_of_request_devs hdropped rfl hm _ _ _
      exact ⟨e, by rw [he, State.setDev_setDev], hmove.imp_right fun h => ⟨hm, h⟩⟩
  · exact ⟨d, by rw [State.setDev_self hd], .inl rfl⟩

theorem endSend_of_some (hd : s.devs[h]? = some d) :
    endSend h s = s.setDev h { d with sendWait := false, sendPkt := none } := by
  rw [endSend, hd]

theorem sendComplete_movesOnly {hnd : U8} (hd : s.devs[hnd.toNat]? = some d) :
    MovesOnly hnd.toNat SendMove s (sendComplete hnd d s) := by
  have hended (e : Context) := endSend_of_some (State.setDev_get_same s _ d e hd)
  unfold sendComplete
  dsimp only
  split
  · exact movesOnly_of_devs_eq rfl
  · rename_i hwait
    split
    · rw [hended, State.setDev_setDev]
      exact movesOnly_of_set hd rfl (.inl rfl)
    · rename_i hdone
      split
      · rename_i htimer
        obtain ⟨e, he, hmove⟩ := sendAbort_devs hd
        rw [he, bindRes_next, hended, State.setDev_setDev]
        refine movesOnly_of_set hd rfl (hmove.imp_right fun ⟨hm, hm', hi⟩ => ?_)
        exact ⟨hm, hm', hi, by simpa using hwait, by simpa using hdone, htimer⟩
      · exact movesOnly_of_devs_eq rfl

/-- NEXT (R215) on the Device Context `e` that WAKE hands it. -/
theorem wakeNext_devs {e : Context} (ht : wakeNext h e s = .next t) :
    ∃ e', t = s.setDev h e' ∧ ((e.txq ≠ none ∧ e'.mode = txData) ∨ (e.txq = none ∧ e'.mode = rxWaitPreamble)) := by
  obtain ⟨hq, rfl⟩ | ⟨hq, ht⟩ := wakeNext_eq_next ht
  · exact ⟨_, rfl, .inr ⟨hq, rfl⟩⟩
  · obtain ⟨k, -, -, rfl⟩ := txstart_eq_next ht
    exact ⟨_, rfl, .inl ⟨hq, rfl⟩⟩

theorem receiveComplete_movesOnly {hnd : U8} (hd : s.devs[hnd.toNat]? = some d) :
    MovesOnly hnd.toNat ReceiveMove s (receiveComplete hnd d s) := by
  unfold receiveComplete receiveWoken
  split_ifs with hwait hlink hinit htimer
  · exact movesOnly_of_devs_eq rfl
  · exact movesOnly_of_set hd rfl (.inl rfl)
  · intro t ht
    obtain ⟨u, hu, ht⟩ := bindRes_eq_next.mp ht
    obtain ⟨e, rfl, hmove⟩ := wakeNext_devs hu
    refine movesOnly_of_set hd rfl (.inr ⟨by simpa using hwait, hlink, by simpa using hinit, ?_⟩) t ht
    simpa using hmove
  · exact movesOnly_of_set hd rfl (.inl rfl)
  · exact movesOnly_of_devs_eq rfl

/-- The move of an agent's unit. -/
def AgentMove (a : Agent) (d e : Context) : Prop :=
  (a = .send ∧ SendMove d e) ∨ (a = .receive ∧ ReceiveMove d e)

/-- An agent whose unit moves its device is enabled (spec/43_bridge_api.md R203). -/
theorem AgentMove.enabled {a : Agent} (hmove : AgentMove a d e) : a ∈ enabledAgents d := by
  obtain ⟨rfl, -, -, -, hwait, -, htimer⟩ | ⟨rfl, hwait, hlink, -⟩ := hmove
  · simp [enabledAgents, hwait, htimer]
  · simp [enabledAgents, hwait, hlink]

/-- With no timeout request left over, only the ends of the two waits move a device. -/
theorem runAgent_movesOnly (hs : s.Inv) (hnd : U8) (a : Agent) :
    MovesOnly hnd.toNat (AgentMove a) s (runAgent hnd a s) := by
  unfold runAgent
  split
  · exact movesOnly_of_devs_eq rfl
  · rename_i d hd
    cases a with
    | send => exact (sendComplete_movesOnly hd).mono fun _ _ h => .inl ⟨rfl, h⟩
    | receive => exact (receiveComplete_movesOnly hd).mono fun _ _ h => .inr ⟨rfl, h⟩
    | dispatcher =>
      dsimp only
      rw [(hs.ok hd).no_timeout]
      exact movesOnly_of_devs_eq rfl
    | phy j => exact resumePhy_movesOnly hd j

/-- With nothing from outside, a mode changes by an agent of its device. -/
theorem runOwnAgents_mode_change (hs : s.Inv) (ht : runOwnAgents s = .next t) {j : Nat} (hd : s.devs[j]? = some d)
    (he : t.devs[j]? = some e) (hne : e.mode ≠ d.mode) : ∃ a, AgentMove a d e := by
  unfold runOwnAgents at ht
  split at ht
  · cases ht
    exact absurd (Option.some.inj (he.symm.trans hd)) fun h => hne (congrArg Context.mode h)
  · exact ⟨_, ((runAgent_movesOnly hs _ _).mode_change ht hd he hne).2⟩
  · have hs' : State.Inv { s with turns := s.turns + 1 } := { hs with }
    exact ⟨_, ((runAgent_movesOnly hs' _ _).mode_change ht hd he hne).2⟩

/-! ## The dispatcher and the other inputs -/

theorem dispatch_movesOnly (hnd dev is1 is2 : U8) (s : State) :
    MovesOnly hnd.toNat (fun d e => dispatcherMove d.mode e.mode = true ∧ d.initialized = true) s
      (dispatch hnd dev is1 is2 s) := by
  intro t ht
  cases hd : s.devs[hnd.toNat]? with
  | none =>
    rw [dispatch, hd] at ht
    cases ht
    exact .inl rfl
  | some d =>
    obtain ⟨e, b, rfl, heffect⟩ := dispatch_effect hd ht
    exact .inr ⟨d, e, rfl, rfl, heffect.moves⟩

theorem supervisorRead_devs (h : Nat) (r : SupReg) (s : State) : (supervisorRead h r s).devs = s.devs := by
  unfold supervisorRead
  split <;> rfl

theorem supervisorWrite_movesOnly (h : Nat) (v : U32) (s : State) :
    MovesOnly h R s (.next (supervisorWrite h v s)) := by
  unfold supervisorWrite
  split
  · exact movesOnly_of_devs_eq rfl
  · rename_i d hd
    exact movesOnly_of_set hd rfl (.inl rfl)

/-- What an input that is no agent's turn can move, and of which device. -/
def InputMove (x : Input) (h : Nat) (d e : Context) : Prop :=
  match x with
  | .command f => f.hnd.toNat = h ∧ CommandMove .command f.opc e
  | .supervisor f => f.hnd.toNat = h ∧ CommandMove .supervisor f.opc e
  | .irq hnd _ _ _ => hnd.toNat = h ∧ dispatcherMove d.mode e.mode = true ∧ d.initialized = true
  | _ => False

theorem runInput_mode_change (hs : s.Inv) {x : Input} (ht : runInput x s = .next t) {j : Nat}
    (hd : s.devs[j]? = some d) (he : t.devs[j]? = some e) (hne : e.mode ≠ d.mode) :
    (∃ hnd a, x = .resume hnd a ∧ hnd.toNat = j ∧ AgentMove a d e) ∨ InputMove x j d e := by
  have hsame (h : t.devs = s.devs) : False := by
    rw [h, hd] at he
    cases he
    exact hne rfl
  cases x with
  | command f =>
    obtain ⟨rfl, hmove⟩ := (runFrame_movesOnly .command f s).mode_change ht hd he hne
    exact .inr ⟨rfl, hmove⟩
  | supervisor f =>
    obtain ⟨rfl, hmove⟩ := (runFrame_movesOnly .supervisor f s).mode_change ht hd he hne
    exact .inr ⟨rfl, hmove⟩
  | irq hnd dev is1 is2 =>
    obtain ⟨rfl, hmove⟩ := (dispatch_movesOnly hnd dev is1 is2 s).mode_change ht hd he hne
    exact .inr ⟨rfl, hmove⟩
  | resume hnd a =>
    obtain ⟨rfl, hmove⟩ := (runAgent_movesOnly hs hnd a).mode_change ht hd he hne
    exact .inl ⟨hnd, a, rfl, rfl, hmove⟩
  | tick =>
    cases ht
    rw [List.getElem?_map, hd] at he
    cases he
    exact absurd rfl hne
  | supRead hnd r =>
    cases ht
    exact (hsame (supervisorRead_devs _ r s)).elim
  | supWrite hnd v =>
    exact .inr ((supervisorWrite_movesOnly (R := fun _ _ => False) hnd.toNat v s).mode_change ht hd he hne).2
  | settings | poolTake =>
    cases ht
    exact (hsame rfl).elim
  | bufStore k f v =>
    simp only [runInput, hostStore] at ht
    split at ht
    · cases ht
      exact (hsame rfl).elim
    · exact nomatch ht
  | poolReturn k =>
    cases ht
    refine (hsame ?_).elim
    split <;> rfl

/-- Everything by which a step can change the mode of a device: an agent of the device whose turn it is, or an input. -/
theorem step_mode_change (hs : s.Inv) (ht : step s = .next t) (hd : s.devs[h]? = some d) (he : t.devs[h]? = some e)
    (hne : e.mode ≠ d.mode) :
    (∃ a, agentTurn s h a ∧ AgentMove a d e) ∨ ∃ x rest, s.inputs = x :: rest ∧ InputMove x h d e := by
  unfold step at ht
  split at ht
  case h_1 hin =>
    obtain ⟨a, hmove⟩ := runOwnAgents_mode_change hs ht hd he hne
    exact .inl ⟨a, .inr ⟨hin, d, hd, hmove.enabled⟩, hmove⟩
  case h_2 x rest hin =>
    obtain ⟨hnd, a, rfl, hh, hmove⟩ | hmove := runInput_mode_change (hs.consume hin) ht hd he hne
    · exact .inl ⟨a, .inl ⟨hnd, rest, hh, hin⟩, hmove⟩
    · exact .inr ⟨x, rest, hin, hmove⟩

end

/-- Settles O56: the moves of the agents and of the inputs, each a row of the table. -/
theorem modeChangesOnlyByTheTable : Obligations.ModeChangesOnlyByTheTable := by
  intro s t h d e hs ht hd he hne
  obtain ⟨a, hturn, hmove⟩ | ⟨x, rest, hin, hmove⟩ := step_mode_change hs ht hd he hne
  · obtain ⟨rfl, hfrom, hto, hsend⟩ | ⟨rfl, hreceive⟩ := hmove
    · exact .inr (.inl ⟨hfrom, hto, hturn, hsend⟩)
    · exact .inr (.inr (.inl ⟨hturn, hreceive⟩))
  · cases x with
    | irq hnd dev is1 is2 =>
      obtain ⟨hh, hrow, hi⟩ := hmove
      exact .inl ⟨hrow, hnd, dev, is1, is2, rest, hh, hin, hi⟩
    | command f =>
      obtain ⟨hh, ⟨hm, hi⟩, ⟨-, hopc⟩ | ⟨hport, -⟩⟩ := hmove
      · exact .inr (.inr (.inr ⟨hm, hi, f, rest, hh, .inl ⟨hin, hopc⟩⟩))
      · exact nomatch hport
    | supervisor f =>
      obtain ⟨hh, ⟨hm, hi⟩, ⟨hport, -⟩ | ⟨-, hopc⟩⟩ := hmove
      · exact nomatch hport
      · exact .inr (.inr (.inr ⟨hm, hi, f, rest, hh, .inr ⟨hin, hopc⟩⟩))
    | _ => exact hmove.elim

end Sys2Proof.Machine
end

