-- ==== Sys2Proof/Proofs/RxPipeline.lean ====
section
/-! PROOF. The two events of the RX pipeline, EV_RXFFAFULL and EV_PKVALID (spec/41_rx_pipeline.md R161 to R171). Each
is given by its branches on the Device Context (`rxDrain_of_fits`, `rxFinish_of_fits` and their failing halves), and
what the stores of a branch leave in BUF by lemmas of their own (`Memory.read_writeList_data` and those on
`finishBuffer`). -/

namespace Sys2Proof.Machine

/-! ## The stores -/

/-- Bytes stored in the data field of a buffer, read back at their indices. -/
theorem Memory.read_writeList_data (m : Memory) (k i : Nat) {j : Nat} {bytes : List U8} (hj : j < bytes.length) :
    Memory.read (Memory.writeList m (dataAddr k i) bytes) (dataAddr k (i + j)) = bytes.getD j 0#8 := by
  rw [dataAddr_add, Memory.read_writeList_inside _ _ _ _ hj, List.getD_eq_getElem _ _ hj]

section
variable {m : Memory} {k wr len : Nat} {bytes : List U8} {rssi afc : U8}

theorem finishBuffer_len : Memory.read (finishBuffer m k wr len bytes rssi afc) (lenAddr k) = BitVec.ofNat 8 len :=
  tagBuffer_len _ k len rssi afc

theorem finishBuffer_rssi : Memory.read (finishBuffer m k wr len bytes rssi afc) (dataAddr k len) = rssi :=
  tagBuffer_rssi _ k len rssi afc

theorem finishBuffer_afc : Memory.read (finishBuffer m k wr len bytes rssi afc) (dataAddr k (len + 1)) = afc := by
  rw [dataAddr_add]
  exact tagBuffer_afc _ k len rssi afc

/-- Below the two metadata bytes the data field holds what was there and the bytes stored last. -/
theorem finishBuffer_data {i : Nat} (hi : i < len) :
    Memory.read (finishBuffer m k wr len bytes rssi afc) (dataAddr k i) =
      Memory.read (Memory.writeList m (dataAddr k wr) bytes) (dataAddr k i) := by
  refine tagBuffer_outside _ k len rssi afc _ (lenAddr_lt_dataAddr k i).ne' (.inl ?_)
  simp only [dataAddr]
  omega

/-- Packet valid writes the rest of the payload, the length and the two metadata bytes, nothing else. -/
theorem finishBuffer_outside {a : Nat} (hlen : a ≠ lenAddr k)
    (hdata : a < dataAddr k wr ∨ dataAddr k wr + bytes.length ≤ a)
    (hmeta : a < dataAddr k len ∨ dataAddr k len + 2 ≤ a) :
    Memory.read (finishBuffer m k wr len bytes rssi afc) a = Memory.read m a := by
  rw [finishBuffer, tagBuffer_outside _ _ _ _ _ _ hlen hmeta, Memory.read_writeList_outside _ _ _ _ hdata]

end

/-! ## The procedures by their branches -/

/-- A RegRead whose byte is on the tape. -/
theorem Context.regRead_of_tape {d : Context} {b : U8} {tape : List U8} (ha : d.answers = b :: tape) (h : Nat)
    (r : ChipReg) : d.regRead h r = { d with answers := tape, bus := d.bus ++ [.read r b] } := by
  simp [Context.regRead, Context.peekByte_of_tape ha, ha]

/-- The length check of R163 (a), (b). -/
theorem drainFails_iff {proj len : Nat} {pkvalid : Bool} :
    drainFails proj len pkvalid = true ↔ len < proj ∨ (proj = len ∧ pkvalid = false) := by
  simp [drainFails]

theorem drainFails_of_fits {proj len : Nat} {pkvalid : Bool} (hle : proj ≤ len) (hpk : proj = len → pkvalid = true) :
    drainFails proj len pkvalid = false := by
  refine Bool.eq_false_iff.mpr fun hf => ?_
  obtain hlong | ⟨heq, hclear⟩ := drainFails_iff.mp hf
  · omega
  · exact absurd (hpk heq) (Bool.eq_false_iff.mp hclear)

section
variable {s : State} {h k : Nat} {d : Context}

theorem rxDrain_of_fails
    (hf : drainFails (d.rxWr.toNat + s.params.rxWm) (d.peekByte h).toNat d.pkvalid = true) :
    rxDrain h d s = .next (s.setDev h (rxfail (d.regRead h .rxlen))) := if_pos hf

theorem rxDrain_of_fits
    (hf : drainFails (d.rxWr.toNat + s.params.rxWm) (d.peekByte h).toNat d.pkvalid = false)
    (hk : d.rxActive = some k) (hlt : k < s.params.nBuf) :
    rxDrain h d s = .next { s.setDev h { (d.regRead h .rxlen).burstRead h .fifo s.params.rxWm with
        rxWr := BitVec.ofNat 9 (d.rxWr.toNat + s.params.rxWm) } with
      buf := Memory.writeList s.buf (dataAddr k d.rxWr.toNat) ((d.regRead h .rxlen).peek h s.params.rxWm) } := by
  unfold rxDrain
  dsimp only
  rw [if_neg (by simp [hf]), slotRef_of_lt hk hlt]

theorem rxFinish_of_short (hf : (d.peekByte h).toNat < d.rxWr.toNat) :
    rxFinish h d s = .next (s.setDev h (rxfail (d.regRead h .rxlen))) := if_pos hf

theorem rxFinish_of_fits (hf : d.rxWr.toNat ≤ (d.peekByte h).toNat) (hk : d.rxActive = some k)
    (hlt : k < s.params.nBuf) :
    rxFinish h d s = .next { s.setDev h ({ promoteOrDiscard { (d.regRead h .rxlen).burstRead h .fifo
          ((d.peekByte h).toNat - d.rxWr.toNat) with rssiLast := d.latRssi } with mode := rxComplete }.signalLink) with
      buf := finishBuffer s.buf k d.rxWr.toNat (d.peekByte h).toNat
        ((d.regRead h .rxlen).peek h ((d.peekByte h).toNat - d.rxWr.toNat)) d.latRssi d.latAfc } := by
  unfold rxFinish
  dsimp only
  rw [if_neg (Nat.not_lt.mpr hf), slotRef_of_lt hk hlt]
  rfl

theorem promoteOrDiscard_of_spare (hn : d.rxNext ≠ none) (hc : d.rxCompleted = none) :
    promoteOrDiscard d = { d with rxCompleted := d.rxActive, rxActive := d.rxNext, rxNext := none, rxWr := 0#9 } :=
  if_pos ⟨hn, hc⟩

theorem promoteOrDiscard_of_no_spare (h : d.rxNext = none ∨ d.rxCompleted ≠ none) :
    promoteOrDiscard d = { d with rxWr := 0#9 } :=
  if_neg fun ⟨hn, hc⟩ => h.elim hn fun hne => hne hc

end

/-! ## The events by mode -/

section
variable {s : State} {hnd : U8} {d : Context}

theorem exec_evRxffafull_discards (hd : s.devs[hnd.toNat]? = some d) (hi : d.initialized = true)
    (hm : d.mode = rxWaitPreamble ∨ d.mode = rxWaitSync) :
    exec (.evRxffafull hnd) s = .next (rxDiscardDrain hnd.toNat d s) := by
  rw [exec, execEvRxffafull, onEvent_initialized hd hi, if_pos hm]

theorem exec_evRxffafull_drains (hd : s.devs[hnd.toNat]? = some d) (hi : d.initialized = true) (hm : d.mode = rxData) :
    exec (.evRxffafull hnd) s = rxDrain hnd.toNat d s := by
  rw [exec, execEvRxffafull, onEvent_initialized hd hi, if_neg (by rw [hm]; decide), if_pos hm]

theorem exec_evPkvalid_finishes (hd : s.devs[hnd.toNat]? = some d) (hi : d.initialized = true)
    (hm : d.mode = rxData) : exec (.evPkvalid hnd) s = rxFinish hnd.toNat d s := by
  rw [exec, execEvPkvalid, onEvent_initialized hd hi, if_pos hm]

end

/-! ## The statements -/

/-- Settles O20: one burst of RX_WM bytes in modes 0 and 1; the row lists no mode but these and RX_DATA. -/
theorem almostFullDiscardsBeforeSync : Obligations.AlmostFullDiscardsBeforeSync := by
  intro s hnd d hd hi hwm
  refine ⟨fun hm => ?_, fun h0 h1 h2 => ?_⟩
  · rw [exec_evRxffafull_discards hd hi hm, rxDiscardDrain, Context.burstRead_pos (Nat.pos_iff_ne_zero.mp hwm)]
  · exact exec_of_not_honoured (i := .evRxffafull hnd) hd (by simp [honoured, isRxInProgress, h0, h1, h2])

/-- Settles O22: the row lists RX_DATA only. -/
theorem packetValidIgnoredOutsideData : Obligations.PacketValidIgnoredOutsideData := by
  intro s hnd d hd hm
  exact exec_of_not_honoured (i := .evPkvalid hnd) hd (beq_eq_false_iff_ne.mpr hm)

/-- Settles O21: the two branches of the drain, with the length byte taken off the tape. -/
theorem almostFullDrainsInData : Obligations.AlmostFullDrainsInData := by
  intro s hnd d len tape hd hi hm ha hwm proj d1
  have hlen : d.peekByte hnd.toNat = len := Context.peekByte_of_tape ha _
  have hread : d.regRead hnd.toNat .rxlen = d1 := Context.regRead_of_tape ha _ _
  rw [exec_evRxffafull_drains hd hi hm]
  refine ⟨fun hf => ?_, fun hle hpk k hk hlt => ?_⟩
  · rw [rxDrain_of_fails (by rw [hlen]; exact drainFails_iff.mpr hf), hread, rxfail_eq]
  · have hfits : drainFails proj len.toNat d.pkvalid = false := drainFails_of_fits hle hpk
    have hcount : (d1.peek hnd.toNat s.params.rxWm).length = s.params.rxWm := Context.peek_length _ _ _
    refine ⟨_, ?_, fun i hi => Memory.read_writeList_data s.buf k _ (hcount.symm ▸ hi), fun a ha => ?_⟩
    · rw [rxDrain_of_fits (by rw [hlen]; exact hfits) hk hlt, hread,
        Context.burstRead_pos (Nat.pos_iff_ne_zero.mp hwm)]
    · refine Memory.read_writeList_outside _ _ _ _ ?_
      rw [hcount, ← dataAddr_add]
      exact ha

/-- Settles O23: the two branches of packet valid, with the length byte taken off the tape; the slots by PROMOTE or
DISCARD. -/
theorem packetValidCompletes : Obligations.PacketValidCompletes := by
  intro s hnd d len tape hd hi hm ha n d1
  have hlen : d.peekByte hnd.toNat = len := Context.peekByte_of_tape ha _
  have hread : d.regRead hnd.toNat .rxlen = d1 := Context.regRead_of_tape ha _ _
  rw [exec_evPkvalid_finishes hd hi hm]
  constructor
  · intro hf
    rw [rxFinish_of_short (by rw [hlen]; exact hf), hread, rxfail_eq]
  · intro hle k hk hlt bytes d2
    have hcount : bytes.length = n := Context.peek_length _ _ _
    have hfinish := rxFinish_of_fits (h := hnd.toNat) (by rw [hlen]; exact hle) hk hlt
    rw [hlen, hread] at hfinish
    refine ⟨finishBuffer s.buf k d.rxWr.toNat len.toNat bytes d.latRssi d.latAfc, fun hn hc => ?_,
      fun hdiscard => ?_, ?_, fun i hi => ?_, finishBuffer_rssi, finishBuffer_afc, fun a ha hout => ?_⟩
    · rw [hfinish, promoteOrDiscard_of_spare]
      exacts [rfl, hn, hc]
    · rw [hfinish, promoteOrDiscard_of_no_spare]
      exacts [rfl, hdiscard]
    · rw [finishBuffer_len, BitVec.ofNat_toNat, BitVec.setWidth_eq]
    · rw [finishBuffer_data (by omega), Memory.read_writeList_data _ _ _ (hcount.symm ▸ hi)]
    · have hend : dataAddr k d.rxWr.toNat + bytes.length = dataAddr k len.toNat := by
        rw [hcount, ← dataAddr_add, Nat.add_sub_cancel' hle]
      have hstart : dataAddr k d.rxWr.toNat ≤ dataAddr k len.toNat := Nat.le.intro hend
      rw [dataAddr_add] at hout
      exact finishBuffer_outside ha (by omega) (by omega)

end Sys2Proof.Machine
end

