-- ==== Sys2Proof/Proofs/BufferIsolation.lean ====
section
/-! PROOF. Double-buffer isolation (spec/41_rx_pipeline.md R173). Only two events store in BUF, both through `rx_active`
(`event_writesActive`), and while a completed buffer is pending no event takes it out of its slot, so by the invariant
it is no device's active buffer at any point of an interrupt (`runEvents_keepsPending`). Every other unit of PRLINK
leaves BUF as it is. -/

namespace Sys2Proof.Machine

/-! ## Units that leave BUF as it is -/

@[simp] theorem runPhy_buf (h : Nat) (job : PhyJob) (d : Context) (s : State) : (runPhy h job d s).buf = s.buf := by
  unfold runPhy
  split
  · rfl
  · split <;> rfl

@[simp] theorem resumePhy_buf (h j : Nat) (d : Context) (s : State) : (resumePhy h j d s).buf = s.buf := by
  unfold resumePhy
  split
  · rfl
  · exact runPhy_buf _ _ _ s

@[simp] theorem bringup_buf (h : Nat) (d : Context) (s : State) : (bringup h d s).2.buf = s.buf := by
  obtain ⟨-, -, hpool, -⟩ := bringupPool_frame d s
  unfold bringup
  dsimp only
  split_ifs <;> simp [hpool]

@[simp] theorem wakeStranded_buf (h : Nat) (was : Bool) (s : State) : (wakeStranded h was s).buf = s.buf := by
  unfold wakeStranded
  split
  · rfl
  · split <;> rfl

@[simp] theorem endSend_buf (h : Nat) (s : State) : (endSend h s).buf = s.buf := by
  unfold endSend
  split <;> rfl

/-- A next state, where the result has one, has the BUF memory `m`. -/
def HasBuf (m : Memory) (r : Res) : Prop := ∀ t, r = .next t → t.buf = m

@[simp] theorem hasBuf_next {m : Memory} {t : State} : HasBuf m (.next t) ↔ t.buf = m :=
  ⟨fun h => h t rfl, fun h u hu => by cases hu; exact h⟩

section
variable {s t : State} {h : Nat} {d : Context} {hnd : U8}

theorem onCommand_hasBuf {opc : U8} {rule : Nat → Context → Res} (hrule : ∀ h d, HasBuf s.buf (rule h d)) :
    HasBuf s.buf (onCommand opc hnd s rule) := by
  intro t ht
  obtain ⟨-, rfl⟩ | ⟨d, -, ht⟩ := onCommand_eq_next ht
  · rfl
  · exact hrule _ _ t ht

/-- No operation of the host stores in BUF: a packet is only read, and a buffer only changes hands. -/
theorem exec_command_hasBuf {i : Instr} (hopc : opcOf i ≠ none) (s : State) : HasBuf s.buf (exec i s) := by
  cases i with
  | init | setDatarate | setCarrier | setTxpower =>
    simp only [exec, execInit, execSetDatarate, execSetCarrier, execSetTxpower]
    refine onCommand_hasBuf fun h d => hasBuf_next.mpr ?_
    split <;> simp
  | send =>
    simp only [exec, execSend]
    refine onCommand_hasBuf fun h d => hasBuf_next.mpr ?_
    split
    · rfl
    · split_ifs <;> rfl
  | receive =>
    simp only [exec, execReceive]
    refine onCommand_hasBuf fun h d => hasBuf_next.mpr ?_
    split_ifs <;> rfl
  | getDeviceId | getRssi | getResetCount | getCarrier =>
    simp only [exec, execGetDeviceId, execGetRssi, execGetResetCount, execGetCarrier]
    exact onCommand_hasBuf fun _ _ => hasBuf_next.mpr rfl
  | forceReset =>
    simp only [exec, execForceReset]
    exact onCommand_hasBuf fun _ d => by simp [recyclePool_frame d s]
  | evFfovfl | evFfunfl | evTxffaem | evRxffafull | evPksent | evPkvalid | evSwdet | evPreaval | evPor =>
    exact absurd rfl hopc

theorem runFrame_hasBuf (port : Port) (f : Frame) (s : State) : HasBuf s.buf (runFrame port f s) := by
  unfold runFrame
  split
  · exact hasBuf_next.mpr rfl
  · split
    · exact hasBuf_next.mpr rfl
    · rename_i i hdec
      obtain ⟨-, hsel, -⟩ := decodeFrame_eq_ok_iff.mp hdec
      obtain ⟨hopc, -⟩ := selectOperation_eq_some_iff.mp hsel
      exact exec_command_hasBuf (by simp [hopc]) s

theorem sendComplete_hasBuf (hd : s.devs[hnd.toNat]? = some d) : HasBuf s.buf (sendComplete hnd d s) := by
  obtain ⟨e, habort, -⟩ := sendAbort_devs hd
  unfold sendComplete
  rw [habort]
  dsimp only
  split_ifs <;> simp

theorem receiveComplete_hasBuf (hnd : U8) (d : Context) (s : State) : HasBuf s.buf (receiveComplete hnd d s) := by
  unfold receiveComplete receiveWoken
  split_ifs
  · simp
  · simp
  · intro t ht
    obtain ⟨u, hu, ht⟩ := bindRes_eq_next.mp ht
    obtain ⟨e, rfl, -⟩ := wakeNext_devs hu
    cases ht
    rfl
  · simp
  · simp

/-- With no timeout request left over, an agent's unit runs no event. -/
theorem runAgent_hasBuf (hs : s.Inv) (hnd : U8) (a : Agent) : HasBuf s.buf (runAgent hnd a s) := by
  unfold runAgent
  split
  · exact hasBuf_next.mpr rfl
  · rename_i d hd
    cases a with
    | send => exact sendComplete_hasBuf hd
    | receive => exact receiveComplete_hasBuf hnd d s
    | dispatcher =>
      dsimp only
      rw [(hs.ok hd).no_timeout]
      exact hasBuf_next.mpr rfl
    | phy j => exact hasBuf_next.mpr (resumePhy_buf _ _ _ s)

theorem runOwnAgents_hasBuf (hs : s.Inv) : HasBuf s.buf (runOwnAgents s) := by
  unfold runOwnAgents
  split
  · exact hasBuf_next.mpr rfl
  · exact runAgent_hasBuf hs _ _
  · exact runAgent_hasBuf (s := { s with turns := s.turns + 1 }) { hs with } _ _

/-- Of what comes from outside, only an interrupt and the host's own store reach BUF. -/
theorem runInput_hasBuf (hs : s.Inv) (x : Input) :
    (∃ hnd dev is1 is2, x = .irq hnd dev is1 is2) ∨ (∃ k f v, x = .bufStore k f v) ∨ HasBuf s.buf (runInput x s) := by
  cases x with
  | irq hnd dev is1 is2 => exact .inl ⟨hnd, dev, is1, is2, rfl⟩
  | bufStore k f v => exact .inr (.inl ⟨k, f, v, rfl⟩)
  | command f => exact .inr (.inr (runFrame_hasBuf .command f s))
  | supervisor f => exact .inr (.inr (runFrame_hasBuf .supervisor f s))
  | resume hnd a => exact .inr (.inr (runAgent_hasBuf hs hnd a))
  | tick | settings | poolTake => exact .inr (.inr (hasBuf_next.mpr rfl))
  | supRead hnd r =>
    refine .inr (.inr (hasBuf_next.mpr ?_))
    unfold supervisorRead
    split <;> rfl
  | supWrite hnd v =>
    refine .inr (.inr (hasBuf_next.mpr ?_))
    unfold supervisorWrite
    split <;> rfl
  | poolReturn k =>
    refine .inr (.inr (hasBuf_next.mpr ?_))
    split <;> rfl

/-! ## Events store through `rx_active` only -/

/-- A data range of one buffer does not reach an address of another. -/
theorem outside_dataAddr {a k i n : Nat} (ha : a / bufSize ≠ k) (hfit : i + n ≤ Config.bufCap) :
    a < dataAddr k i ∨ dataAddr k i + n ≤ a := by
  simp only [dataAddr, bufSize, Config.hdrLen, Config.bufCap, Config.maxLen, Config.metaLen] at *
  omega

theorem ne_lenAddr_of_div_ne {a k : Nat} (ha : a / bufSize ≠ k) : a ≠ lenAddr k := by
  rintro rfl
  exact ha (fieldAddr_div k .len)

/-- A next state, where the result has one, has the bytes of `s` but for those of the buffer active in `d`. -/
def WritesActive (d : Context) (s : State) (r : Res) : Prop :=
  ∀ t, r = .next t → ∀ a, d.rxActive ≠ some (a / bufSize) → Memory.read t.buf a = Memory.read s.buf a

theorem writesActive_of_hasBuf {r : Res} (hr : HasBuf s.buf r) : WritesActive d s r :=
  fun t ht a _ => by rw [hr t ht]

theorem rxDrain_writesActive (h : Nat) (d : Context) (s : State) : WritesActive d s (rxDrain h d s) := by
  intro t ht a ha
  obtain ⟨-, rfl⟩ | ⟨hfit, k, hk, -, rfl⟩ := rxDrain_eq_next ht
  · rfl
  · obtain ⟨hle, -⟩ := drainFails_false hfit
    have hlen := (d.peekByte h).isLt
    have hne : a / bufSize ≠ k := fun hak => ha (hak ▸ hk)
    refine Memory.read_writeList_outside _ _ _ _ ?_
    rw [Context.peek_length]
    exact outside_dataAddr hne (by simp only [Config.bufCap, Config.maxLen, Config.metaLen]; omega)

theorem rxFinish_writesActive (h : Nat) (d : Context) (s : State) : WritesActive d s (rxFinish h d s) := by
  intro t ht a ha
  obtain ⟨-, rfl⟩ | ⟨hle, k, hk, -, rfl⟩ := rxFinish_eq_next ht
  · rfl
  · have hlen := (d.peekByte h).isLt
    have hne : a / bufSize ≠ k := fun hak => ha (hak ▸ hk)
    have hin {i n : Nat} (hi : i + n ≤ 257) : a < dataAddr k i ∨ dataAddr k i + n ≤ a := outside_dataAddr hne hi
    refine finishBuffer_outside (ne_lenAddr_of_div_ne hne) (hin ?_) (hin (by omega))
    rw [Context.peek_length]
    omega

theorem onEvent_writesActive (hd : s.devs[hnd.toNat]? = some d) {rule : Nat → Context → Res}
    (hrule : WritesActive d s (rule hnd.toNat d)) : WritesActive d s (onEvent hnd s rule) := by
  intro t ht
  obtain rfl | ⟨d', hd', -, ht⟩ := onEvent_eq_next ht
  · exact fun _ _ => rfl
  · cases hd.symm.trans hd'
    exact hrule t ht

/-- An event stores in the active buffer of its device, or nowhere. -/
theorem event_writesActive {i : Instr} (hi : i ∈ (orderedEvents hnd).map Prod.snd)
    (hd : s.devs[hnd.toNat]? = some d) : WritesActive d s (exec i s) := by
  have hsame {u : State} (hu : u.buf = s.buf) : WritesActive d s (.next u) :=
    writesActive_of_hasBuf (hasBuf_next.mpr hu)
  obtain ⟨e, he, rfl⟩ := List.mem_map.mp hi
  obtain rfl | rfl | rfl | rfl | rfl | rfl | rfl | rfl := mem_orderedEvents.mp he <;>
    simp only [exec, execEvFfovfl, execEvFfunfl, execEvPreaval, execEvSwdet, execEvRxffafull, execEvTxffaem,
      execEvPkvalid, execEvPksent] <;>
    refine onEvent_writesActive hd ?_
  · exact hsame rfl
  · exact hsame rfl
  · split <;> exact hsame rfl
  · split <;> exact hsame rfl
  · split_ifs
    · exact hsame rfl
    · exact rxDrain_writesActive _ d s
    · exact hsame rfl
  · split
    · intro t ht
      obtain ⟨-, rfl⟩ | ⟨-, k, -, -, rfl⟩ := txAlmostEmpty_eq_next ht <;> exact fun _ _ => rfl
    · exact hsame rfl
  · split
    · exact rxFinish_writesActive _ d s
    · exact hsame rfl
  · split <;> exact hsame rfl

/-! ## A completed buffer stays out of their reach -/

/-- Buffer `k` is some device's completed buffer, pending delivery. -/
def Pending (k : Nat) (s : State) : Prop := ∃ d ∈ s.devs, d.rxCompleted = some k

/-- `rx_active` of any device and a non-`none` `rx_completed` of any device are distinct (spec/10_state.md R28). -/
theorem State.Inv.active_ne_pending (hs : s.Inv) {k : Nat} (hk : Pending k s) (hd : d ∈ s.devs) :
    d.rxActive ≠ some k := by
  intro hactive
  obtain ⟨x, hx, hcompleted⟩ := hk
  obtain ⟨hnodup, hdisjoint⟩ := List.nodup_flatMap.mp hs.buffers_once.of_append_left
  have hkd : k ∈ d.slots := by simp [slots_eq, hactive]
  have hkx : k ∈ x.slots := by simp [slots_eq, hcompleted]
  by_cases hxd : x = d
  · subst hxd
    have honce := List.nodup_iff_count_le_one.mp (hnodup x hx) k
    rw [slots_count, hactive, hcompleted] at honce
    simp at honce
  · have hsymm : Std.Symm (Function.onFun List.Disjoint Context.slots) := ⟨fun _ _ h => h.symm⟩
    exact hdisjoint.forall hx hd hxd hkx hkd

/-- An update of one device that keeps its completed buffer. -/
theorem Pending.set {k : Nat} (hk : Pending k s) {e : Context} (hd : s.devs[h]? = some d)
    (hset : t.devs = s.devs.set h e) (hkeep : d.rxCompleted = some k → e.rxCompleted = some k) : Pending k t := by
  obtain ⟨x, hx, hcompleted⟩ := hk
  obtain ⟨j, hj⟩ := List.mem_iff_getElem?.mp hx
  by_cases hjh : j = h
  · subst hjh
    cases hd.symm.trans hj
    obtain ⟨hlt, -⟩ := List.getElem?_eq_some_iff.mp hd
    exact ⟨e, hset ▸ List.mem_set hlt e, hkeep hcompleted⟩
  · refine ⟨x, List.mem_iff_getElem?.mpr ⟨j, ?_⟩, hcompleted⟩
    rw [hset, List.getElem?_set_ne (Ne.symm hjh), hj]

/-- The events of one status word change no byte of a pending buffer: after each the invariant holds and the buffer is
still pending, so the next one does not store in it either. -/
theorem runEvents_keepsPending {l : List Instr} (hl : ∀ i ∈ l, i ∈ (orderedEvents hnd).map Prod.snd) (hs : s.Inv)
    (hd : s.devs[hnd.toNat]? = some d) {k : Nat} (hk : Pending k s) (ht : runEvents l s = .next t) {a : Nat}
    (ha : a / bufSize = k) : Memory.read t.buf a = Memory.read s.buf a := by
  induction l generalizing s d with
  | nil =>
    cases ht
    rfl
  | cons i l ih =>
    obtain ⟨hi, hl⟩ := List.forall_mem_cons.mp hl
    obtain ⟨u, hu, ht⟩ := bindRes_eq_next.mp ht
    have hactive : d.rxActive ≠ some (a / bufSize) := ha ▸ hs.active_ne_pending hk (List.mem_of_getElem? hd)
    have hfirst := event_writesActive hi hd u hu a hactive
    have hu' := exec_keepsInv hs i u hu
    obtain ⟨e, b, rfl, heffect⟩ := event_effect hd hi hu
    have hpending : Pending k { s.setDev hnd.toNat e with buf := b } :=
      hk.set hd rfl fun hc => (heffect.pending (by simp [hc])).trans hc
    exact (ih hl hu' (State.setDev_get_same s _ d e hd) hpending ht).trans hfirst

/-- An interrupt changes no byte of a pending buffer. -/
theorem dispatch_keepsPending {dev is1 is2 : U8} (hs : s.Inv) {k : Nat} (hk : Pending k s)
    (ht : dispatch hnd dev is1 is2 s = .next t) {a : Nat} (ha : a / bufSize = k) :
    Memory.read t.buf a = Memory.read s.buf a := by
  cases hd : s.devs[hnd.toNat]? with
  | none =>
    rw [dispatch, hd] at ht
    cases ht
    rfl
  | some d =>
    cases hi : d.initialized with
    | false =>
      cases (dispatch_of_uninitialized hd hi).symm.trans ht
      rfl
    | true =>
      cases hpor : is2.getLsbD 0 with
      | true =>
        cases (dispatch_of_por hd hi hpor).symm.trans ht
        rfl
      | false =>
        have hreq := (hs.ok hd).no_timeout
        have hrecognised := (hs.ok hd).mode_recognised
        rw [dispatch_of_events hd hi hpor hrecognised (by simp [hreq]), enterDispatcher_clearRequest hreq] at ht
        have hentered : (s.setDev hnd.toNat (d.enterDispatcher dev is1 is2)).Inv := hs.setDev_of_checked hd rfl
        exact runEvents_keepsPending (fun _ => mem_decodeStatus (statusWord_no_por hpor dev is1)) hentered
          (State.setDev_get_same s _ d _ hd) (hk.set hd rfl id) ht ha

end

/-- Settles O55: an interrupt stores through `rx_active`, which is never the pending buffer; no other unit stores. -/
theorem completedBufferIsolation : Obligations.CompletedBufferIsolation := by
  intro s t d k f hs ht hstore hd hk
  have hpending : Pending k s := ⟨d, hd, hk⟩
  unfold step at ht
  split at ht
  case h_1 => rw [runOwnAgents_hasBuf hs t ht]
  case h_2 x rest hin =>
    have hs' : State.Inv { s with inputs := rest } := hs.consume hin
    obtain ⟨hnd, dev, is1, is2, rfl⟩ | ⟨k', f', v, rfl⟩ | hbuf := runInput_hasBuf hs' x
    · exact dispatch_keepsPending hs' (k := k) hpending ht (fieldAddr_div k f)
    · exact absurd hin (hstore k' f' v rest)
    · rw [hbuf t ht]

end Sys2Proof.Machine
end

