-- ==== Sys2Proof/Proofs/PayloadFidelity.lean ====
section
/-! PROOF. Payload fidelity (spec/41_rx_pipeline.md R174). `Capturing` says where a capture stands: the bytes stored so
far, and a device that is as it was at sync detection but for its cursor and its transfers. Taking an interrupt keeps it
(`Capturing.enter`), an almost-full drain adds a burst to it (`Capturing.drain`), packet valid ends it
(`Capturing.finish`); a run of almost-full interrupts is an induction over the bursts (`Capturing.bursts`). -/

namespace Sys2Proof.Machine

/-! ## Runs -/

theorem bindRes_assoc (r : Res) (f g : State → Res) :
    bindRes (bindRes r f) g = bindRes r fun u => bindRes (f u) g := by cases r <;> rfl

theorem runSteps_one (s : State) : runSteps 1 s = step s := bindRes_next_right _

theorem runSteps_add (m n : Nat) (s : State) : runSteps (m + n) s = bindRes (runSteps m s) (runSteps n) := by
  induction m generalizing s with
  | zero => rw [Nat.zero_add]; rfl
  | succ m ih =>
    rw [Nat.succ_add, runSteps, runSteps, bindRes_assoc]
    exact congrArg _ (funext ih)

/-! ## A capture in progress -/

/-- The Device Context without what an interrupt that continues a capture writes: the cursor, the status latches, and
the environment's part. -/
def Context.atSync (d : Context) : Context :=
  { d with rxWr := 0#9, stDev := 0#8, stIs1 := 0#8, stIs2 := 0#8, answers := [], reads := 0, bus := [] }

/-- Device `hnd` of `s` is filling buffer `k`, which holds the bytes `got` already; the chip answers `tape` next.
Its Device Context `e` is `d`, but for what `Context.atSync` leaves out. -/
structure Capturing (p : Params) (hnd : U8) (k : Nat) (d : Context) (s : State) (e : Context) (got tape : List U8) :
    Prop where
  params : s.params = p
  dev : s.devs[hnd.toNat]? = some e
  frame : e.atSync = d.atSync
  cursor : e.rxWr.toNat = got.length
  answers : e.answers = tape
  stored : ∀ i, i < got.length → Memory.read s.buf (dataAddr k i) = got.getD i 0#8

/-- A device that can capture into buffer `k`. -/
structure CanCapture (p : Params) (k : Nat) (d : Context) : Prop where
  initialized : d.initialized = true
  mode : d.mode = rxData
  no_request : d.txtimeoutReq = false
  active : d.rxActive = some k
  buffer : k < p.nBuf

/-- What packet valid leaves of the device `d` of the sync detection, with `packet` in buffer `k`. -/
structure Delivered (k : Nat) (d : Context) (m : Memory) (e : Context) (len : U8) (packet : List U8) : Prop where
  mode : e.mode = rxComplete
  signal : e.sigLink = true
  cursor : e.rxWr = 0#9
  errors : e.errorCount = d.errorCount
  rssi_last : e.rssiLast = d.latRssi
  payload : ∀ i, i < len.toNat → Memory.read m (dataAddr k i) = packet.getD i 0#8
  length : Memory.read m (lenAddr k) = len
  rssi : Memory.read m (dataAddr k len.toNat) = d.latRssi
  afc : Memory.read m (dataAddr k (len.toNat + 1)) = d.latAfc
  promoted : d.rxNext ≠ none → d.rxCompleted = none →
    e.rxCompleted = some k ∧ e.rxActive = d.rxNext ∧ e.rxNext = none
  discarded : d.rxNext = none ∨ d.rxCompleted ≠ none →
    e.rxCompleted = d.rxCompleted ∧ e.rxActive = d.rxActive ∧ e.rxNext = d.rxNext

/-- The result is a next state in which packet valid has ended the capture of `packet`. -/
def EndsCapture (hnd : U8) (k : Nat) (d : Context) (len : U8) (packet tape : List U8) (rest : List Input) (r : Res) :
    Prop :=
  ∃ t e, r = .next t ∧ t.devs[hnd.toNat]? = some e ∧ Delivered k d t.buf e len packet ∧ e.answers = tape ∧
    t.inputs = rest

section
variable {p : Params} {hnd len : U8} {k : Nat} {d e : Context} {s : State} {got tape : List U8}

theorem Capturing.tags (hc : Capturing p hnd k d s e got tape) :
    e.latRssi = d.latRssi ∧ e.latAfc = d.latAfc ∧ e.errorCount = d.errorCount ∧ e.rxNext = d.rxNext ∧
      e.rxCompleted = d.rxCompleted :=
  ⟨(congrArg Context.latRssi hc.frame :), (congrArg Context.latAfc hc.frame :),
    (congrArg Context.errorCount hc.frame :), (congrArg Context.rxNext hc.frame :),
    (congrArg Context.rxCompleted hc.frame :)⟩

theorem Capturing.canCapture (hc : Capturing p hnd k d s e got tape) (hd : CanCapture p k d) :
    CanCapture s.params k e where
  initialized := (congrArg Context.initialized hc.frame).trans hd.initialized
  mode := (congrArg Context.mode hc.frame).trans hd.mode
  no_request := (congrArg Context.txtimeoutReq hc.frame).trans hd.no_request
  active := (congrArg Context.rxActive hc.frame).trans hd.active
  buffer := hc.params ▸ hd.buffer

/-- Stored bytes followed by bytes stored at the cursor. -/
theorem stored_append {m : Memory} (hm : ∀ i, i < got.length → Memory.read m (dataAddr k i) = got.getD i 0#8)
    (bytes : List U8) {i : Nat} (hi : i < (got ++ bytes).length) :
    Memory.read (Memory.writeList m (dataAddr k got.length) bytes) (dataAddr k i) = (got ++ bytes).getD i 0#8 := by
  obtain hold | ⟨j, rfl⟩ := Nat.lt_or_ge i got.length |>.imp_right Nat.exists_eq_add_of_le
  · rw [Memory.read_writeList_outside _ _ _ _ (.inl (by simp only [dataAddr]; omega)), hm i hold,
      List.getD_append _ _ _ _ hold]
  · rw [List.length_append] at hi
    rw [Memory.read_writeList_data _ _ _ (by omega), List.getD_append_right _ _ _ _ (Nat.le_add_right _ _),
      Nat.add_sub_cancel_left]

/-- Taking an interrupt whose word has the middle byte `w`: its events run from a capture that stands where it stood. -/
theorem Capturing.enter (hc : Capturing p hnd k d s e got tape) (hd : CanCapture p k d) {w : U8} {rest : List Input}
    (hin : s.inputs = .irq hnd 0x00#8 w 0x00#8 :: rest) :
    ∃ u e', step s = runEvents (decodeStatus hnd (statusWord 0x00#8 w 0x00#8)) u ∧
      Capturing p hnd k d u e' got tape ∧ e'.pkvalid = w.getLsbD 1 ∧ u.inputs = rest := by
  have he := hc.canCapture hd
  obtain ⟨hrun, -⟩ := stepRunsStatusWordEvents s hnd 0x00#8 w 0x00#8 rest e hin hc.dev he.initialized he.no_request
    (by rw [he.mode]; rfl)
  have hentered := State.setDev_get_same { s with inputs := rest } _ e (e.enterDispatcher 0x00#8 w 0x00#8) hc.dev
  exact ⟨_, _, hrun, ⟨hc.params, hentered, hc.frame, hc.cursor, hc.answers, hc.stored⟩,
    statusWord_is1 0x00#8 w 0x00#8 (i := 1) (by decide), rfl⟩

/-- An almost-full drain adds its burst (R162, R163). -/
theorem Capturing.drain {burst : List U8} (hc : Capturing p hnd k d s e got (len :: (burst ++ tape)))
    (hd : CanCapture p k d) (hburst : burst.length = p.rxWm) (hle : got.length + burst.length ≤ len.toNat)
    (hpk : got.length + burst.length = len.toNat → e.pkvalid = true) :
    ∃ t e', exec (.evRxffafull hnd) s = .next t ∧ Capturing p hnd k d t e' (got ++ burst) tape ∧
      t.inputs = s.inputs := by
  rw [← hc.params] at hburst
  have he := hc.canCapture hd
  have hlen : e.peekByte hnd.toNat = len := Context.peekByte_of_tape hc.answers _
  have hread := Context.regRead_of_tape hc.answers hnd.toNat .rxlen
  have hpeek : (e.regRead hnd.toNat .rxlen).peek hnd.toNat s.params.rxWm = burst :=
    Context.peek_of_tape (by rw [hread]) hburst _
  have hfits : drainFails (e.rxWr.toNat + s.params.rxWm) (e.peekByte hnd.toNat).toNat e.pkvalid = false := by
    rw [hc.cursor, hlen, ← hburst]
    exact drainFails_of_fits hle hpk
  have hdrain := exec_evRxffafull_drains hc.dev he.initialized he.mode
  refine ⟨_, _, hdrain.trans (rxDrain_of_fits hfits he.active he.buffer),
    ⟨hc.params, State.setDev_get_same _ _ e _ hc.dev, hc.frame, ?_, ?_, fun i hi => ?_⟩, rfl⟩
  · have hmax := len.isLt
    rw [hc.cursor, List.length_append, ← hburst]
    simp only [BitVec.toNat_ofNat]
    omega
  · dsimp only
    rw [Context.burstRead_answers, hread, ← hburst]
    exact List.drop_left
  · dsimp only
    rw [hpeek, hc.cursor]
    exact stored_append hc.stored burst hi

/-- Packet valid stores the rest of the payload and ends the capture (R167 to R170). -/
theorem Capturing.finish {last : List U8} (hc : Capturing p hnd k d s e got (len :: (last ++ tape)))
    (hd : CanCapture p k d) (hlen : len.toNat = got.length + last.length) :
    EndsCapture hnd k d len (got ++ last) tape s.inputs (exec (.evPkvalid hnd) s) := by
  have he := hc.canCapture hd
  have hbyte : e.peekByte hnd.toNat = len := Context.peekByte_of_tape hc.answers _
  have hread := Context.regRead_of_tape hc.answers hnd.toNat .rxlen
  have hrest : len.toNat - e.rxWr.toNat = last.length := by rw [hc.cursor, hlen, Nat.add_sub_cancel_left]
  have hpeek : (e.regRead hnd.toNat .rxlen).peek hnd.toNat last.length = last :=
    Context.peek_of_tape (by rw [hread]) rfl _
  have hfinish := rxFinish_of_fits (h := hnd.toNat) (s := s) (by rw [hbyte, hc.cursor]; omega) he.active he.buffer
  rw [hbyte, hrest, hpeek, hc.cursor] at hfinish
  obtain ⟨hrssi, hafc, herrors, hnext, hcompleted⟩ := hc.tags
  refine ⟨_, _, (exec_evPkvalid_finishes hc.dev he.initialized he.mode).trans hfinish,
    State.setDev_get_same _ _ e _ hc.dev, ?_, by simp [hc.answers], rfl⟩
  constructor
  case mode | signal => rfl
  case cursor => exact promoteOrDiscard_rxWr _
  case errors => exact (promoteOrDiscard_errorCount _).trans herrors
  case rssi_last => exact (promoteOrDiscard_rssiLast _).trans hrssi
  case payload =>
    intro i hi
    exact (finishBuffer_data hi).trans (stored_append hc.stored last (by simpa [← hlen] using hi))
  case length => exact finishBuffer_len.trans (by rw [BitVec.ofNat_toNat, BitVec.setWidth_eq])
  case rssi => exact finishBuffer_rssi.trans hrssi
  case afc => exact finishBuffer_afc.trans hafc
  case promoted =>
    intro hspare hfree
    rw [promoteOrDiscard_of_spare]
    exacts [⟨he.active, hnext, rfl⟩, hnext ▸ hspare, hcompleted ▸ hfree]
  case discarded =>
    intro hdiscard
    rw [promoteOrDiscard_of_no_spare]
    exacts [⟨hcompleted, he.active.trans hd.active.symm, hnext⟩, by rwa [← hnext, ← hcompleted] at hdiscard]

/-! ## The interrupts of a capture: the three status words, and a run of each shape -/

theorem decodeStatus_almostFull : decodeStatus hnd (statusWord 0x00#8 0x10#8 0x00#8) = [.evRxffafull hnd] := by
  with_unfolding_all rfl

theorem decodeStatus_packetValid : decodeStatus hnd (statusWord 0x00#8 0x02#8 0x00#8) = [.evPkvalid hnd] := by
  with_unfolding_all rfl

theorem decodeStatus_both :
    decodeStatus hnd (statusWord 0x00#8 0x12#8 0x00#8) = [.evRxffafull hnd, .evPkvalid hnd] := by
  with_unfolding_all rfl

/-- Almost-full interrupts that do not reach the declared length. -/
theorem Capturing.bursts {bursts : List (List U8)} {rest : List Input}
    (hc : Capturing p hnd k d s e got ((bursts.flatMap fun b => len :: b) ++ tape)) (hd : CanCapture p k d)
    (hburst : ∀ b ∈ bursts, b.length = p.rxWm)
    (hlt : bursts ≠ [] → got.length + bursts.length * p.rxWm < len.toNat)
    (hin : s.inputs = List.replicate bursts.length (.irq hnd 0x00#8 0x10#8 0x00#8) ++ rest) :
    ∃ t e', runSteps bursts.length s = .next t ∧ Capturing p hnd k d t e' (got ++ bursts.flatten) tape ∧
      t.inputs = rest := by
  induction bursts generalizing s e got with
  | nil => exact ⟨s, e, rfl, by simpa using hc, hin⟩
  | cons b bs ih =>
    obtain ⟨hb, hbs⟩ := List.forall_mem_cons.mp hburst
    have htotal := hlt (List.cons_ne_nil b bs)
    rw [List.length_cons, Nat.succ_mul] at htotal
    obtain ⟨u, e₁, hrun, hu, -, hrest⟩ := hc.enter hd hin
    rw [decodeStatus_almostFull, runEvents_singleton] at hrun
    rw [List.flatMap_cons, List.cons_append, List.cons_append, List.append_assoc] at hu
    obtain ⟨t, e₂, hexec, ht, hinputs⟩ := hu.drain hd hb (by omega) (by omega)
    obtain ⟨t', e', hsteps, ht', hinputs'⟩ := ih ht hbs (by rw [List.length_append]; omega) (hinputs.trans hrest)
    refine ⟨t', e', ?_, ?_, hinputs'⟩
    · rw [List.length_cons, runSteps, hrun, hexec, bindRes_next, hsteps]
    · rwa [List.flatten_cons, ← List.append_assoc]

/-- Packet valid in an interrupt of its own. -/
theorem Capturing.ends_alone {last : List U8} {rest : List Input}
    (hc : Capturing p hnd k d s e got (len :: (last ++ tape))) (hd : CanCapture p k d)
    (hlen : len.toNat = got.length + last.length) (hin : s.inputs = .irq hnd 0x00#8 0x02#8 0x00#8 :: rest) :
    EndsCapture hnd k d len (got ++ last) tape rest (step s) := by
  obtain ⟨u, e₁, hrun, hu, -, rfl⟩ := hc.enter hd hin
  rw [hrun, decodeStatus_packetValid, runEvents_singleton]
  exact hu.finish hd hlen

/-- Packet valid in the status word of the burst that reaches the declared length (R163 b). -/
theorem Capturing.ends_with_burst {burst : List U8} {rest : List Input}
    (hc : Capturing p hnd k d s e got (len :: (burst ++ len :: tape))) (hd : CanCapture p k d)
    (hburst : burst.length = p.rxWm) (hlen : len.toNat = got.length + burst.length)
    (hin : s.inputs = .irq hnd 0x00#8 0x12#8 0x00#8 :: rest) :
    EndsCapture hnd k d len (got ++ burst) tape rest (step s) := by
  obtain ⟨u, e₁, hrun, hu, hpk, rfl⟩ := hc.enter hd hin
  obtain ⟨t, e₂, hexec, ht, hinputs⟩ := hu.drain hd hburst hlen.ge fun _ => hpk
  rw [hrun, decodeStatus_both, runEvents, hexec, bindRes_next, runEvents_singleton, ← hinputs,
    ← List.append_nil (got ++ burst)]
  exact Capturing.finish (last := []) ht hd (by simpa using hlen)

/-- The bytes of bursts of one length. -/
theorem length_flatten_of_forall {bursts : List (List U8)} {n : Nat} (h : ∀ b ∈ bursts, b.length = n) :
    bursts.flatten.length = bursts.length * n := by
  rw [List.length_flatten, List.sum_eq_card_nsmul _ n (by simpa using h), List.length_map, smul_eq_mul]

/-- A whole capture whose packet valid comes by itself: the last burst stays below the declared length. -/
theorem Capturing.runs_alone {bursts : List (List U8)} {last : List U8} {rest : List Input}
    (hc : Capturing p hnd k d s e [] ((bursts.flatMap fun b => len :: b) ++ (len :: (last ++ tape))))
    (hd : CanCapture p k d) (hburst : ∀ b ∈ bursts, b.length = p.rxWm)
    (hlen : len.toNat = bursts.length * p.rxWm + last.length) (hlast : bursts ≠ [] → last ≠ [])
    (hin : s.inputs = List.replicate bursts.length (.irq hnd 0x00#8 0x10#8 0x00#8) ++
      .irq hnd 0x00#8 0x02#8 0x00#8 :: rest) :
    EndsCapture hnd k d len (bursts.flatten ++ last) tape rest (runSteps (bursts.length + 1) s) := by
  obtain ⟨t, e', hsteps, ht, hinputs⟩ := hc.bursts hd hburst (fun hne => by
    have hpos := List.length_pos_iff.mpr (hlast hne)
    rw [hlen, List.length_nil]
    omega) hin
  rw [runSteps_add, hsteps, bindRes_next, runSteps_one]
  exact ht.ends_alone hd (by rw [hlen, List.nil_append, length_flatten_of_forall hburst]) hinputs

/-- A whole capture whose last burst brings packet valid. -/
theorem Capturing.runs_with_burst {bursts : List (List U8)} {burst : List U8} {rest : List Input} (hwm : 1 ≤ p.rxWm)
    (hc : Capturing p hnd k d s e [] ((bursts.flatMap fun b => len :: b) ++ (len :: (burst ++ len :: tape))))
    (hd : CanCapture p k d) (hbursts : ∀ b ∈ bursts, b.length = p.rxWm) (hburst : burst.length = p.rxWm)
    (hlen : len.toNat = (bursts.length + 1) * p.rxWm)
    (hin : s.inputs = List.replicate bursts.length (.irq hnd 0x00#8 0x10#8 0x00#8) ++
      .irq hnd 0x00#8 0x12#8 0x00#8 :: rest) :
    EndsCapture hnd k d len (bursts.flatten ++ burst) tape rest (runSteps (bursts.length + 1) s) := by
  rw [Nat.succ_mul] at hlen
  obtain ⟨t, e', hsteps, ht, hinputs⟩ := hc.bursts hd hbursts (fun _ => by rw [hlen, List.length_nil]; omega) hin
  rw [runSteps_add, hsteps, bindRes_next, runSteps_one]
  exact ht.ends_with_burst hd hburst (by rw [hlen, List.nil_append, length_flatten_of_forall hbursts, hburst]) hinputs

end

/-- Settles O59: the two shapes of the status words, each a run of bursts and a last interrupt. -/
theorem payloadFidelity : Obligations.PayloadFidelity := by
  intro s hnd len d k bursts last tape words rest hdev hi hm hreq hwr hk hlt hwm hburst hlen ha hwords hin
  have hd : CanCapture s.params k d := ⟨hi, hm, hreq, hk, hlt⟩
  have hc : Capturing s.params hnd k d s d [] ((bursts.flatMap fun b => len :: b) ++ (len :: (last ++ tape))) :=
    ⟨rfl, hdev, rfl, by rw [hwr]; rfl, by rw [ha, List.append_assoc, List.cons_append], fun i hi => nomatch hi⟩
  have hend : EndsCapture hnd k d len (bursts.flatten ++ last) tape rest (runSteps words.length s) := by
    obtain ⟨hlast, rfl⟩ | ⟨⟨rfl, hne⟩, rfl⟩ := hwords
    · simpa using hc.runs_alone hd hburst hlen (fun hne => hlast.resolve_right hne) (by simpa using hin)
    · obtain ⟨init, b, rfl⟩ := (List.eq_nil_or_concat' bursts).resolve_left hne
      obtain ⟨hinit, hb⟩ := List.forall_mem_append.mp hburst
      have hc' : Capturing s.params hnd k d s d []
          ((init.flatMap fun b => len :: b) ++ (len :: (b ++ len :: tape))) := by simpa using hc
      have hwhole := hc'.runs_with_burst hwm hd hinit (hb b (List.mem_singleton_self b)) (by simpa using hlen)
        (by simpa using hin)
      simpa using hwhole
  obtain ⟨t, e, hsteps, he, hdel, htape, hrest⟩ := hend
  exact ⟨t, e, hsteps, he, hdel.mode, hdel.signal, hdel.cursor, hdel.errors, hdel.rssi_last, htape, hrest,
    hdel.payload, hdel.length, hdel.rssi, hdel.afc, hdel.promoted, hdel.discarded⟩

end Sys2Proof.Machine
end

