-- ==== Sys2Proof/Proofs/TxPipeline.lean ====
section
/-! PROOF. The TX pipeline (spec/42_tx_pipeline.md): TXSTART, the top-up and packet sent, and what they make together
after staging (R186). `Sending` says where a transmission stands: the payload bytes that are in the FIFO, and a device
that is as TXSTART left it but for its cursor and its transfers. An interrupt keeps it (`Sending.enter`), a top-up
moves it on by at most TX_TOPUP bytes (`Sending.topUp`), and a run of almost-empty interrupts is an induction over
their number (`Sending.topUps`). -/

namespace Sys2Proof.Machine

/-! ## The bytes read -/

theorem Memory.readList_eq_nil_iff {m : Memory} {a n : Nat} : Memory.readList m a n = [] ↔ n = 0 := by
  rw [← List.length_eq_zero_iff, Memory.readList_length]

/-- Reading on from where a read ended. -/
theorem Memory.readList_append (m : Memory) (a i j : Nat) :
    Memory.readList m a i ++ Memory.readList m (a + i) j = Memory.readList m a (i + j) := by
  simp only [Memory.readList, List.range_add, List.map_append, List.map_map, Function.comp_def, Nat.add_assoc]

/-- The four header bytes in order. -/
theorem Memory.readList_hdr (m : Memory) (k : Nat) :
    Memory.readList m (hdrAddr k 0) Config.hdrLen =
      [Memory.read m (hdrAddr k 0), Memory.read m (hdrAddr k 1), Memory.read m (hdrAddr k 2),
        Memory.read m (hdrAddr k 3)] := by
  simp [Memory.readList, List.range_succ, hdrAddr]

/-- A BurstWrite at R_FIFO of bytes read from BUF, skipped where there are none (R68). -/
theorem Context.fifoWrite_readList (d : Context) (m : Memory) (a n : Nat) :
    d.fifoWrite (Memory.readList m a n) =
      { d with bus := d.bus ++ if n = 0 then [] else [.burstWrite .fifo (Memory.readList m a n)] } := by
  simp only [Context.fifoWrite, Memory.readList_eq_nil_iff]

/-! ## The payload bytes among the transfers -/

theorem fifoBytes_append (l l' : List BusOp) : fifoBytes (l ++ l') = fifoBytes l ++ fifoBytes l' :=
  List.flatMap_append

theorem fifoBytes_fifoWrite (d : Context) (bytes : List U8) :
    fifoBytes (d.fifoWrite bytes).bus = fifoBytes d.bus ++ bytes := by
  rw [Context.fifoWrite_bus, fifoBytes_append]
  split
  next h => rw [h]; rfl
  next => exact congrArg _ (List.append_nil bytes)

/-- The status burst of an interrupt writes no payload byte. -/
theorem fifoBytes_enterDispatcher (d : Context) (dev is1 is2 : U8) :
    fifoBytes (d.enterDispatcher dev is1 is2).bus = fifoBytes d.bus := by
  rw [Context.enterDispatcher_bus, fifoBytes_append]
  exact List.append_nil _

/-! ## The top-up by its branches -/

/-- `n` payload bytes of buffer `k` written to the FIFO from the cursor on, and the cursor moved (R183). -/
def Context.writeFromCursor (d : Context) (m : Memory) (k n : Nat) : Context :=
  { d.fifoWrite (Memory.readList m (dataAddr k d.txRd.toNat) n) with txRd := BitVec.ofNat 9 (d.txRd.toNat + n) }

theorem Context.writeFromCursor_cursor {d : Context} {n w : Nat} (hn : d.txRd.toNat + n ≤ w) (hw : w < 2 ^ 9)
    (m : Memory) (k : Nat) : (d.writeFromCursor m k n).txRd.toNat = d.txRd.toNat + n :=
  (BitVec.toNat_ofNat _ _).trans (Nat.mod_eq_of_lt (hn.trans_lt hw))

theorem fifoBytes_writeFromCursor (d : Context) (m : Memory) (k n : Nat) :
    fifoBytes (d.writeFromCursor m k n).bus = fifoBytes d.bus ++ Memory.readList m (dataAddr k d.txRd.toNat) n :=
  fifoBytes_fifoWrite d _

section
variable {s : State} {h k : Nat} {d : Context}

theorem txAlmostEmpty_of_all_written (hn : min (d.txWr.toNat - d.txRd.toNat) (txTopup s.params) = 0) :
    txAlmostEmpty h d s = .next s := if_pos hn

theorem txAlmostEmpty_of_left (hn : 0 < min (d.txWr.toNat - d.txRd.toNat) (txTopup s.params))
    (hw : d.txWr.toNat ≤ Config.maxLen) (hk : d.txPkt = some k) (hlt : k < s.params.nBuf) :
    txAlmostEmpty h d s = .next (s.setDev h
      (d.writeFromCursor s.buf k (min (d.txWr.toNat - d.txRd.toNat) (txTopup s.params)))) := by
  obtain ⟨t, ht⟩ := txAlmostEmpty_completes (h := h) hk hlt (Nat.le_add_right_of_le hw)
  obtain ⟨hzero, -⟩ | ⟨-, k', hk', -, rfl⟩ := txAlmostEmpty_eq_next ht
  · exact absurd hzero hn.ne'
  · cases hk.symm.trans hk'
    exact ht

end

/-! ## The events in TX_DATA -/

section
variable {s : State} {hnd : U8} {d : Context}

theorem exec_evTxffaem (hd : s.devs[hnd.toNat]? = some d) (hi : d.initialized = true) (hm : d.mode = txData) :
    exec (.evTxffaem hnd) s = txAlmostEmpty hnd.toNat d s := by
  rw [exec, execEvTxffaem, onEvent_initialized hd hi, if_pos hm]

theorem exec_evPksent (hd : s.devs[hnd.toNat]? = some d) (hi : d.initialized = true) (hm : d.mode = txData) :
    exec (.evPksent hnd) s = .next (s.setDev hnd.toNat { d with mode := txComplete, sigLink := true }) := by
  rw [exec, execEvPksent, onEvent_initialized hd hi, if_pos hm]
  rfl

end

/-! ## The statements about one unit -/

/-- Settles O16: the writes before the pre-load, the pre-load, the writes after it. -/
theorem txstartRule : Obligations.TxstartRule := by
  intro s h d k hq hlt p hdr len n0
  obtain ⟨t, ht⟩ := txstart_completes (h := h) hq hlt
  obtain ⟨k', hk', -, rfl⟩ := txstart_eq_next ht
  cases hq.symm.trans hk'
  rw [ht, hq, Memory.readList_hdr, Context.fifoWrite_readList, Memory.readList_data]
  simp only [Nat.zero_add]
  rfl

/-- Settles O24: the two branches of the top-up; the row lists TX_DATA only. -/
theorem almostEmptyTopsUp : Obligations.AlmostEmptyTopsUp := by
  intro s hnd d hd hi n
  refine ⟨fun hm hn => ?_, fun hm hn hw k hk hlt => ?_, fun hm => ?_⟩
  · exact (exec_evTxffaem hd hi hm).trans (txAlmostEmpty_of_all_written hn)
  · have hcount : min (d.txWr.toNat - d.txRd.toNat) (txTopup s.params) = n := rfl
    rw [exec_evTxffaem hd hi hm, txAlmostEmpty_of_left hn hw hk hlt, hcount, Context.writeFromCursor,
      Context.fifoWrite_readList, if_neg hn.ne', Memory.readList_data]
  · exact exec_of_not_honoured (i := .evTxffaem hnd) hd (beq_eq_false_iff_ne.mpr hm)

/-- Settles O25: the rule has no condition in TX_DATA, and the row lists no other mode. -/
theorem packetSentRule : Obligations.PacketSentRule := by
  intro s hnd d hd hi
  exact ⟨exec_evPksent hd hi, fun hm => exec_of_not_honoured (i := .evPksent hnd) hd (beq_eq_false_iff_ne.mpr hm)⟩

/-! ## A transmission in progress -/

/-- The Device Context without what an interrupt that continues a transmission writes: the cursor, the status latches,
and the record of transfers. -/
def Context.atStaging (d : Context) : Context :=
  { d with txRd := 0#9, stDev := 0#8, stIs1 := 0#8, stIs2 := 0#8, bus := [] }

/-- Device `hnd` of `s` has written the payload bytes of buffer `k` from `d.txRd` up to its cursor to the FIFO. Its
Device Context `e` is `d`, but for what `Context.atStaging` leaves out; parameters and BUF are `p` and `m`. -/
structure Sending (p : Params) (m : Memory) (hnd : U8) (k : Nat) (d : Context) (s : State) (e : Context) : Prop where
  params : s.params = p
  buf : s.buf = m
  dev : s.devs[hnd.toNat]? = some e
  frame : e.atStaging = d.atStaging
  started : d.txRd.toNat ≤ e.txRd.toNat
  bounded : e.txRd.toNat ≤ d.txWr.toNat
  sent : fifoBytes e.bus =
    fifoBytes d.bus ++ Memory.readList m (dataAddr k d.txRd.toNat) (e.txRd.toNat - d.txRd.toNat)

/-- A device that can transmit from buffer `k`. -/
structure CanSend (p : Params) (k : Nat) (d : Context) : Prop where
  initialized : d.initialized = true
  mode : d.mode = txData
  no_request : d.txtimeoutReq = false
  packet : d.txPkt = some k
  buffer : k < p.nBuf
  length : d.txWr.toNat ≤ Config.maxLen

theorem decodeStatus_almostEmpty (hnd : U8) :
    decodeStatus hnd (statusWord 0x00#8 0x20#8 0x00#8) = [.evTxffaem hnd] := by with_unfolding_all rfl

theorem decodeStatus_packetSent (hnd : U8) :
    decodeStatus hnd (statusWord 0x00#8 0x04#8 0x00#8) = [.evPksent hnd] := by with_unfolding_all rfl

section
variable {p : Params} {m : Memory} {hnd : U8} {k : Nat} {d e : Context} {s : State}

theorem Sending.txWr (hs : Sending p m hnd k d s e) : e.txWr = d.txWr := (congrArg Context.txWr hs.frame :)

theorem Sending.canSend (hs : Sending p m hnd k d s e) (hd : CanSend p k d) : CanSend s.params k e where
  initialized := (congrArg Context.initialized hs.frame).trans hd.initialized
  mode := (congrArg Context.mode hs.frame).trans hd.mode
  no_request := (congrArg Context.txtimeoutReq hs.frame).trans hd.no_request
  packet := (congrArg Context.txPkt hs.frame).trans hd.packet
  buffer := hs.params ▸ hd.buffer
  length := hs.txWr ▸ hd.length

/-- Taking an interrupt of one event: the event runs from a transmission that stands where it stood. -/
theorem Sending.enter (hs : Sending p m hnd k d s e) (hd : CanSend p k d) {w : U8} {i : Instr} {rest : List Input}
    (hone : decodeStatus hnd (statusWord 0x00#8 w 0x00#8) = [i]) (hin : s.inputs = .irq hnd 0x00#8 w 0x00#8 :: rest) :
    ∃ u e', step s = exec i u ∧ Sending p m hnd k d u e' ∧ e'.txRd = e.txRd ∧ u.inputs = rest := by
  have he := hs.canSend hd
  obtain ⟨-, hrun⟩ := stepRunsStatusWordEvents s hnd 0x00#8 w 0x00#8 rest e hin hs.dev he.initialized he.no_request
    (by rw [he.mode]; rfl)
  have hentered := State.setDev_get_same { s with inputs := rest } _ e (e.enterDispatcher 0x00#8 w 0x00#8) hs.dev
  exact ⟨_, _, hrun i hone, ⟨hs.params, hs.buf, hentered, hs.frame, hs.started, hs.bounded,
    (fifoBytes_enterDispatcher e _ _ _).trans hs.sent⟩, rfl, rfl⟩

/-- Bytes written from the cursor on move the transmission on by as many. -/
theorem Sending.advance (hs : Sending p m hnd k d s e) {n : Nat} (hn : e.txRd.toNat + n ≤ d.txWr.toNat) :
    Sending p m hnd k d (s.setDev hnd.toNat (e.writeFromCursor s.buf k n)) (e.writeFromCursor s.buf k n) := by
  have hcursor := Context.writeFromCursor_cursor hn d.txWr.isLt s.buf k
  have hstart := hs.started
  refine ⟨hs.params, hs.buf, State.setDev_get_same _ _ e _ hs.dev, hs.frame, ?_, ?_, ?_⟩
  · exact hcursor.symm ▸ Nat.le_add_right_of_le hstart
  · exact hcursor.symm ▸ hn
  · have hnext : dataAddr k e.txRd.toNat = dataAddr k d.txRd.toNat + (e.txRd.toNat - d.txRd.toNat) := by
      rw [← dataAddr_add, Nat.add_sub_cancel' hstart]
    rw [fifoBytes_writeFromCursor, hs.sent, hcursor, hs.buf, hnext, List.append_assoc, Memory.readList_append,
      Nat.sub_add_comm hstart]

/-- EV_TXFFAEM (R183): the transmission moves on by TX_TOPUP bytes, or by what is left. -/
theorem Sending.topUp (hs : Sending p m hnd k d s e) (hd : CanSend p k d) :
    ∃ t e', exec (.evTxffaem hnd) s = .next t ∧ Sending p m hnd k d t e' ∧
      d.txWr.toNat - e'.txRd.toNat = d.txWr.toNat - e.txRd.toNat - txTopup p ∧ t.inputs = s.inputs := by
  have he := hs.canSend hd
  rw [exec_evTxffaem hs.dev he.initialized he.mode]
  obtain hn | hn := Nat.eq_zero_or_pos (min (e.txWr.toNat - e.txRd.toNat) (txTopup s.params))
  · refine ⟨s, e, txAlmostEmpty_of_all_written hn, hs, ?_, rfl⟩
    rw [hs.txWr, hs.params] at hn
    omega
  · have hbounded := hs.bounded
    have hrun := txAlmostEmpty_of_left (h := hnd.toNat) hn he.length he.packet he.buffer
    rw [hs.txWr, hs.params] at hrun
    have hfits : e.txRd.toNat + min (d.txWr.toNat - e.txRd.toNat) (txTopup p) ≤ d.txWr.toNat := by omega
    refine ⟨_, _, hrun, hs.advance hfits, ?_, rfl⟩
    rw [Context.writeFromCursor_cursor hfits d.txWr.isLt]
    omega

/-- A run of almost-empty interrupts: each leaves TX_TOPUP bytes less to write. -/
theorem Sending.topUps {n : Nat} {rest : List Input} (hs : Sending p m hnd k d s e) (hd : CanSend p k d)
    (hin : s.inputs = List.replicate n (.irq hnd 0x00#8 0x20#8 0x00#8) ++ rest) :
    ∃ t e', runSteps n s = .next t ∧ Sending p m hnd k d t e' ∧
      d.txWr.toNat - e'.txRd.toNat = d.txWr.toNat - e.txRd.toNat - n * txTopup p ∧ t.inputs = rest := by
  induction n generalizing s e with
  | zero => exact ⟨s, e, rfl, hs, by omega, hin⟩
  | succ n ih =>
    obtain ⟨u, e₁, hrun, hu, hcursor, hrest⟩ := hs.enter hd (decodeStatus_almostEmpty hnd) hin
    obtain ⟨v, e₂, hexec, hv, hleft, hinputs⟩ := hu.topUp hd
    obtain ⟨t, e', hsteps, ht, hleft', hinputs'⟩ := ih hv (hinputs.trans hrest)
    refine ⟨t, e', ?_, ht, ?_, hinputs'⟩
    · rw [runSteps, hrun, hexec, bindRes_next, hsteps]
    · rw [hleft', hleft, hcursor, Nat.succ_mul, Nat.sub_sub, Nat.add_comm (txTopup p)]

end

/-- Settles O60: a run of top-ups leaves nothing to write, then packet sent. -/
theorem transmitSequence : Obligations.TransmitSequence := by
  intro s hnd d k n rest hdev hi hm hreq hk hlt hlow hw hrd hn hin
  have hd : CanSend s.params k d := ⟨hi, hm, hreq, hk, hlt, hw⟩
  have hs : Sending s.params s.buf hnd k d s d :=
    ⟨rfl, rfl, hdev, rfl, le_rfl, by omega, by simp [Memory.readList]⟩
  obtain ⟨u, e₁, hsteps, hu, hleft, hinputs⟩ := hs.topUps hd hin
  obtain ⟨v, e, hrun, hv, hcursor, hrest⟩ := hu.enter hd (decodeStatus_packetSent hnd) hinputs
  have he := hv.canSend hd
  have hreached : d.txWr.toNat - 64 ≤ n * txTopup s.params := by
    have hpos : 0 < txTopup s.params := by simp only [txTopup, Config.fifoCap]; omega
    have hceil : (d.txWr.toNat - 64) ⌈/⌉ txTopup s.params = n := (Nat.ceilDiv_eq_add_pred_div _ _).trans hn.symm
    rw [Nat.mul_comm, ← hceil]
    exact le_smul_ceilDiv hpos
  have hall : e.txRd = d.txWr := by
    have hbounded := hu.bounded
    rw [hcursor]
    exact BitVec.eq_of_toNat_eq (by omega)
  have hsent := hv.sent
  rw [hall, Memory.readList_data] at hsent
  rw [runSteps_add, hsteps, bindRes_next, runSteps_one, hrun, exec_evPksent hv.dev he.initialized he.mode]
  exact ⟨_, _, rfl, State.setDev_get_same v _ e _ hv.dev, rfl, rfl, hall, hv.txWr, he.packet, hrest, hv.buf, hsent⟩

end Sys2Proof.Machine
end

