-- ==== Sys2Proof/Proofs/Bridge.lean ====
section
/-! PROOF. The concurrency bridge (spec/43_bridge_api.md): the readouts, the tick, SEND with SEND_ABORT, RECEIVE with
the sequencer's wake, and which agent of PRLINK a step runs. Each command and each end of a wait is given once by its
branches (`exec_send_of_buffer`, `sendComplete_of_timeout`, `runAgent_receive_of_wake`); the statements put these
together. -/

namespace Sys2Proof.Machine

/-! ## The readouts -/

/-- Settles O9: each readout is one answer on a device that is there. -/
theorem readoutsAnswerAndWriteNothing : Obligations.ReadoutsAnswerAndWriteNothing := by
  intro s hnd d hd
  refine ⟨?_, ?_, ?_, ?_⟩
  · rw [exec, execGetRssi, onCommand_some hd, sext32]
  · rw [exec, execGetDeviceId, onCommand_some hd]
  · rw [exec, execGetResetCount, onCommand_some hd, zext32]
  · rw [exec, execGetCarrier, onCommand_some hd]

/-! ## The tick -/

theorem tickTimer_toNat (t : U32) : (tickTimer t).toNat = t.toNat - 1 := by
  unfold tickTimer
  split_ifs <;> bv_omega

/-- Settles O48: one pulse maps every device, and on each the timers of the waits in progress. -/
theorem tickCountsDown : Obligations.TickCountsDown := by
  intro s rest hin
  refine ⟨{ s with inputs := rest, devs := s.devs.map tickContext }, ?_, rfl, List.length_map _, fun h d hd => ?_⟩
  · unfold step
    rw [hin]
    rfl
  · refine ⟨tickContext d, by rw [List.getElem?_map, hd]; rfl, rfl, ?_, ?_, ?_, ?_⟩ <;> intro hwait <;>
      simp [tickContext, hwait, tickTimer_toNat]

/-! ## SEND at issue -/

section
variable {s : State} {hnd : U8} {d : Context}

theorem packetOperand_of_lt {p : Params} {a : U32} (hne : a ≠ 0xFFFFFFFF#32) (hlt : a.toNat < p.nBuf) :
    packetOperand p a = some a.toNat := by
  rw [packetOperand, if_neg hne, if_pos hlt]

/-- SEND (R210 steps 1 to 4) once its operand names a buffer. -/
theorem exec_send_of_buffer (hd : s.devs[hnd.toNat]? = some d) {packet : U32} {k : Nat}
    (hk : packetOperand s.params packet = some k) (t : U32) :
    exec (.send hnd packet t) s = .next (
      if d.initialized = false then s.respond 0x02#8 hnd .errNotInit 0#32
      else if d.sendWait then s.respond 0x02#8 hnd .errBusy 0#32
      else s.setDev hnd.toNat { d with
        sendWait := true, sigTxdone := false, txSuccess := false, txq := some k, sigLink := true
        sendTimer := t, sendPkt := some k }) := by
  rw [exec, execSend, onCommand_some hd, hk]
  rfl

/-! ## The end of SEND's wait -/

theorem runAgent_send (hd : s.devs[hnd.toNat]? = some d) : runAgent hnd .send s = sendComplete hnd d s := by
  rw [runAgent, hd]

theorem sendComplete_of_done (hd : s.devs[hnd.toNat]? = some d) (hwait : d.sendWait = true)
    (hdone : d.sigTxdone = true) :
    sendComplete hnd d s = .next ((s.setDev hnd.toNat { d with
        sigTxdone := false, sendWait := false, sendPkt := none }).respond 0x02#8 hnd
      (if d.txSuccess then .ok else .errTxFailed) (if d.txSuccess then d.txWr.zeroExtend 32 else 0#32)) := by
  unfold sendComplete
  dsimp only
  rw [if_neg (by simp [hwait]), if_pos hdone, endSend_of_some (State.setDev_get_same s _ d _ hd), State.setDev_setDev]
  rfl

theorem sendComplete_of_timeout (hwait : d.sendWait = true) (hdone : d.sigTxdone = false) (htimer : d.sendTimer = 0#32)
    {u : State} {e : Context} (hu : sendAbort hnd d s = .next u) (he : u.devs[hnd.toNat]? = some e) :
    sendComplete hnd d s = .next ((u.setDev hnd.toNat { e with
      sendWait := false, sendPkt := none }).respond 0x02#8 hnd .errTimeout 0#32) := by
  unfold sendComplete
  dsimp only
  rw [if_neg (by simp [hwait]), if_neg (by simp [hdone]), if_pos htimer, hu, bindRes_next, endSend_of_some he]

theorem sendComplete_of_waiting (hdone : d.sigTxdone = false) (htimer : d.sendTimer ≠ 0#32) :
    sendComplete hnd d s = .next s := by
  simp [sendComplete, hdone, htimer]

end

/-- Settles O10: the operand, the two refusals, the issue; then the wait's two ends. -/
theorem sendOperation : Obligations.SendOperation := by
  intro s hnd d p t hd
  rw [runAgent_send hd]
  refine ⟨fun hp => ?_, fun hne hlt => ?_, sendComplete_of_done hd, fun hwait hdone htimer u e hu he => ?_,
    fun _ hdone htimer => sendComplete_of_waiting hdone htimer⟩
  · exact exec_send_of_no_buffer hd (packetOperand_eq_none_iff.mpr hp.symm) t
  · rw [exec_send_of_buffer hd (packetOperand_of_lt hne hlt)]
    exact ⟨fun hi => by rw [if_pos hi], fun hi hwait => by rw [if_neg (by simp [hi]), if_pos hwait],
      fun hi hwait => by rw [if_neg (by simp [hi]), if_neg (by simp [hwait])]⟩
  · exact sendComplete_of_timeout hwait hdone htimer hu he

/-! ## SEND_ABORT -/

section
variable {s : State} {hnd : U8} {d : Context}

theorem Context.drop_of_tape {d : Context} {n : Nat} {l tape : List U8} (ha : d.answers = l ++ tape)
    (hl : l.length = n) : d.drop n = { d with answers := tape } := by
  subst hl
  simp [Context.drop, ha]

theorem dispatchOwn_of_uninitialized (hd : s.devs[hnd.toNat]? = some d) (hi : d.initialized = false) :
    dispatchOwn hnd s = .next (s.setDev hnd.toNat { d with txtimeoutReq := false }) := by
  rw [dispatchOwn, hd]
  exact if_pos hi

/-- DISPATCH started by PRLINK (R136): the chip's next three answers are the status burst. -/
theorem dispatchOwn_of_tape (hd : s.devs[hnd.toNat]? = some d) (hi : d.initialized = true) {b0 b1 b2 : U8}
    {tape : List U8} (ha : d.answers = b0 :: b1 :: b2 :: tape) :
    dispatchOwn hnd s = dispatch hnd b0 b1 b2 (s.setDev hnd.toNat { d with answers := tape }) := by
  have hburst : d.peek hnd.toNat 3 = [b0, b1, b2] := Context.peek_of_tape (l := [b0, b1, b2]) ha rfl _
  have htape : d.drop 3 = { d with answers := tape } := Context.drop_of_tape (l := [b0, b1, b2]) ha rfl
  rw [dispatchOwn, hd]
  dsimp only
  rw [if_neg (by simp [hi]), hburst, htape]
  rfl

theorem sendAbort_of_queued {k : Nat} (hk : d.sendPkt = some k) (hq : d.txq = some k) :
    sendAbort hnd d s = .next (s.setDev hnd.toNat { d with txq := none }) :=
  if_pos ⟨by simp [hq], hq.trans hk.symm⟩

theorem sendAbort_of_inFlight {k : Nat} (hk : d.sendPkt = some k) (hq : d.txq ≠ some k) (hpkt : d.txPkt = some k)
    (hm : d.mode = txData) :
    sendAbort hnd d s = dispatchOwn hnd (s.setDev hnd.toNat { d with txtimeoutReq := true }) := by
  rw [sendAbort, if_neg (by simp [hk, hq]), if_pos ⟨by simp [hpkt], hpkt.trans hk.symm, hm⟩]

theorem sendAbort_of_neither {k : Nat} (hk : d.sendPkt = some k) (hq : d.txq ≠ some k)
    (hpkt : ¬(d.txPkt = some k ∧ d.mode = txData)) : sendAbort hnd d s = .next s := by
  rw [sendAbort, if_neg (by simp [hk, hq]), if_neg (by rw [hk]; exact fun h => hpkt h.2)]

end

/-- Settles O11: the packet in `txq`, the packet in flight by the dispatcher's branches, and neither. -/
theorem sendAbortLeavesTxData : Obligations.SendAbortLeavesTxData := by
  intro s hnd d p b0 b1 b2 tape hd hp ha
  have hraised := State.setDev_get_same s _ d { d with txtimeoutReq := true } hd
  have hread := State.setDev_get_same s _ d { d with txtimeoutReq := true, answers := tape } hd
  have hburst (hq : d.txq ≠ some p) (hpkt : d.txPkt = some p) (hm : d.mode = txData) (hi : d.initialized = true) :
      sendAbort hnd d s = dispatch hnd b0 b1 b2
        (s.setDev hnd.toNat { d with txtimeoutReq := true, answers := tape }) := by
    rw [sendAbort_of_inFlight hp hq hpkt hm, dispatchOwn_of_tape hraised hi ha, State.setDev_setDev]
  refine ⟨sendAbort_of_queued hp, fun hq hpkt hm hi hpor => ?_, fun hq hpkt hm hi hpor => ?_,
    fun hq hpkt hm hi => ?_, sendAbort_of_neither hp⟩
  · rw [hburst hq hpkt hm hi, dispatch_of_request hread hi hpor rfl hm, State.setDev_setDev]
    rfl
  · rw [hburst hq hpkt hm hi, dispatch_of_por hread hi hpor, State.setDev_setDev]
    rfl
  · rw [sendAbort_of_inFlight hp hq hpkt hm, dispatchOwn_of_uninitialized hraised hi, State.setDev_setDev]

/-! ## RECEIVE -/

section
variable {s : State} {hnd : U8} {d : Context}

/-- RECEIVE at issue (R213 steps 1 to 4). -/
theorem exec_receive (hd : s.devs[hnd.toNat]? = some d) (t : U32) :
    exec (.receive hnd t) s = .next (
      if d.initialized = false then s.respond 0x03#8 hnd .errNotInit 0xFFFFFFFF#32
      else if d.recvWait then s.respond 0x03#8 hnd .errBusy 0xFFFFFFFF#32
      else if d.rxNext = none then
        s.poolTaken.setDev hnd.toNat { d with recvWait := true, recvTimer := t, rxNext := s.poolAnswer }
      else s.setDev hnd.toNat { d with recvWait := true, recvTimer := t }) := by
  rw [exec, execReceive, onCommand_some hd]
  rfl

theorem runAgent_receive (hd : s.devs[hnd.toNat]? = some d) : runAgent hnd .receive s = receiveComplete hnd d s := by
  rw [runAgent, hd]

theorem receiveComplete_of_timeout (hwait : d.recvWait = true) (hlink : d.sigLink = false)
    (htimer : d.recvTimer = 0#32) :
    receiveComplete hnd d s = .next ((s.setDev hnd.toNat { d with recvWait := false }).respond 0x03#8 hnd
      .errTimeout 0xFFFFFFFF#32) := by
  rw [receiveComplete, if_neg (by simp [hwait]), if_neg (by simp [hlink]), if_pos htimer]
  rfl

theorem receiveComplete_of_waiting (hlink : d.sigLink = false) (htimer : d.recvTimer ≠ 0#32) :
    receiveComplete hnd d s = .next s := by
  simp [receiveComplete, hlink, htimer]

theorem receiveComplete_of_woken (hwait : d.recvWait = true) (hlink : d.sigLink = true) :
    receiveComplete hnd d s = receiveWoken hnd hnd.toNat d s := by
  rw [receiveComplete, if_neg (by simp [hwait]), if_pos hlink]

/-! ## The sequencer's wake -/

/-- What NEXT finds after WAKE: the signal taken, the wait over, the branch on `mode` done (R213 steps 6 to 8, R214). -/
def Context.wake (d : Context) : Context := { wakeDeliver d.takeLink with recvWait := false }

theorem Context.wake_txq (d : Context) : d.wake.txq = d.txq := wakeDeliver_txq _

theorem runAgent_receive_of_uninitialized (hd : s.devs[hnd.toNat]? = some d) (hwait : d.recvWait = true)
    (hlink : d.sigLink = true) (hi : d.initialized = false) :
    runAgent hnd .receive s = .next ((s.setDev hnd.toNat { d with
      recvWait := false, sigLink := false }).respond 0x03#8 hnd .errNotInit 0xFFFFFFFF#32) := by
  rw [runAgent_receive hd, receiveComplete_of_woken hwait hlink, receiveWoken, if_pos hi]
  rfl

/-- A woken RECEIVE on an initialised device: NEXT's state, and WAKE's result as the answer. -/
theorem runAgent_receive_of_wake (hd : s.devs[hnd.toNat]? = some d) (hwait : d.recvWait = true)
    (hlink : d.sigLink = true) (hi : d.initialized = true) {u : State} (hu : wakeNext hnd.toNat d.wake s = .next u) :
    runAgent hnd .receive s = .next (u.respond 0x03#8 hnd .ok (refWord (wakeResult d))) := by
  rw [Context.wake] at hu
  rw [runAgent_receive hd, receiveComplete_of_woken hwait hlink, receiveWoken, if_neg (by simp [hi]), hu, bindRes_next]

end

/-- Settles O12: the refusals and the issue by the branches of RECEIVE, then the ends of its wait. -/
theorem receiveOperation : Obligations.ReceiveOperation := by
  intro s hnd d t hd
  rw [exec_receive hd]
  refine ⟨fun hi => ?_, fun hi hwait => ?_, fun hi hwait hnext => ?_, fun hi hwait hnext => ?_,
    fun hwait hlink htimer => ?_, fun _ hlink htimer => ?_, runAgent_receive_of_uninitialized hd,
    fun hwait hlink hi u hu => runAgent_receive_of_wake hd hwait hlink hi hu⟩
  · rw [if_pos hi]
  · rw [if_neg (by simp [hi]), if_pos hwait]
  · rw [if_neg (by simp [hi]), if_neg (by simp [hwait]), if_neg hnext]
  · rw [if_neg (by simp [hi]), if_neg (by simp [hwait]), if_pos hnext]
  · rw [runAgent_receive hd, receiveComplete_of_timeout hwait hlink htimer]
  · rw [runAgent_receive hd, receiveComplete_of_waiting hlink htimer]

/-! ## NEXT by its branches (R215) -/

section
variable {s : State} {d : Context}

theorem wakeNext_of_idle {h : Nat} (hq : d.txq = none) : wakeNext h d s = .next (s.setDev h (rxarm s.params d)) :=
  if_pos hq

theorem wakeNext_of_queued {h k : Nat} (hq : d.txq = some k) : wakeNext h d s = txstart h d s :=
  if_neg (by simp [hq])

/-! ## WAKE's branch on `mode` (R214) -/

theorem wakeDeliver_of_txComplete (hm : d.mode = txComplete) :
    wakeDeliver d = { d with
      txPkt := none, txSuccess := if d.txq = none then true else d.txSuccess
      sigTxdone := if d.txq = none then true else d.sigTxdone } := by
  unfold wakeDeliver
  split_ifs <;> rfl

theorem wakeDeliver_of_txError (hm : d.mode = txError) :
    wakeDeliver d = { d with
      txPkt := none, txSuccess := if d.txq = none then false else d.txSuccess
      sigTxdone := if d.txq = none then true else d.sigTxdone } := by
  rw [wakeDeliver, if_neg (by rw [hm]; decide), if_pos hm]
  split_ifs <;> rfl

theorem wakeDeliver_of_rxComplete (hm : d.mode = rxComplete) : wakeDeliver d = { d with rxCompleted := none } := by
  rw [wakeDeliver, if_neg (by rw [hm]; decide), if_neg (by rw [hm]; decide), if_pos hm]

theorem wakeDeliver_of_other (h6 : d.mode ≠ txComplete) (h7 : d.mode ≠ txError) (h3 : d.mode ≠ rxComplete) :
    wakeDeliver d = d := by
  rw [wakeDeliver, if_neg h6, if_neg h7, if_neg h3]

theorem wakeDeliver_rxCompleted (d : Context) :
    (wakeDeliver d).rxCompleted = if d.mode = rxComplete then none else d.rxCompleted := by
  split_ifs with hm
  · rw [wakeDeliver_of_rxComplete hm]
  · unfold wakeDeliver
    split_ifs <;> rfl

/-- With a packet queued, WAKE delivers no TX result. -/
theorem wakeDeliver_of_queued (hq : d.txq ≠ none) :
    (wakeDeliver d).txSuccess = d.txSuccess ∧ (wakeDeliver d).sigTxdone = d.sigTxdone := by
  unfold wakeDeliver
  split_ifs <;> exact ⟨rfl, rfl⟩

end

/-- Settles O13: WAKE's branch as a Device Context, then the two ways of NEXT. -/
theorem wakeOperation : Obligations.WakeOperation := by
  intro s hnd d hd hwait hlink hi woken delivered result
  have hdelivered : d.wake = delivered := by
    unfold delivered Context.wake
    by_cases h6 : d.mode = txComplete
    · rw [if_pos h6, wakeDeliver_of_txComplete (d := d.takeLink) h6]; rfl
    by_cases h7 : d.mode = txError
    · rw [if_neg h6, if_pos h7, wakeDeliver_of_txError (d := d.takeLink) h7]; rfl
    by_cases h3 : d.mode = rxComplete
    · rw [if_neg h6, if_neg h7, if_pos h3, wakeDeliver_of_rxComplete (d := d.takeLink) h3]; rfl
    · rw [if_neg h6, if_neg h7, if_neg h3, wakeDeliver_of_other (d := d.takeLink) h6 h7 h3]; rfl
  rw [← hdelivered]
  refine ⟨fun hq => ?_, fun k hq hk => ?_⟩
  · exact runAgent_receive_of_wake hd hwait hlink hi (wakeNext_of_idle (d.wake_txq.trans hq))
  · obtain ⟨u, hu⟩ := txstart_completes (h := hnd.toNat) (d.wake_txq.trans hq) hk
    exact ⟨u, hu, runAgent_receive_of_wake hd hwait hlink hi ((wakeNext_of_queued (d.wake_txq.trans hq)).trans hu)⟩

/-- Settles O14: TXSTART from what WAKE leaves. -/
theorem wakeStartsQueuedPacket : Obligations.WakeStartsQueuedPacket := by
  intro s hnd d k hd hwait hlink hi hq hk
  obtain ⟨u, hu⟩ := txstart_completes (h := hnd.toNat) (d.wake_txq.trans hq) hk
  have hrun := runAgent_receive_of_wake hd hwait hlink hi ((wakeNext_of_queued (d.wake_txq.trans hq)).trans hu)
  obtain ⟨k', -, -, rfl⟩ := txstart_eq_next hu
  obtain ⟨hsuccess, hdone⟩ := wakeDeliver_of_queued (d := d.takeLink) (by simp [hq])
  refine ⟨_, _, hrun, State.setDev_get_same s _ d _ hd, rfl, d.wake_txq.trans hq, rfl, hsuccess, hdone, rfl, ?_, ?_,
    ?_, ?_, wakeDeliver_rxCompleted d.takeLink, rfl, fun _ => rfl⟩
  all_goals simp [Context.wake]

/-! ## PRLINK's own agents -/

theorem step_resume {s : State} {hnd : U8} {a : Agent} {rest : List Input} (h : s.inputs = .resume hnd a :: rest) :
    step s = runAgent hnd a { s with inputs := rest } := by
  unfold step
  rw [h]
  rfl

theorem step_idle {s : State} (h : s.inputs = []) : step s = runOwnAgents s := by
  unfold step
  rw [h]

theorem runOwnAgents_of_none {s : State} (h : enabledUnits s = []) : runOwnAgents s = .next s := by
  rw [runOwnAgents, h]

theorem runOwnAgents_of_one {s : State} {u : U8 × Agent} (h : enabledUnits s = [u]) :
    runOwnAgents s = runAgent u.1 u.2 s := by
  rw [runOwnAgents, h]

/-- Of several enabled agents one runs (spec/60_exceptions.md R283). -/
theorem runOwnAgents_of_several {s : State} (h : 2 ≤ (enabledUnits s).length) :
    ∃ u ∈ enabledUnits s, runOwnAgents s = runAgent u.1 u.2 { s with turns := s.turns + 1 } := by
  match hunits : enabledUnits s with
  | [] | [_] => simp [hunits] at h
  | u :: v :: us =>
    have hlt : Config.agentChoice s.turns % ((v :: us).length + 1) < (u :: v :: us).length :=
      Nat.mod_lt _ (Nat.succ_pos _)
    refine ⟨_, List.getElem_mem hlt, ?_⟩
    rw [← List.getD_eq_getElem _ u hlt, runOwnAgents, hunits]

/-- The agents whose next unit is enabled (R203, spec/40_link_state_machine.md R136, spec/20_memory.md R80). -/
theorem mem_enabledAgents {d : Context} {a : Agent} :
    a ∈ enabledAgents d ↔
      (a = .send ∧ d.sendWait = true ∧ (d.sigTxdone = true ∨ d.sendTimer = 0#32)) ∨
      (a = .receive ∧ d.recvWait = true ∧ (d.sigLink = true ∨ d.recvTimer = 0#32)) ∨
      (a = .dispatcher ∧ d.txtimeoutReq = true) ∨ ∃ j, a = .phy j ∧ j < d.phyJobs.length := by
  cases a <;> simp [enabledAgents, List.mem_ite_nil_right]

/-- With at most 256 devices, an agent of `enabledUnits` names its device. -/
theorem mem_enabledUnits {s : State} (hlen : s.devs.length ≤ 256) {hnd : U8} {a : Agent} :
    (hnd, a) ∈ enabledUnits s ↔ ∃ d, s.devs[hnd.toNat]? = some d ∧ a ∈ enabledAgents d := by
  simp only [enabledUnits, List.mem_flatMap, List.mem_map, Prod.mk.injEq, Prod.exists, List.mk_mem_zipIdx_iff_getElem?]
  constructor
  · rintro ⟨d, i, hd, a, ha, rfl, rfl⟩
    obtain ⟨hlt, -⟩ := List.getElem?_eq_some_iff.mp hd
    refine ⟨d, ?_, ha⟩
    rwa [BitVec.toNat_ofNat, Nat.mod_eq_of_lt (hlt.trans_le hlen)]
  · rintro ⟨d, hd, ha⟩
    exact ⟨d, hnd.toNat, hd, a, ha, BitVec.ofNat_toNat .., rfl⟩

/-- Settles O7: the turn given, and by the number of enabled agents where none is. -/
theorem stepRunsAgents : Obligations.StepRunsAgents := by
  intro s
  refine ⟨fun _ _ _ => step_resume, fun hin hnone => ?_, fun hnd a hin hone => ?_, fun hin hseveral => ?_,
    fun hlen hnd a => ?_⟩
  · exact (step_idle hin).trans (runOwnAgents_of_none hnone)
  · exact (step_idle hin).trans (runOwnAgents_of_one hone)
  · rw [step_idle hin]
    exact runOwnAgents_of_several hseveral
  · simp only [mem_enabledUnits hlen, mem_enabledAgents]

end Sys2Proof.Machine
end

