-- ==== Sys2Proof/Proofs/Bringup.lean ====
section
/-! PROOF. Bring-up, INIT and FORCE_RESET (spec/43_bridge_api.md R204 to R209, R219). BRINGUP is given once by its
branches (`bringup_of_bad_silicon` to `bringup_of_ok`), with its programming in one update (`bringupProgram_eq`): the
register writes as one list, and the registers it writes. What BRINGUP leaves whatever its status (`bringup_effect`) is
what FORCE_RESET rests on. -/

namespace Sys2Proof.Machine

/-! ## The PHY procedures as writes -/

/-- The register writes of APPLY_ROW (spec/44_phy_config.md R244). -/
def rowWrites (p : Params) (r : PhyRow) : List (ChipReg × U8) :=
  [(.ifbw, r.ifFilter), (.afcGear, r.afcGear), (.crGear, r.crGear)] ++
    (r.crOsr.zipIdx.map fun c => (.crOsr c.2, c.1)) ++
    [(.afcLimit, r.afcLimiter), (.txdr1, (bytesOf16 r.txRate).1), (.txdr0, (bytesOf16 r.txRate).2),
     (.modctl1, r.modCtl ||| p.whitenMask), (.fdev, r.fdev)]

theorem applyRowOps_eq (p : Params) (r : PhyRow) :
    applyRowOps p r = (rowWrites p r).map fun w => .transfer w.1 w.2 := by
  simp [applyRowOps, rowWrites]

/-- The register writes of CARRIER (R250) at the clamped frequency `f`. -/
def carrierWrites (p : Params) (f : U32) : List (ChipReg × U8) :=
  let r := freqToRegs p f (bandMult p f)
  [(.bandsel, r.1), (.carrier1, (bytesOf16 r.2.1).1), (.carrier0, (bytesOf16 r.2.1).2)]

theorem applyPhyOps_datarate (p : Params) (bps : U32) (d : Context) :
    applyPhyOps d (datarateOps p bps) = { d.regWrites (rowWrites p (phyRow p (rowsel p bps))) with
      phy := { d.phy with row := rowsel p bps, byteTimeout := byteTimeout p (datarateValue p bps) } } := by
  rw [datarateOps, applyPhyOps_append, applyRowOps_eq, applyPhyOps_transfers]
  rfl

theorem applyPhyOps_carrier (p : Params) (cfg : Cfg) (hz : U32) (d : Context) :
    applyPhyOps d (carrierOps p cfg hz) =
      let f := carrierValue cfg hz
      let r := freqToRegs p f (bandMult p f)
      { d.regWrites (carrierWrites p f) with
        phy := { d.phy with band := r.1, chan := r.2.1, carrier := f, freqStepQ := r.2.2 } } := by
  simp [carrierOps, carrierWrites, applyPhyOps, applyPhyOp, Context.regWrites]

theorem applyPhyOps_txpower (p : Params) (level : U8) (d : Context) :
    applyPhyOps d (txpowerOps p level) = { d.regWrites [(.txpower, txpowCode p (saturateLevel level))] with
      phy := { d.phy with txpow := saturateLevel level } } := rfl

/-- The level saturates to 7 (R255). -/
theorem saturateLevel_toNat (level : U8) : (saturateLevel level).toNat = min level.toNat 7 := by
  unfold saturateLevel
  split_ifs with h
  · have : 7 < level.toNat := h
    simp; omega
  · have : level.toNat ≤ 7 := Nat.le_of_not_lt h
    simp; omega

theorem saturateLevel_eq (level : U8) : saturateLevel level = BitVec.ofNat 3 (min level.toNat 7) := by
  rw [← saturateLevel_toNat, BitVec.ofNat_toNat, BitVec.setWidth_eq]

/-! ## R206 steps 7 to 18 -/

/-- `phy` after bring-up with configuration `cfg` (R206 step 15). -/
def bringupPhy (p : Params) (cfg : Cfg) : Phy :=
  let f := carrierValue cfg cfg.centerFreq
  let r := freqToRegs p f (bandMult p f)
  { row := rowsel p cfg.bitrate, byteTimeout := byteTimeout p (datarateValue p cfg.bitrate)
    carrier := f, band := r.1, chan := r.2.1, freqStepQ := r.2.2, txpow := saturateLevel cfg.maxPower }

/-- The register writes of R206 steps 8 to 18, in order. -/
def programWrites (p : Params) (id : U32) (cfg : Cfg) : List (ChipReg × U8) :=
  bringupWrites p cfg.xtalCap id ++ rowWrites p (phyRow p (rowsel p cfg.bitrate)) ++
    carrierWrites p (carrierValue cfg cfg.centerFreq) ++ [(.txpower, txpowCode p (saturateLevel cfg.maxPower))] ++
    rxarmWrites p

theorem Context.regWrites_append (d : Context) (ws vs : List (ChipReg × U8)) :
    (d.regWrites ws).regWrites vs = d.regWrites (ws ++ vs) := by
  simp [Context.regWrites]

/-- R206 steps 7 to 18 in one update. -/
theorem bringupProgram_eq (p : Params) (id : U32) (active : Option Nat) (d : Context) :
    bringupProgram p id active d = { d.regWrites (programWrites p id d.cfg) with
      rxActive := active, cfg := { d.cfg with deviceId := id }, phy := bringupPhy p d.cfg
      txq := none, txPkt := none, txRd := 0#9, txWr := 0#9, txSuccess := false, txtimeoutReq := false, sigLink := false
      ien1 := ien1Rx, ien2 := ien2Rx, rxWr := 0#9, mode := rxWaitPreamble, initialized := true } := by
  unfold bringupProgram programWrites
  simp only [applyPhyOps_append, applyPhyOps_datarate, applyPhyOps_carrier, applyPhyOps_txpower,
    ← Context.regWrites_append]
  rfl

/-! ## R206 steps 1 to 4: the probe of the chip -/

/-- The transfers of the probe: the software reset, the stale flags, the two identity reads. -/
def probeTransfers (p : Params) (junk : List U8) (identity : U8 × U8) : List BusOp :=
  [.write .opmode p.chipVal.opSwReset, .burstRead .devstat junk, .read .devtype identity.1, .read .devver identity.2]

section
variable {p : Params} {h : Nat} {d : Context}

theorem bringupProbed_bus (p : Params) (h : Nat) (d : Context) :
    ∃ junk : List U8, junk.length = 3 ∧
      (bringupProbed p h d).bus = d.bus ++ probeTransfers p junk (bringupIdentity p h d) := by
  refine ⟨({ d with initialized := false }.regWrites [(.opmode, p.chipVal.opSwReset)]).peek h 3,
    Context.peek_length _ _ _, ?_⟩
  simp [bringupProbed, bringupReset, bringupIdentity, probeTransfers, Context.regRead, Context.burstRead]

theorem siliconOk_iff :
    siliconOk p h d = true ↔ bringupIdentity p h d = (p.expectDevType, p.expectDevVer) := by
  simp [siliconOk, Prod.ext_iff]

section
variable {j0 j1 j2 ty ve : U8} {tape : List U8}

theorem bringupReset_of_tape (ha : d.answers = j0 :: j1 :: j2 :: ty :: ve :: tape) :
    bringupReset p h d = { d with
      initialized := false, answers := ty :: ve :: tape
      bus := d.bus ++ [.write .opmode p.chipVal.opSwReset, .burstRead .devstat [j0, j1, j2]] } := by
  have hjunk : ({ d with initialized := false }.regWrites [(.opmode, p.chipVal.opSwReset)]).peek h 3 = [j0, j1, j2] :=
    Context.peek_of_tape (l := [j0, j1, j2]) ha rfl h
  rw [bringupReset, Context.burstRead_pos (by decide), hjunk]
  simp [ha, Context.regWrites]

theorem bringupIdentity_of_tape (ha : d.answers = j0 :: j1 :: j2 :: ty :: ve :: tape) :
    bringupIdentity p h d = (ty, ve) := by
  unfold bringupIdentity
  dsimp only
  rw [bringupReset_of_tape ha, Context.regRead_of_tape rfl, Context.peekByte_of_tape rfl, Context.peekByte_of_tape rfl]

theorem bringupProbed_of_tape (ha : d.answers = j0 :: j1 :: j2 :: ty :: ve :: tape) :
    bringupProbed p h d = { d with
      initialized := false, answers := tape
      bus := d.bus ++ probeTransfers p [j0, j1, j2] (ty, ve) } := by
  rw [bringupProbed, bringupReset_of_tape ha, Context.regRead_of_tape rfl, Context.regRead_of_tape rfl]
  simp [probeTransfers]

theorem siliconOk_of_tape (ha : d.answers = j0 :: j1 :: j2 :: ty :: ve :: tape) :
    siliconOk p h d = true ↔ ty = p.expectDevType ∧ ve = p.expectDevVer := by
  rw [siliconOk_iff, bringupIdentity_of_tape ha, Prod.mk.injEq]

end

theorem freqRangeOk_iff {c : Cfg} :
    freqRangeOk p c = true ↔ p.freqLoLimit ≤ c.minFreq ∧ c.minFreq ≤ c.maxFreq ∧ c.maxFreq ≤ p.freqHiLimit := by
  simp [freqRangeOk, and_assoc]

end

/-! ## BRINGUP by its branches -/

section
variable {s t : State} {h : Nat} {d : Context}

theorem bringupBuffer_eq_none_iff : bringupBuffer d s = none ↔ d.rxActive = none ∧ s.poolAnswer = none := by
  unfold bringupBuffer
  split_ifs <;> simp [*]

theorem bringup_of_bad_silicon (hsilicon : ¬siliconOk s.params h d = true) :
    bringup h d s = (.errSilicon, s.setDev h (bringupProbed s.params h d)) :=
  if_pos (Bool.eq_false_iff.mpr hsilicon)

theorem bringup_of_bad_range (hsilicon : siliconOk s.params h d = true) (hrange : ¬freqRangeOk s.params d.cfg = true) :
    bringup h d s = (.errFreqRange, s.setDev h (bringupProbed s.params h d)) := by
  simp [bringup, hsilicon, hrange]

theorem bringup_of_no_buffer (hsilicon : siliconOk s.params h d = true) (hrange : freqRangeOk s.params d.cfg = true)
    (hbuffer : bringupBuffer d s = none) :
    bringup h d s = (.errNoBuffer, (bringupPool d s).setDev h (bringupProbed s.params h d)) := by
  simp [bringup, hsilicon, hrange, hbuffer]

theorem bringup_of_ok (hsilicon : siliconOk s.params h d = true) (hrange : freqRangeOk s.params d.cfg = true)
    (hbuffer : bringupBuffer d s ≠ none) :
    bringup h d s = (.ok, (bringupPool d s).setDev h (bringupProgram s.params (Config.hash32 s.serial)
      (bringupBuffer d s) (bringupProbed s.params h d))) := by
  simp [bringup, hsilicon, hrange, hbuffer]

/-- What a BRINGUP that answers OK did. -/
theorem bringup_eq_ok (hb : bringup h d s = (.ok, t)) :
    siliconOk s.params h d = true ∧ bringupBuffer d s ≠ none ∧
      t = (bringupPool d s).setDev h (bringupProgram s.params (Config.hash32 s.serial) (bringupBuffer d s)
        (bringupProbed s.params h d)) := by
  by_cases hsilicon : siliconOk s.params h d = true
  case neg => cases (bringup_of_bad_silicon hsilicon).symm.trans hb
  by_cases hrange : freqRangeOk s.params d.cfg = true
  case neg => cases (bringup_of_bad_range hsilicon hrange).symm.trans hb
  by_cases hbuffer : bringupBuffer d s = none
  case pos => cases (bringup_of_no_buffer hsilicon hrange hbuffer).symm.trans hb
  cases (bringup_of_ok hsilicon hrange hbuffer).symm.trans hb
  exact ⟨hsilicon, hbuffer, rfl⟩

theorem bringupPool_out (d : Context) (s : State) : (bringupPool d s).out = s.out := by
  unfold bringupPool
  split <;> rfl

end

/-! ## BRINGUP that fails -/

/-- Settles O35: the probe on the chip's five answers, then the checks in their order. -/
theorem bringupFailureChecks : Obligations.BringupFailureChecks := by
  intro s h d j0 j1 j2 ty ve tape ha probed silicon range
  have hprobed : bringupProbed s.params h d = probed := bringupProbed_of_tape ha
  have hsilicon : siliconOk s.params h d = true ↔ silicon := siliconOk_of_tape ha
  have hrange : freqRangeOk s.params d.cfg = true ↔ range := freqRangeOk_iff
  rw [← hsilicon, ← hrange, ← hprobed]
  refine ⟨bringup_of_bad_silicon, bringup_of_bad_range, fun hs hr hactive hpool => ?_, fun hs hr hbuffer => ?_⟩
  · rw [bringup_of_no_buffer hs hr (bringupBuffer_eq_none_iff.mpr ⟨hactive, hpool⟩), bringupPool, if_pos hactive]
  · rw [bringup_of_ok hs hr (mt bringupBuffer_eq_none_iff.mp (by tauto))]

/-! ## BRINGUP that succeeds -/

theorem phyRow_mem (p : Params) (i : Nat) : phyRow p i ∈ p.phyTable := by
  rw [phyRow, List.getD_eq_getElem?_getD]
  cases hr : p.phyTable[i]? with
  | none => exact List.mem_cons_self
  | some r => exact List.mem_of_getElem? hr

theorem crOsr_length_of_wf {p : Params} (hp : p.wf = true) (i : Nat) : (phyRow p i).crOsr.length = p.nCr := by
  have hall : p.phyTable.all (fun r => r.crOsr.length == p.nCr) = true := by
    simp only [Params.wf, Bool.and_eq_true] at hp
    tauto
  simpa using List.all_eq_true.mp hall _ (phyRow_mem p i)

theorem programWrites_length {p : Params} (hp : p.wf = true) (id : U32) (cfg : Cfg) :
    (programWrites p id cfg).length = 39 + p.nCr := by
  simp [programWrites, bringupWrites, rowWrites, carrierWrites, rxarmWrites, fifoClearWrites, crOsr_length_of_wf hp]
  omega

theorem writeCount_writes (ws : List (ChipReg × U8)) :
    writeCount (ws.map fun w => BusOp.write w.1 w.2) = ws.length := by
  simp [writeCount, List.countP_map, Function.comp_def]

/-- The writes of a BRINGUP that succeeds: the software reset, and the programming. -/
theorem writeCount_bringup {p : Params} (hp : p.wf = true) (junk : List U8) (identity : U8 × U8) (id : U32)
    (cfg : Cfg) :
    writeCount (probeTransfers p junk identity ++ (programWrites p id cfg).map fun w => BusOp.write w.1 w.2) =
      46 + p.nCr - 6 := by
  have hprobe : writeCount (probeTransfers p junk identity) = 1 := rfl
  rw [writeCount, List.countP_append, ← writeCount, ← writeCount, hprobe, writeCount_writes, programWrites_length hp]
  omega

/-- Settles O34: the probe, the pool by whether a buffer was held, and the programming in one update. -/
theorem bringupSuccessTable : Obligations.BringupSuccessTable := by
  intro s t h d d0 hp hd hb
  obtain ⟨hsilicon, hbuffer, rfl⟩ := bringup_eq_ok hb
  obtain ⟨junk, hjunk, hprobe⟩ := bringupProbed_bus s.params h d
  rw [siliconOk_iff.mp hsilicon] at hprobe
  obtain ⟨hdevs, -, hbuf, -⟩ := bringupPool_frame d s
  rw [bringupProgram_eq]
  refine ⟨_, State.setDev_get_same _ _ d0 _ (hdevs ▸ hd), fun j hj => ?_, rfl, rfl, fun ha => ?_, fun ha => ?_,
    rfl, rfl, rfl, rfl, rfl, rfl, rfl, rfl, rfl, rfl, rfl, rfl, rfl, rfl, rfl, rfl, ?_, rfl, rfl, rfl, rfl, rfl,
    rfl, rfl, rfl, rfl, rfl, rfl, fun _ => congrArg (Memory.read · _) hbuf, junk, hjunk, _, ?_,
    writeCount_bringup hp junk (s.params.expectDevType, s.params.expectDevVer) (Config.hash32 s.serial) d.cfg, ?_⟩
  · rw [State.setDev_get_ne _ _ _ _ hj, hdevs]
  · exact ⟨if_neg ha, by rw [State.setDev_poolFree, bringupPool, if_neg ha]⟩
  · refine ⟨if_pos ha, fun hnone => hbuffer (bringupBuffer_eq_none_iff.mpr ⟨ha, hnone⟩), ?_⟩
    rw [State.setDev_poolFree, bringupPool, if_pos ha]
  · rw [← saturateLevel_eq]
    rfl
  · rw [← List.append_assoc, ← hprobe]
    rfl
  · have hcode : txpowCode s.params (saturateLevel d.cfg.maxPower) =
        s.params.txpowEnum.getD (min d.cfg.maxPower.toNat 7) 0#8 := by rw [txpowCode, saturateLevel_toNat]
    simp only [probeTransfers, programWrites, bringupWrites, rowWrites, carrierWrites, rxarmWrites, fifoClearWrites,
      hcode, List.map_append, List.map_map, List.map_cons, List.map_nil, List.append_assoc, List.cons_append,
      List.nil_append]
    rfl

/-! ## INIT -/

section
variable {s : State} {hnd : U8} {d : Context}

theorem exec_init_of_busy (hd : s.devs[hnd.toNat]? = some d) (hbusy : d.sendWait = true ∨ d.recvWait = true) :
    exec (.init hnd) s = .next (s.respond 0x01#8 hnd .errBusy 0#32) := by
  rw [exec, execInit, onCommand_some hd, if_pos (by simpa using hbusy)]

/-- INIT of a device that nobody waits on: BRINGUP with the settings record, and its status (R204). -/
theorem exec_init_of_idle (hd : s.devs[hnd.toNat]? = some d) (hsend : d.sendWait = false) (hrecv : d.recvWait = false)
    {r : Status × State} (hb : bringup hnd.toNat (initContext s.settings d) s = r) :
    exec (.init hnd) s = .next (r.2.respond 0x01#8 hnd r.1 (if r.1 = .ok then hnd.zeroExtend 32 else 0#32)) := by
  rw [exec, execInit, onCommand_some hd, if_neg (by simp [hsend, hrecv])]
  dsimp only
  rw [hb]

end

/-- Settles O36: the refusal, and the answer by the status of BRINGUP. -/
theorem initOperation : Obligations.InitOperation := by
  intro s hnd d hd
  refine ⟨exec_init_of_busy hd, fun hsend hrecv => ?_⟩
  intro d1
  have hrun := exec_init_of_idle hd hsend hrecv (show bringup hnd.toNat d1 s = _ from rfl)
  exact ⟨fun hok => by rw [hrun, hok, if_pos rfl], fun herr => by rw [hrun, if_neg herr]⟩

/-- Settles O37: the three checks of BRINGUP pass, and its programming in one update. -/
theorem initBringsTheDeviceUp : Obligations.InitBringsTheDeviceUp := by
  intro s hnd d j0 j1 j2 ty ve tape hd hsend hrecv ha hty hve hlo hle hhi hbuffer
  have hsilicon : siliconOk s.params hnd.toNat (initContext s.settings d) = true :=
    (siliconOk_of_tape ha).mpr ⟨hty, hve⟩
  have hrange : freqRangeOk s.params (initContext s.settings d).cfg = true := freqRangeOk_iff.mpr ⟨hlo, hle, hhi⟩
  have hheld : bringupBuffer (initContext s.settings d) s ≠ none :=
    mt bringupBuffer_eq_none_iff.mp fun h => hbuffer.elim (· h.1) (· h.2)
  have hrun := exec_init_of_idle hd hsend hrecv (bringup_of_ok hsilicon hrange hheld)
  obtain ⟨hdevs, -, hbuf, -⟩ := bringupPool_frame (initContext s.settings d) s
  rw [bringupProgram_eq] at hrun
  refine ⟨_, _, hrun, State.setDev_get_same _ _ d _ (hdevs ▸ hd), ?_, rfl, rfl, hheld, rfl, rfl, rfl, rfl, rfl, rfl,
    rfl, rfl, rfl, rfl, hbuf⟩
  rw [State.respond_out, State.setDev_out, bringupPool_out, if_pos rfl]

/-! ## FORCE_RESET -/

section
variable {s : State} {hnd : U8} {d : Context}

theorem wakeStranded_of_some {h : Nat} (hd : s.devs[h]? = some d) (was : Bool) :
    wakeStranded h was s = s.setDev h (if was then { d with txSuccess := false, sigTxdone := true } else d) := by
  unfold wakeStranded
  rw [hd]
  cases was with
  | true => rfl
  | false => exact (State.setDev_self hd).symm

/-- FORCE_RESET (R219) from what its BRINGUP answers and leaves. -/
theorem exec_forceReset (hd : s.devs[hnd.toNat]? = some d) {r : Status × State} {b : Context}
    (hb : bringup hnd.toNat (recycleSlots { d with resetCount := d.resetCount + 1#16 }) (recyclePool d s) = r)
    (hup : r.2.devs[hnd.toNat]? = some b) :
    exec (.forceReset hnd) s = .next ((r.2.setDev hnd.toNat
      (if d.sendWait then { b with txSuccess := false, sigTxdone := true } else b)).respond 0x20#8 hnd r.1
        ((d.resetCount + 1#16).zeroExtend 32)) := by
  rw [exec, execForceReset, onCommand_some hd]
  dsimp only
  rw [hb, wakeStranded_of_some hup]
  rfl

theorem recyclePool_of_kept (h : d.rxCompleted = none ∨ d.rxNext = none) : recyclePool d s = s := by
  unfold recyclePool
  split
  · rename_i k hk
    rw [if_pos (h.resolve_left (by simp [hk]))]
  · rfl

theorem recyclePool_of_released {k : Nat} (hk : d.rxCompleted = some k) (hnext : d.rxNext ≠ none) :
    recyclePool d s = s.poolRelease k := by
  rw [recyclePool, hk]
  exact if_neg hnext

theorem recyclePool_out (d : Context) (s : State) : (recyclePool d s).out = s.out := by
  unfold recyclePool
  split
  · split <;> rfl
  · rfl

/-- What BRINGUP leaves whatever its status (R206, R312). -/
structure BringupEffect (d : Context) (st : Status) (e : Context) : Prop where
  frame : e = { d with
    mode := e.mode, initialized := e.initialized, txq := e.txq, txPkt := e.txPkt, txRd := e.txRd, txWr := e.txWr
    txSuccess := e.txSuccess, rxActive := e.rxActive, rxWr := e.rxWr, phy := e.phy, ien1 := e.ien1, ien2 := e.ien2
    sigLink := e.sigLink, txtimeoutReq := e.txtimeoutReq, answers := e.answers, reads := e.reads, bus := e.bus
    cfg := { d.cfg with deviceId := e.cfg.deviceId } }
  initialized_iff : st = .ok ↔ e.initialized = true
  cleared : st = .ok → e.mode = rxWaitPreamble ∧ e.txq = none ∧ e.txPkt = none ∧ e.sigLink = false

theorem bringupProbed_effect (p : Params) (h : Nat) (d : Context) {st : Status} (hst : st ≠ .ok) :
    BringupEffect d st (bringupProbed p h d) :=
  ⟨rfl, by simp [hst], fun hok => absurd hok hst⟩

theorem bringup_effect (h : Nat) (d : Context) (s : State) :
    ∃ e, (bringup h d s).2.devs = s.devs.set h e ∧ (bringup h d s).2.out = s.out ∧
      BringupEffect d (bringup h d s).1 e := by
  obtain ⟨hdevs, -⟩ := bringupPool_frame d s
  have hout := bringupPool_out d s
  unfold bringup
  dsimp only
  split_ifs
  · exact ⟨_, rfl, rfl, bringupProbed_effect _ _ _ nofun⟩
  · exact ⟨_, rfl, rfl, bringupProbed_effect _ _ _ nofun⟩
  · exact ⟨_, by rw [State.setDev_devs, hdevs], hout, bringupProbed_effect _ _ _ nofun⟩
  · refine ⟨_, by rw [State.setDev_devs, hdevs], hout, ?_⟩
    rw [bringupProgram_eq]
    exact ⟨rfl, by simp, fun _ => ⟨rfl, rfl, rfl, rfl⟩⟩

end

/-- Settles O38: the slots and the pool recycled, BRINGUP's effect on what that leaves, and the stranded SEND. -/
theorem forceResetOperation : Obligations.ForceResetOperation := by
  intro s hnd d hd count d1
  refine ⟨recyclePool d s, recyclePool_of_kept, fun k hk hnext => ?_, ?_⟩
  · rw [recyclePool_of_released hk hnext]
    exact ⟨rfl, (insertBuffer_perm k s.poolFree).mem_iff.mpr List.mem_cons_self⟩
  intro st up
  obtain ⟨hdevs, -, hbuf, -⟩ := recyclePool_frame d s
  obtain ⟨b, hset, hout, heffect⟩ := bringup_effect hnd.toNat d1 (recyclePool d s)
  have hup : up.devs[hnd.toNat]? = some b := by
    obtain ⟨hlt, -⟩ := List.getElem?_eq_some_iff.mp hd
    rw [hset, hdevs, List.getElem?_set_self hlt]
  have hrun := exec_forceReset hd (show bringup hnd.toNat d1 (recyclePool d s) = _ from rfl) hup
  obtain ⟨hframe, hiff, hcleared⟩ := heffect
  have hcfg : b.cfg = { d.cfg with deviceId := b.cfg.deviceId } := congrArg Context.cfg hframe
  refine ⟨b, _, hup, rfl, hrun, ?_⟩
  have hstranded : (if d.sendWait then { b with txSuccess := false, sigTxdone := true } else b) = { b with
      txSuccess := if d.sendWait then false else b.txSuccess
      sigTxdone := if d.sendWait then true else b.sigTxdone } := by
    cases d.sendWait <;> rfl
  rw [hstranded]
  refine ⟨hiff, (congrArg Context.resetCount hframe :), (congrArg Context.errorCount hframe :),
    (congrArg Context.supervisorCounter hframe :), (congrArg Context.rssiLast hframe :), (congrArg Cfg.minFreq hcfg :),
    (congrArg Cfg.maxFreq hcfg :), (congrArg Cfg.bitrate hcfg :), (congrArg Cfg.centerFreq hcfg :),
    (congrArg Cfg.maxPower hcfg :), (congrArg Cfg.xtalCap hcfg :), (congrArg Context.rxNext hframe :),
    (congrArg Context.rxCompleted hframe :), fun hsend => ⟨if_pos hsend, if_pos hsend⟩, fun hsend => ?_, (congrArg Context.sendWait hframe :),
    (congrArg Context.recvWait hframe :), (congrArg Context.recvTimer hframe :), hcleared, ?_, ?_⟩
  · exact (if_neg (by simp [hsend])).trans (congrArg Context.sigTxdone hframe :)
  · exact (bringup_buf _ _ _).trans hbuf
  · exact hout.trans (recyclePool_out d s)

/-- Settles O39: the three checks of BRINGUP pass, and its programming in one update. -/
theorem forceResetBringsTheDeviceUp : Obligations.ForceResetBringsTheDeviceUp := by
  intro s hnd d j0 j1 j2 ty ve tape hd ha hty hve hlo hle hhi hactive
  let d1 := recycleSlots { d with resetCount := d.resetCount + 1#16 }
  obtain ⟨hpool, hparams, -⟩ := recyclePool_frame d s
  have hsilicon : siliconOk (recyclePool d s).params hnd.toNat d1 = true :=
    (siliconOk_of_tape (d := d1) ha).mpr (hparams ▸ ⟨hty, hve⟩)
  have hrange : freqRangeOk (recyclePool d s).params d1.cfg = true :=
    freqRangeOk_iff.mpr (hparams ▸ ⟨hlo, hle, hhi⟩)
  have hbuffer : bringupBuffer d1 (recyclePool d s) = d.rxActive := if_neg hactive
  have hkept : bringupPool d1 (recyclePool d s) = recyclePool d s := if_neg hactive
  have hup := bringup_of_ok hsilicon hrange (hbuffer ▸ hactive)
  rw [hbuffer, hkept, bringupProgram_eq] at hup
  have hrun := exec_forceReset hd hup (State.setDev_get_same _ _ d _ (hpool ▸ hd))
  refine ⟨_, _, hrun, State.setDev_get_same _ _ _ _ (State.setDev_get_same _ _ d _ (hpool ▸ hd)), ?_, ?_⟩
  · rw [State.respond_out, State.setDev_out, State.setDev_out, recyclePool_out]
  · cases d.sendWait <;> exact ⟨rfl, rfl, rfl, rfl, rfl, rfl⟩

end Sys2Proof.Machine
end

