-- ==== Sys2Proof/Proofs/PhyConfig.lean ====
section
/-! PROOF. PHY configuration (spec/44_phy_config.md): the row search on an ascending table (`rowsel_cases`), a PHY command
that nothing preempts, the same for all three (`phyCommand_of_initialized`), and the REFCFG conversions with the frequency
read back as a number (`readBackHz`). -/

namespace Sys2Proof.Machine

/-! ## The row search (R242) -/

section
variable {p : Params} {bps : U32}

theorem phyRow_of_lt {i : Nat} (hi : i < p.phyTable.length) : phyRow p i = p.phyTable[i] :=
  List.getD_eq_getElem _ _ hi

/-- The rows ascend (R9). -/
theorem phyRow_bitrate_mono (hp : p.wf = true) {i j : Nat} (hij : i ≤ j) (hj : j < p.phyTable.length) :
    (phyRow p i).bitrate ≤ (phyRow p j).bitrate := by
  have hascends : p.phyTable.Pairwise fun a b => a.bitrate < b.bitrate := by
    simp only [Params.wf, Bool.and_eq_true, decide_eq_true_eq] at hp
    tauto
  rw [phyRow_of_lt (hij.trans_lt hj), phyRow_of_lt hj]
  obtain rfl | hlt := hij.eq_or_lt
  · exact BitVec.le_refl _
  · exact BitVec.le_of_lt (List.pairwise_iff_getElem.mp hascends i j _ hj hlt)

theorem mem_phyTable_iff {r : PhyRow} : r ∈ p.phyTable ↔ ∃ i < p.phyTable.length, phyRow p i = r := by
  rw [List.mem_iff_getElem]
  constructor
  · rintro ⟨i, hi, rfl⟩
    exact ⟨i, hi, phyRow_of_lt hi⟩
  · rintro ⟨i, hi, rfl⟩
    exact ⟨i, hi, (phyRow_of_lt hi).symm⟩

/-- What ROWSEL can find: the first row that is fast enough, or none and so the last row. -/
theorem rowsel_cases (p : Params) (bps : U32) :
    (rowsel p bps < p.phyTable.length ∧ bps ≤ (phyRow p (rowsel p bps)).bitrate ∧
      ∀ j < rowsel p bps, (phyRow p j).bitrate < bps) ∨
    (rowsel p bps = p.phyTable.length - 1 ∧ ∀ r ∈ p.phyTable, r.bitrate < bps) := by
  cases hfind : p.phyTable.findIdx? fun r => decide (bps ≤ r.bitrate) with
  | none =>
    refine .inr ⟨by rw [rowsel, hfind, Option.getD_none], fun r hr => ?_⟩
    simpa using List.findIdx?_eq_none_iff.mp hfind r hr
  | some i =>
    obtain ⟨hi, hfast, hslow⟩ := List.findIdx?_eq_some_iff_getElem.mp hfind
    rw [show rowsel p bps = i by rw [rowsel, hfind, Option.getD_some]]
    refine .inl ⟨hi, by simpa [phyRow_of_lt hi] using hfast, fun j hj => ?_⟩
    simpa [phyRow_of_lt (hj.trans hi)] using hslow j hj

theorem rowsel_lt (p : Params) (bps : U32) : rowsel p bps < p.phyTable.length := by
  obtain ⟨hlt, -⟩ | ⟨hlast, -⟩ := rowsel_cases p bps
  · exact hlt
  · rw [hlast]
    exact Nat.sub_one_lt (List.length_pos_iff.mpr (List.cons_ne_nil _ _)).ne'

end

/-- Settles O40: the two outcomes of the search, in a table whose rows ascend. -/
theorem rowSelection : Obligations.RowSelection := by
  intro p bps hp
  refine ⟨phyRow_mem p _, rowsel_lt p bps, fun ⟨r, hr, hrbps⟩ => ?_, fun hslow r hr => ?_⟩
  · obtain ⟨-, hfast, hbefore⟩ | ⟨-, hall⟩ := rowsel_cases p bps
    case inr => exact absurd (hall r hr) (BitVec.not_lt.mpr hrbps)
    refine ⟨hfast, fun q hq hqbps => ?_⟩
    obtain ⟨j, hj, rfl⟩ := mem_phyTable_iff.mp hq
    have hle : rowsel p bps ≤ j := Nat.le_of_not_lt fun hlt => absurd (hbefore j hlt) (BitVec.not_lt.mpr hqbps)
    exact phyRow_bitrate_mono hp hle hj
  · obtain ⟨hlt, hfast, -⟩ | ⟨hlast, -⟩ := rowsel_cases p bps
    · exact absurd (hslow _ (phyRow_mem p _)) (BitVec.not_lt.mpr hfast)
    · obtain ⟨j, hj, rfl⟩ := mem_phyTable_iff.mp hr
      exact phyRow_bitrate_mono hp (by omega) (rowsel_lt p bps)

/-! ## The three PHY commands (R243, R250, R255) -/

section
variable {s : State} {hnd : U8} {d : Context}

theorem phyCommand_of_uninitialized (hd : s.devs[hnd.toNat]? = some d) (hi : d.initialized = false) (opc : U8)
    (job : Context → PhyJob) :
    onCommand opc hnd s (fun h d =>
      .next (if d.initialized then runPhy h (job d) d s else s.respond opc hnd .errNotInit 0#32)) =
      .next (s.respond opc hnd .errNotInit 0#32) := by
  rw [onCommand_some hd, if_neg (by simp [hi])]

/-- A PHY command that nothing preempts runs all its units and answers. -/
theorem phyCommand_of_initialized (hd : s.devs[hnd.toNat]? = some d) (hi : d.initialized = true)
    (hp : d.preempts = []) (opc : U8) (job : Context → PhyJob) :
    onCommand opc hnd s (fun h d =>
      .next (if d.initialized then runPhy h (job d) d s else s.respond opc hnd .errNotInit 0#32)) =
      .next ((s.setDev hnd.toNat (applyPhyOps d (job d).ops)).respond (job d).opc (job d).hnd .ok (job d).value) := by
  rw [onCommand_some hd, if_pos hi, runPhy, hp]

theorem exec_setCarrier_of_initialized (hd : s.devs[hnd.toNat]? = some d) (hi : d.initialized = true)
    (hp : d.preempts = []) (hz : U32) :
    exec (.setCarrier hnd hz) s = .next ((s.setDev hnd.toNat (applyPhyOps d (carrierOps s.params d.cfg hz))).respond
      0x11#8 hnd .ok (carrierValue d.cfg hz)) := by
  rw [exec, execSetCarrier, phyCommand_of_initialized hd hi hp]

theorem exec_getCarrier (hd : s.devs[hnd.toNat]? = some d) :
    exec (.getCarrier hnd) s = .next (s.respond 0x12#8 hnd .ok (regsToFreq s.params d.phy.band d.phy.chan)) := by
  obtain ⟨-, -, -, hget⟩ := readoutsAnswerAndWriteNothing s hnd d hd
  exact hget

end

/-- The clamp (R251). -/
theorem carrierValue_toNat (cfg : Cfg) (hz : U32) :
    (carrierValue cfg hz).toNat = min (max hz.toNat cfg.minFreq.toNat) cfg.maxFreq.toNat := by
  unfold carrierValue clampHz
  dsimp only
  split_ifs with hlow hhigh hhigh <;> simp only [BitVec.lt_def] at hlow hhigh <;> omega

theorem carrierValue_mem_range {cfg : Cfg} (h : cfg.minFreq ≤ cfg.maxFreq) (hz : U32) :
    cfg.minFreq ≤ carrierValue cfg hz ∧ carrierValue cfg hz ≤ cfg.maxFreq := by
  simp only [BitVec.le_def, carrierValue_toNat] at h ⊢
  omega

/-- Settles O41: the row's register writes, and the two fields of `phy`. -/
theorem setDatarateOperation : Obligations.SetDatarateOperation := by
  intro s hnd d bps hd
  refine ⟨fun hi => phyCommand_of_uninitialized hd hi _ _, fun hi hp => ?_⟩
  rw [exec, execSetDatarate, phyCommand_of_initialized hd hi hp, applyPhyOps_datarate]
  simp only [rowWrites, Context.regWrites, List.map_append, List.map_map, List.append_assoc]
  rfl

/-- Settles O42: the clamped frequency's register writes, and the four fields of `phy`. -/
theorem setCarrierOperation : Obligations.SetCarrierOperation := by
  intro s hnd d hz hd
  refine ⟨fun hi => phyCommand_of_uninitialized hd hi _ _, fun hi hp =>
    ⟨carrierValue d.cfg hz, carrierValue_toNat d.cfg hz, ?_⟩⟩
  rw [exec_setCarrier_of_initialized hd hi hp, applyPhyOps_carrier]
  rfl

/-- Settles O43: the saturated level as a number below 8. -/
theorem setTxpowerOperation : Obligations.SetTxpowerOperation := by
  intro s hnd d level hd
  refine ⟨fun hi => phyCommand_of_uninitialized hd hi _ _, fun hi hp => ?_⟩
  have hvalue : (saturateLevel level).zeroExtend 32 = BitVec.ofNat 32 (min level.toNat 7) := by
    rw [← saturateLevel_toNat, BitVec.ofNat_toNat]
  rw [exec, execSetTxpower, phyCommand_of_initialized hd hi hp, applyPhyOps_txpower, txpowCode, hvalue,
    saturateLevel_toNat, saturateLevel_eq]
  rfl

/-- Settles O45: GET_CARRIER reads back the pair that SET_CARRIER recorded, and the law of the pair. -/
theorem carrierRoundTrip : Obligations.CarrierRoundTrip := by
  intro s hnd d hz hd hi hp hlaw hlo hle hhi
  obtain ⟨hmin, hmax⟩ := carrierValue_mem_range hle hz
  have hset := exec_setCarrier_of_initialized hd hi hp hz
  have he := State.setDev_get_same s hnd.toNat d (applyPhyOps d (carrierOps s.params d.cfg hz)) hd
  exact ⟨_, _, _, _, hset, he, exec_getCarrier he, carrierValue_toNat d.cfg hz, rfl, rfl, hmin, hmax,
    hlaw _ (BitVec.le_trans hlo hmin) (BitVec.le_trans hmax hhi)⟩

/-! ## The REFCFG frequency pair (R253) -/

section
variable {p : Params} {m : Nat}

/-- The band byte holds the band number in its low five bits and the multiplier in bit 5. -/
theorem bandByte_fields (hm : m = 1 ∨ m = 2) {fb : Nat} (hfb : fb < 32) :
    let band := 0x40#8 ||| (if (m : Int) = 2 then 0x20#8 else 0x00#8) ||| BitVec.ofNat 8 fb
    (band &&& 0x1F#8).toNat = fb ∧ (if band &&& 0x20#8 ≠ 0#8 then 2 else 1) = m := by
  have hbytes : ∀ fb < 32,
      ((0x40#8 ||| 0x00#8 ||| BitVec.ofNat 8 fb) &&& 0x1F#8).toNat = fb ∧
      ((0x40#8 ||| 0x20#8 ||| BitVec.ofNat 8 fb) &&& 0x1F#8).toNat = fb ∧
      (0x40#8 ||| 0x00#8 ||| BitVec.ofNat 8 fb) &&& 0x20#8 = 0#8 ∧
      (0x40#8 ||| 0x20#8 ||| BitVec.ofNat 8 fb) &&& 0x20#8 ≠ 0#8 := by decide
  obtain ⟨hlow1, hlow2, hbit1, hbit2⟩ := hbytes fb hfb
  obtain rfl | rfl := hm
  · exact ⟨hlow1, if_neg (not_not_intro hbit1)⟩
  · exact ⟨hlow2, if_pos hbit2⟩

/-- The REFCFG frequency behind the registers for `f`, with band width 10 MHz times `m` and step 625 m / 4 Hz. -/
def readBackHz (f m : Nat) : Nat :=
  f / (10000000 * m) * (10000000 * m) + f % (10000000 * m) * 4 / (625 * m) * (625 * m) / 4

/-- Rounding down to a channel loses less than a step. -/
theorem readBackHz_error (hm : m = 1 ∨ m = 2) (f : Nat) :
    readBackHz f m ≤ f ∧ 4 * (f - readBackHz f m) ≤ 625 * m := by
  unfold readBackHz
  obtain rfl | rfl := hm <;> omega

theorem freqToRegs_refcfg (hconv : p.freqConv = .refcfg) (hm : m = 1 ∨ m = 2) {f : U32}
    (hlo : 24 ≤ f.toNat / (10000000 * m)) (hhi : f.toNat / (10000000 * m) < 56) :
    freqToRegs p f m =
      (0x40#8 ||| (if (m : Int) = 2 then 0x20#8 else 0x00#8) ||| BitVec.ofNat 8 (f.toNat / (10000000 * m) - 24),
        BitVec.ofNat 16 (f.toNat % (10000000 * m) * 4 / (625 * m)), BitVec.ofNat 16 (625 * m)) := by
  have hdomain : inBandDomain f m = true := by
    simp only [inBandDomain, Bool.and_eq_true, Bool.or_eq_true, beq_iff_eq, decide_eq_true_eq]
    exact ⟨⟨by omega, by exact_mod_cast hlo⟩, by exact_mod_cast hhi⟩
  have hfb : (f.toNat : Int) / (10000000 * m) - 24 = ((f.toNat / (10000000 * m) - 24 : Nat) : Int) := by
    push_cast [hlo]
    rfl
  have hchan : (f.toNat : Int) % (10000000 * m) * 4 / (625 * m) =
      ((f.toNat % (10000000 * m) * 4 / (625 * m) : Nat) : Int) := by push_cast; rfl
  have hstep : (625 : Int) * m = ((625 * m : Nat) : Int) := by push_cast; rfl
  rw [freqToRegs, hconv]
  dsimp only
  rw [if_pos hdomain, hfb, hchan, hstep]
  simp only [BitVec.ofInt_natCast]

/-- Reading back the registers of a frequency of a REFCFG band. -/
theorem regsToFreq_freqToRegs_refcfg (hconv : p.freqConv = .refcfg) (hm : m = 1 ∨ m = 2) {f : U32}
    (hlo : 24 ≤ f.toNat / (10000000 * m)) (hhi : f.toNat / (10000000 * m) < 56) :
    (regsToFreq p (freqToRegs p f m).1 (freqToRegs p f m).2.1).toNat = readBackHz f.toNat m ∧
      (freqToRegs p f m).2.2.toNat = 625 * m := by
  obtain ⟨hfb, hmult⟩ := bandByte_fields hm (fb := f.toNat / (10000000 * m) - 24) (by omega)
  obtain ⟨hle, -⟩ := readBackHz_error hm f.toNat
  have hchan : (BitVec.ofNat 16 (f.toNat % (10000000 * m) * 4 / (625 * m))).toNat =
      f.toNat % (10000000 * m) * 4 / (625 * m) := Nat.mod_eq_of_lt (by obtain rfl | rfl := hm <;> omega)
  rw [freqToRegs_refcfg hconv hm hlo hhi]
  refine ⟨?_, Nat.mod_eq_of_lt (by omega)⟩
  rw [regsToFreq, hconv]
  dsimp only
  rw [hfb, hmult, hchan, Nat.sub_add_cancel hlo, Nat.mul_assoc _ _ m, Nat.mul_assoc _ 625 m]
  exact Nat.mod_eq_of_lt (hle.trans_lt f.isLt)

/-- Inside the REFCFG limits the multiplier is 1 or 2, and the band number fits. -/
theorem bandMult_refcfg (hmult : p.highBandMult = 2) {f : U32} (hlo : 240000000#32 ≤ f) (hhi : f ≤ 930000000#32) :
    ∃ m : Nat, (m = 1 ∨ m = 2) ∧ bandMult p f = m ∧
      24 ≤ f.toNat / (10000000 * m) ∧ f.toNat / (10000000 * m) < 56 := by
  have hlo' : 240000000 ≤ f.toNat := hlo
  have hhi' : f.toNat ≤ 930000000 := hhi
  by_cases hhigh : Config.highBandHz ≤ f
  · have hhigh' : 480000000 ≤ f.toNat := hhigh
    exact ⟨2, .inr rfl, by rw [bandMult, if_pos hhigh, hmult]; rfl, by omega, by omega⟩
  · have hhigh' : f.toNat < 480000000 := Nat.lt_of_not_le hhigh
    exact ⟨1, .inl rfl, by rw [bandMult, if_neg hhigh]; rfl, by omega, by omega⟩

/-- The law of the REFCFG pair (R252) inside the REFCFG limits, with an error that is never upward (R253). -/
theorem freqPair_refcfg (hconv : p.freqConv = .refcfg) (hmult : p.highBandMult = 2) {f : U32}
    (hlo : 240000000#32 ≤ f) (hhi : f ≤ 930000000#32) :
    let r := freqToRegs p f (bandMult p f)
    let f' := regsToFreq p r.1 r.2.1
    4 * ((f.toNat : Int) - f'.toNat).natAbs ≤ r.2.2.toNat ∧ f'.toNat ≤ f.toNat := by
  obtain ⟨m, hm, hband, hfirst, hlast⟩ := bandMult_refcfg hmult hlo hhi
  obtain ⟨hback, hstep⟩ := regsToFreq_freqToRegs_refcfg hconv hm hfirst hlast
  obtain ⟨hle, herror⟩ := readBackHz_error hm f.toNat
  intro r f'
  rw [← hback] at hle herror
  rw [← hstep] at herror
  simp only [r, f', hband]
  omega

end

/-! ## RSSI_CONV and AFC_CONV (spec/41_rx_pipeline.md R165, R166) -/

theorem rssiConv_refcfg_toInt {p : Params} (h : p.rssiConv = .refcfg) (r : U8) :
    (rssiConv p r).toInt = (r.toNat / 2 : Nat) - 122 := by
  have hr := r.isLt
  rw [rssiConv, h]
  dsimp only
  rw [BitVec.toInt_ofInt]
  exact Int.bmod_eq_of_le (by omega) (by omega)

/-- Toward zero is down for a number at least 0 (and, by `Int.neg_tdiv`, up for one at most 0). -/
theorem tdiv_four_of_nonneg {x : Int} (hx : 0 ≤ x) : 0 ≤ x.tdiv 4 ∧ 4 * x.tdiv 4 ≤ x ∧ x < 4 * x.tdiv 4 + 4 := by
  rw [Int.tdiv_eq_ediv_of_nonneg hx]
  omega

theorem tdiv_four_of_nonpos {x : Int} (hx : x ≤ 0) : x.tdiv 4 ≤ 0 ∧ x ≤ 4 * x.tdiv 4 ∧ 4 * x.tdiv 4 - 4 < x := by
  have h := tdiv_four_of_nonneg (Int.neg_nonneg_of_nonpos hx)
  rw [Int.neg_tdiv] at h
  omega

/-- Settles O44: the frequency read back as a number, the reading's range, and division toward zero by the sign. -/
theorem referenceConversionLaw : Obligations.ReferenceConversionLaw := by
  refine ⟨fun p hconv hmult hlolimit hhilimit => ?_, fun p r h => rssiConv_refcfg_toInt h r,
    fun p raw step h => ⟨_, by rw [afcConv, h], fun hraw => tdiv_four_of_nonneg ?_,
      fun hraw => tdiv_four_of_nonpos ?_⟩, by decide⟩
  · rw [FreqLaw, hlolimit, hhilimit]
    exact ⟨fun f hlo hhi => (freqPair_refcfg hconv hmult hlo hhi).left,
      fun f hlo hhi => (freqPair_refcfg hconv hmult hlo hhi).right⟩
  · exact Int.mul_nonneg hraw (Int.natCast_nonneg _)
  · exact Int.mul_nonpos_of_nonpos_of_nonneg hraw (Int.natCast_nonneg _)

end Sys2Proof.Machine
end

