-- ==== Sys2Proof/Proofs/Instances.lean ====
section
/-! PROOF. The supervisor port (spec/60_exceptions.md R287) and the independence of the instances (R293). Independence is
one equation per operation: a unit of instance `h` commutes with replacing the Device Context of an instance `j ≠ h`. The
shared operations say it for any rule (`onEvent_setDev_ne`, `onCommand_setDev_ne`, `bindRes_resSetDev`), the others by the
branches of their definitions. That the unit leaves instance `j` as it is follows from the equation
(`devs_of_setDev_commutes`). -/

namespace Sys2Proof.Machine

/-! ## The supervisor port -/

theorem supervisorRead_of_some {s : State} {h : Nat} {d : Context} (hd : s.devs[h]? = some d) (r : SupReg) :
    supervisorRead h r s = { s with out := s.out ++ [.supervisor (supValue d r)] } := by
  rw [supervisorRead, hd]

theorem supervisorWrite_of_some {s : State} {h : Nat} {d : Context} (hd : s.devs[h]? = some d) (v : U32) :
    supervisorWrite h v s = s.setDev h { d with supervisorCounter := v } := by
  rw [supervisorWrite, hd]

theorem step_supRead {s : State} {hnd : U8} {r : SupReg} {rest : List Input} (hin : s.inputs = .supRead hnd r :: rest) :
    step s = .next (supervisorRead hnd.toNat r { s with inputs := rest }) := by
  rw [step, hin]
  rfl

theorem step_supWrite {s : State} {hnd : U8} {v : U32} {rest : List Input} (hin : s.inputs = .supWrite hnd v :: rest) :
    step s = .next (supervisorWrite hnd.toNat v { s with inputs := rest }) := by
  rw [step, hin]
  rfl

/-- Settles O49: a read appends the register's word to the output, a write replaces one register of the device. -/
theorem supervisorPortAccess : Obligations.SupervisorPortAccess := by
  intro s hnd d rest hd
  refine ⟨fun r v hin hv => ?_, fun v hin => ?_⟩
  · have hword : supValue d r = v := by
      rcases hv with ⟨rfl, rfl⟩ | ⟨rfl, rfl⟩ | ⟨rfl, rfl⟩ | ⟨rfl, rfl⟩ | ⟨rfl, rfl⟩ | ⟨rfl, rfl⟩ <;> rfl
    rw [step_supRead hin, supervisorRead_of_some (s := { s with inputs := rest }) hd, hword]
  · rw [step_supWrite hin, supervisorWrite_of_some (s := { s with inputs := rest }) hd]

/-! ## A result beside another Device Context -/

/-- A result with the Device Context of instance `j` replaced in its next state. -/
def resSetDev (j : Nat) (x : Context) (r : Res) : Res := bindRes r fun t => .next (t.setDev j x)

@[simp] theorem resSetDev_next (j : Nat) (x : Context) (t : State) :
    resSetDev j x (.next t) = .next (t.setDev j x) := rfl

/-- Results in sequence: the second unit decides. -/
theorem bindRes_resSetDev {j : Nat} {x : Context} {f : State → Res}
    (hf : ∀ u, f (u.setDev j x) = resSetDev j x (f u)) (r : Res) :
    bindRes (resSetDev j x r) f = resSetDev j x (bindRes r f) := by
  cases r with
  | next u => exact hf u
  | fault | refused => rfl

/-! ## The pool, the host side and BUF hold no Device Context -/

section
variable (s : State) (j : Nat) (x : Context)

theorem State.respond_setDev (opc hnd : U8) (st : Status) (v : U32) :
    (s.setDev j x).respond opc hnd st v = (s.respond opc hnd st v).setDev j x := rfl
theorem State.poolTaken_setDev : (s.setDev j x).poolTaken = s.poolTaken.setDev j x := rfl
theorem State.poolAnswer_setDev : (s.setDev j x).poolAnswer = s.poolAnswer := rfl
theorem State.poolRelease_setDev (k : Nat) : (s.setDev j x).poolRelease k = (s.poolRelease k).setDev j x := rfl

theorem bringupBuffer_setDev (d : Context) : bringupBuffer d (s.setDev j x) = bringupBuffer d s := rfl

theorem bringupPool_setDev (d : Context) : bringupPool d (s.setDev j x) = (bringupPool d s).setDev j x := by
  unfold bringupPool
  split_ifs
  · exact s.poolTaken_setDev j x
  · rfl

theorem recyclePool_setDev (d : Context) : recyclePool d (s.setDev j x) = (recyclePool d s).setDev j x := by
  unfold recyclePool
  split
  · split_ifs
    · rfl
    · exact s.poolRelease_setDev j x _
  · rfl

end

/-! ## Procedures of one instance beside another -/

section
variable {h j : Nat} (hj : j ≠ h) (x : Context)
include hj

theorem State.setDev_setDev_ne (s : State) (d : Context) :
    (s.setDev j x).setDev h d = (s.setDev h d).setDev j x := by
  simp only [State.setDev, List.set_comm _ _ hj]

theorem State.setDev_devs_ne (s : State) : (s.setDev j x).devs[h]? = s.devs[h]? := s.setDev_get_ne j h x hj.symm

theorem runPhy_setDev_ne (job : PhyJob) (d : Context) (s : State) :
    runPhy h job d (s.setDev j x) = (runPhy h job d s).setDev j x := by
  unfold runPhy
  split
  · rw [State.setDev_setDev_ne hj, State.respond_setDev]
  · split_ifs
    · rw [State.setDev_setDev_ne hj, State.respond_setDev]
    · exact s.setDev_setDev_ne hj x _

theorem resumePhy_setDev_ne (i : Nat) (d : Context) (s : State) :
    resumePhy h i d (s.setDev j x) = (resumePhy h i d s).setDev j x := by
  unfold resumePhy
  split
  · rfl
  · exact runPhy_setDev_ne hj x _ _ s

theorem bringup_setDev_ne (d : Context) (s : State) :
    bringup h d (s.setDev j x) = ((bringup h d s).1, (bringup h d s).2.setDev j x) := by
  unfold bringup
  simp only [State.setDev_params, State.setDev_serial, bringupBuffer_setDev, bringupPool_setDev,
    State.setDev_setDev_ne hj]
  split_ifs <;> rfl

theorem wakeStranded_setDev_ne (was : Bool) (s : State) :
    wakeStranded h was (s.setDev j x) = (wakeStranded h was s).setDev j x := by
  unfold wakeStranded
  rw [State.setDev_devs_ne hj]
  split
  · rfl
  · split_ifs
    · exact s.setDev_setDev_ne hj x _
    · rfl

theorem endSend_setDev_ne (s : State) : endSend h (s.setDev j x) = (endSend h s).setDev j x := by
  unfold endSend
  rw [State.setDev_devs_ne hj]
  split
  · rfl
  · exact s.setDev_setDev_ne hj x _

theorem rxDrain_setDev_ne (d : Context) (s : State) :
    rxDrain h d (s.setDev j x) = resSetDev j x (rxDrain h d s) := by
  unfold rxDrain
  simp only [State.setDev_params, State.setDev_buf, State.setDev_setDev_ne hj]
  split_ifs
  · rfl
  · split <;> rfl

theorem rxFinish_setDev_ne (d : Context) (s : State) :
    rxFinish h d (s.setDev j x) = resSetDev j x (rxFinish h d s) := by
  unfold rxFinish
  simp only [State.setDev_params, State.setDev_buf, State.setDev_setDev_ne hj]
  split_ifs
  · rfl
  · split <;> rfl

theorem txstart_setDev_ne (d : Context) (s : State) :
    txstart h d (s.setDev j x) = resSetDev j x (txstart h d s) := by
  unfold txstart
  simp only [State.setDev_params, State.setDev_buf, State.setDev_setDev_ne hj]
  split <;> rfl

theorem txAlmostEmpty_setDev_ne (d : Context) (s : State) :
    txAlmostEmpty h d (s.setDev j x) = resSetDev j x (txAlmostEmpty h d s) := by
  unfold txAlmostEmpty
  simp only [State.setDev_params, State.setDev_buf, State.setDev_setDev_ne hj]
  split
  · rfl
  · split
    · rfl
    · split <;> rfl

theorem wakeNext_setDev_ne (d : Context) (s : State) :
    wakeNext h d (s.setDev j x) = resSetDev j x (wakeNext h d s) := by
  unfold wakeNext
  split_ifs
  · rw [State.setDev_setDev_ne hj]
    rfl
  · exact txstart_setDev_ne hj x d s

end

/-! ## Every instruction beside another instance -/

section
variable {hnd : U8} {j : Nat} (hj : j ≠ hnd.toNat) {x : Context} {s : State}
include hj

/-- An event beside another instance: its rule for each Device Context decides. -/
theorem onEvent_setDev_ne {rule' rule : Nat → Context → Res}
    (hrule : ∀ d, rule' hnd.toNat d = resSetDev j x (rule hnd.toNat d)) :
    onEvent hnd (s.setDev j x) rule' = resSetDev j x (onEvent hnd s rule) := by
  unfold onEvent
  rw [State.setDev_devs_ne hj]
  split
  · rfl
  · split_ifs
    · exact hrule _
    · rfl

/-- A command beside another instance: its rule for each Device Context decides. -/
theorem onCommand_setDev_ne {opc : U8} {rule' rule : Nat → Context → Res}
    (hrule : ∀ d, rule' hnd.toNat d = resSetDev j x (rule hnd.toNat d)) :
    onCommand opc hnd (s.setDev j x) rule' = resSetDev j x (onCommand opc hnd s rule) := by
  unfold onCommand
  rw [State.setDev_devs_ne hj]
  split
  · rfl
  · exact hrule _

end

/-- Every instruction does the same beside another Device Context of another instance. -/
theorem exec_setDev_ne (i : Instr) {j : Nat} (hj : j ≠ i.hnd.toNat) (x : Context) (s : State) :
    exec i (s.setDev j x) = resSetDev j x (exec i s) := by
  cases i with rw [Instr.hnd] at hj
  | init hnd =>
    simp only [exec, execInit]
    refine onCommand_setDev_ne hj fun d => ?_
    rw [resSetDev_next, State.setDev_settings, bringup_setDev_ne hj]
    split_ifs <;> rfl
  | send hnd packet timeoutMs =>
    simp only [exec, execSend]
    refine onCommand_setDev_ne hj fun d => ?_
    simp only [resSetDev_next, State.setDev_params, State.setDev_setDev_ne hj]
    split
    · rfl
    · split_ifs <;> rfl
  | receive hnd timeoutMs =>
    simp only [exec, execReceive]
    refine onCommand_setDev_ne hj fun d => ?_
    rw [resSetDev_next, State.poolTaken_setDev, State.poolAnswer_setDev]
    simp only [State.setDev_setDev_ne hj]
    split_ifs <;> rfl
  | setDatarate | setCarrier | setTxpower =>
    simp only [exec, execSetDatarate, execSetCarrier, execSetTxpower]
    refine onCommand_setDev_ne hj fun d => ?_
    rw [resSetDev_next, State.setDev_params, runPhy_setDev_ne hj]
    split_ifs <;> rfl
  | getDeviceId | getRssi | getResetCount | getCarrier =>
    simp only [exec, execGetDeviceId, execGetRssi, execGetResetCount, execGetCarrier]
    exact onCommand_setDev_ne hj fun d => rfl
  | forceReset hnd =>
    simp only [exec, execForceReset]
    refine onCommand_setDev_ne hj fun d => ?_
    simp only [recyclePool_setDev, bringup_setDev_ne hj, wakeStranded_setDev_ne hj]
    rfl
  | evFfovfl | evFfunfl | evPor =>
    simp only [exec, execEvFfovfl, execEvFfunfl, execEvPor]
    exact onEvent_setDev_ne hj fun d => congrArg _ (s.setDev_setDev_ne hj x _)
  | evPreaval | evSwdet | evPksent =>
    simp only [exec, execEvPreaval, execEvSwdet, execEvPksent]
    refine onEvent_setDev_ne hj fun d => ?_
    rw [resSetDev_next, State.setDev_setDev_ne hj]
    split_ifs <;> rfl
  | evTxffaem =>
    simp only [exec, execEvTxffaem]
    refine onEvent_setDev_ne hj fun d => ?_
    split_ifs
    · exact txAlmostEmpty_setDev_ne hj x d s
    · rfl
  | evRxffafull =>
    simp only [exec, execEvRxffafull]
    refine onEvent_setDev_ne hj fun d => ?_
    split_ifs
    · exact congrArg _ (s.setDev_setDev_ne hj x _)
    · exact rxDrain_setDev_ne hj x d s
    · rfl
  | evPkvalid =>
    simp only [exec, execEvPkvalid]
    refine onEvent_setDev_ne hj fun d => ?_
    split_ifs
    · exact rxFinish_setDev_ne hj x d s
    · rfl

/-! ## The dispatcher beside another instance -/

/-- The events of a status word name the instance that read it. -/
theorem hnd_of_mem_decodeStatus {hnd : U8} {S : StatusWord} {i : Instr} (hi : i ∈ decodeStatus hnd S) :
    i.hnd = hnd := by
  unfold decodeStatus at hi
  split_ifs at hi
  · cases List.mem_singleton.mp hi
    rfl
  · obtain ⟨e, he, hflag⟩ := List.mem_filterMap.mp hi
    split_ifs at hflag
    cases hflag
    exact hnd_of_mem_orderedEvents he

section
variable {hnd : U8} {j : Nat} (hj : j ≠ hnd.toNat) (x : Context)
include hj

theorem runEvents_setDev_ne (l : List Instr) (hl : ∀ i ∈ l, i.hnd = hnd) (s : State) :
    runEvents l (s.setDev j x) = resSetDev j x (runEvents l s) := by
  induction l generalizing s with
  | nil => rfl
  | cons i l ih =>
    have hi : j ≠ i.hnd.toNat := by rwa [hl i List.mem_cons_self]
    rw [runEvents, exec_setDev_ne i hi, bindRes_resSetDev (ih fun k hk => hl k (List.mem_cons_of_mem _ hk))]
    rfl

theorem runEvents_decodeStatus_setDev_ne (S : StatusWord) (s : State) :
    runEvents (decodeStatus hnd S) (s.setDev j x) = resSetDev j x (runEvents (decodeStatus hnd S) s) :=
  runEvents_setDev_ne hj x _ (fun _ => hnd_of_mem_decodeStatus) s

theorem dispatchByMode_setDev_ne (d : Context) (s : State) :
    dispatchByMode hnd d (s.setDev j x) = resSetDev j x (dispatchByMode hnd d s) := by
  unfold dispatchByMode
  simp only [State.setDev_params, State.setDev_setDev_ne hj, runEvents_decodeStatus_setDev_ne hj]
  split_ifs <;> rfl

theorem dispatch_setDev_ne (dev is1 is2 : U8) (s : State) :
    dispatch hnd dev is1 is2 (s.setDev j x) = resSetDev j x (dispatch hnd dev is1 is2 s) := by
  unfold dispatch
  rw [State.setDev_devs_ne hj]
  split
  · rfl
  · rw [bindRes_leaveDispatcher, bindRes_leaveDispatcher, dispatchByMode_setDev_ne hj, State.setDev_setDev_ne hj]
    split_ifs <;> rfl

theorem dispatchOwn_setDev_ne (s : State) : dispatchOwn hnd (s.setDev j x) = resSetDev j x (dispatchOwn hnd s) := by
  unfold dispatchOwn
  rw [State.setDev_devs_ne hj]
  split
  · rfl
  · simp only [State.setDev_setDev_ne hj, dispatch_setDev_ne hj]
    split_ifs <;> rfl

/-! ## The agents beside another instance -/

theorem sendAbort_setDev_ne (d : Context) (s : State) :
    sendAbort hnd d (s.setDev j x) = resSetDev j x (sendAbort hnd d s) := by
  unfold sendAbort
  simp only [State.setDev_setDev_ne hj, dispatchOwn_setDev_ne hj]
  split_ifs <;> rfl

theorem sendComplete_setDev_ne (d : Context) (s : State) :
    sendComplete hnd d (s.setDev j x) = resSetDev j x (sendComplete hnd d s) := by
  unfold sendComplete
  dsimp only
  rw [State.setDev_setDev_ne hj, endSend_setDev_ne hj, sendAbort_setDev_ne hj,
    bindRes_resSetDev fun u => by rw [endSend_setDev_ne hj]; rfl]
  split_ifs <;> rfl

theorem receiveWoken_setDev_ne (d : Context) (s : State) :
    receiveWoken hnd hnd.toNat d (s.setDev j x) = resSetDev j x (receiveWoken hnd hnd.toNat d s) := by
  unfold receiveWoken
  rw [State.setDev_setDev_ne hj, wakeNext_setDev_ne hj, bindRes_resSetDev fun u => rfl]
  split_ifs <;> rfl

theorem receiveComplete_setDev_ne (d : Context) (s : State) :
    receiveComplete hnd d (s.setDev j x) = resSetDev j x (receiveComplete hnd d s) := by
  unfold receiveComplete
  rw [State.setDev_setDev_ne hj, receiveWoken_setDev_ne hj]
  split_ifs <;> rfl

theorem runAgent_setDev_ne (a : Agent) (s : State) :
    runAgent hnd a (s.setDev j x) = resSetDev j x (runAgent hnd a s) := by
  unfold runAgent
  rw [State.setDev_devs_ne hj]
  split
  · rfl
  · rename_i d _
    cases a with
    | send => exact sendComplete_setDev_ne hj x d s
    | receive => exact receiveComplete_setDev_ne hj x d s
    | dispatcher =>
      dsimp only
      split_ifs
      · exact dispatchOwn_setDev_ne hj x s
      · rfl
    | phy i => exact congrArg _ (resumePhy_setDev_ne hj x i d s)

end

/-! ## Independence -/

/-- A unit that commutes with replacing the Device Context of instance `j` leaves it: with what `j` holds already, replacing
changes nothing, so the unit ends in a state that holds the same. -/
theorem devs_of_setDev_commutes {f : State → Res} {s t : State} {j : Nat}
    (hf : ∀ x, f (s.setDev j x) = resSetDev j x (f s)) (hfix : KeepsFixed s (f s)) (ht : f s = .next t) :
    t.devs[j]? = s.devs[j]? := by
  obtain ⟨-, hlen, -, -⟩ := State.fixed_eq_iff.mp (hfix t ht)
  cases hs : s.devs[j]? with
  | none => exact List.getElem?_eq_none (hlen ▸ List.getElem?_eq_none_iff.mp hs)
  | some y =>
    obtain ⟨hlt, -⟩ := List.getElem?_eq_some_iff.mp hs
    have hself : t = t.setDev j y := by
      have hy := hf y
      rw [State.setDev_self hs, ht] at hy
      exact Host.Outcome.next.inj hy
    rw [hself, State.setDev_devs, List.getElem?_set_self (hlen ▸ hlt)]

/-- The two halves of independence, both from the one equation. -/
theorem separate_of_setDev_commutes {f : State → Res} {h : Nat}
    (hf : ∀ j x s, j ≠ h → f (s.setDev j x) = resSetDev j x (f s)) (hfix : ∀ s, KeepsFixed s (f s))
    (s t : State) (j : Nat) (x : Context) (ht : f s = .next t) (hj : j ≠ h) :
    t.devs[j]? = s.devs[j]? ∧ f (s.setDev j x) = .next (t.setDev j x) :=
  ⟨devs_of_setDev_commutes (fun y => hf j y s hj) (hfix s) ht, by rw [hf j x s hj, ht, resSetDev_next]⟩

/-- Settles O57: instructions, interrupts and agents commute with replacing the Device Context of another instance. -/
theorem instancesAreIndependent : Obligations.InstancesAreIndependent := by
  intro hnd
  refine ⟨?_, fun dev is1 is2 => ?_, fun a => ?_⟩
  · rintro i rfl
    exact separate_of_setDev_commutes (fun j x s hj => exec_setDev_ne i hj x s) (exec_keepsFixed i)
  · exact separate_of_setDev_commutes (fun j x s hj => dispatch_setDev_ne hj x dev is1 is2 s)
      (dispatch_keepsFixed hnd dev is1 is2)
  · exact separate_of_setDev_commutes (fun j x s hj => runAgent_setDev_ne hj x a s) (runAgent_keepsFixed hnd a)

end Sys2Proof.Machine
end

