-- ==== Sys2Proof/Proofs/PhyFrame.lean ====
section
/-! PROOF. What the PHY commands leave unchanged (spec/70_reset_and_hazards.md R327): a run of PHY units, to the end of its
command or to its preemption, keeps the Device Context apart from `phy` and the environment's part (`PhyFrame`), and the
state apart from that Device Context and the output (`WritesOnlyPhy`). -/

namespace Sys2Proof.Machine

/-! ## The Device Context -/

/-- `e` is `d` up to `phy`, the bus record and the bookkeeping of preemption. -/
def PhyFrame (d e : Context) : Prop :=
  e = { d with phy := e.phy, bus := e.bus, phyJobs := e.phyJobs, preempts := e.preempts }

theorem PhyFrame.refl (d : Context) : PhyFrame d d := rfl

theorem PhyFrame.trans {d e f : Context} (hde : PhyFrame d e) (hef : PhyFrame e f) : PhyFrame d f := by
  unfold PhyFrame at hde hef
  rw [hde] at hef
  exact hef

theorem applyPhyOps_phyFrame (d : Context) (ops : List PhyOp) : PhyFrame d (applyPhyOps d ops) := by
  rw [applyPhyOps_frame]
  rfl

/-! ## The state -/

/-- From `s`, with `d` at `h`, to `t` only `phy` and the output are written, beside the environment's part at `h`. -/
def WritesOnlyPhy (h : Nat) (d : Context) (s t : State) : Prop :=
  ∃ e, t.devs[h]? = some e ∧ PhyFrame d e ∧ t = { s.setDev h e with out := t.out }

section
variable {s : State} {h : Nat} {d e : Context} (hd : s.devs[h]? = some d)
include hd

theorem writesOnlyPhy_setDev (he : PhyFrame d e) : WritesOnlyPhy h d s (s.setDev h e) :=
  ⟨e, s.setDev_get_same h d e hd, he, rfl⟩

theorem writesOnlyPhy_refl : WritesOnlyPhy h d s s := by
  have hself := writesOnlyPhy_setDev hd (PhyFrame.refl d)
  rwa [State.setDev_self hd] at hself

omit hd in
/-- An answer is output only. -/
theorem WritesOnlyPhy.respond {t : State} (ht : WritesOnlyPhy h d s t) (opc hnd : U8) (st : Status) (v : U32) :
    WritesOnlyPhy h d s (t.respond opc hnd st v) := by
  obtain ⟨e, he, hframe, hstate⟩ := ht
  refine ⟨e, he, hframe, ?_⟩
  rw [hstate]
  rfl

/-- A run of units, whether it ends or is preempted, from any `e` that differs from the state's `d` in nothing but `phy`
and the environment's part. -/
theorem runPhy_writesOnlyPhy (he : PhyFrame d e) (job : PhyJob) : WritesOnlyPhy h d s (runPhy h job e s) := by
  have hunits (rest : List Nat) (ops : List PhyOp) : PhyFrame d (applyPhyOps { e with preempts := rest } ops) :=
    (he.trans (f := { e with preempts := rest }) rfl).trans (applyPhyOps_phyFrame _ ops)
  unfold runPhy
  split
  · exact (writesOnlyPhy_setDev hd (he.trans (applyPhyOps_phyFrame e _))).respond _ _ _ _
  · split
    · exact (writesOnlyPhy_setDev hd (hunits _ _)).respond _ _ _ _
    · exact writesOnlyPhy_setDev hd ((hunits _ _).trans rfl)

/-- The rest of a preempted command, in whatever state it goes on. -/
theorem resumePhy_writesOnlyPhy (j : Nat) : WritesOnlyPhy h d s (resumePhy h j d s) := by
  unfold resumePhy
  split
  · exact writesOnlyPhy_refl hd
  · exact runPhy_writesOnlyPhy hd (e := { d with phyJobs := d.phyJobs.eraseIdx j }) rfl _

end

/-! ## The commands -/

/-- A PHY command, refused or run. -/
theorem phyCommand_writesOnlyPhy {s : State} {hnd : U8} {d : Context} (hd : s.devs[hnd.toNat]? = some d) (opc : U8)
    (job : Context → PhyJob) :
    ∃ t, onCommand opc hnd s (fun h d =>
      .next (if d.initialized then runPhy h (job d) d s else s.respond opc hnd .errNotInit 0#32)) = .next t ∧
      WritesOnlyPhy hnd.toNat d s t := by
  rw [onCommand_some hd]
  refine ⟨_, rfl, ?_⟩
  split
  · exact runPhy_writesOnlyPhy hd (PhyFrame.refl d) _
  · exact (writesOnlyPhy_refl hd).respond _ _ _ _

theorem runAgent_phy {s : State} {hnd : U8} {d : Context} (hd : s.devs[hnd.toNat]? = some d) (j : Nat) :
    runAgent hnd (.phy j) s = .next (resumePhy hnd.toNat j d s) := by
  rw [runAgent, hd]

/-- Settles O46: the three commands are one shape, run or refused, and the agent resumes a run. -/
theorem phyCommandsWriteOnlyPhy : Obligations.PhyCommandsWriteOnlyPhy := by
  intro s hnd d hd phyOnly
  have phyOnly_of {r : Res} (hr : ∃ t, r = .next t ∧ WritesOnlyPhy hnd.toNat d s t) : phyOnly r := by
    obtain ⟨t, hr, e, he⟩ := hr
    exact ⟨t, e, hr, he⟩
  refine ⟨?_, fun j => phyOnly_of ⟨_, runAgent_phy hd j, resumePhy_writesOnlyPhy hd j⟩⟩
  rintro i (⟨bps, rfl⟩ | ⟨hz, rfl⟩ | ⟨level, rfl⟩)
  · exact phyOnly_of (phyCommand_writesOnlyPhy hd 0x10#8
      fun _ => ⟨0x10#8, hnd, datarateValue s.params bps, datarateOps s.params bps⟩)
  · exact phyOnly_of (phyCommand_writesOnlyPhy hd 0x11#8
      fun c => ⟨0x11#8, hnd, carrierValue c.cfg hz, carrierOps s.params c.cfg hz⟩)
  · exact phyOnly_of (phyCommand_writesOnlyPhy hd 0x13#8
      fun _ => ⟨0x13#8, hnd, (saturateLevel level).zeroExtend 32, txpowerOps s.params level⟩)

end Sys2Proof.Machine
end
